-- ==== Sys2Proof/Word.lean ====
section
/-! DEFINITION. The word types of the unit (R8, R9): bytes, 32-bit register words, 8-byte blocks. -/

namespace Sys2Proof

/-- An 8-bit unsigned value (R9). -/
abbrev Byte := BitVec 8

/-- A host-visible register's value (R8). -/
abbrev Word := BitVec 32

/-- The 8 bytes of a block (R13, R64); entry `j` is `blk[j]`. -/
abbrev Block := Vector Byte 8

end Sys2Proof
end

