-- ==== Sys2Proof/Config.lean ====
section
/-! DEFINITION. What the platform fixes (R7) and the values the spec leaves open. Every `opaque` constant here
has no body: nothing can be proved of its value but what its type says. -/

namespace Sys2Proof

/-- The OPEN dimensions of R7. The model holds them in State as plain data, which no step changes, so that a
statement speaks of every platform (DESIGN CHOICE, log 4). -/
structure Params where
  /-- 32-bit words in each key buffer. -/
  keyWords : Nat
  /-- Bytes of plane memory per plane. -/
  planeCap : Nat
  /-- Bytes of the output space OB. -/
  outCap : Nat
  /-- The largest noise value the header draw yields. -/
  noiseMax : Nat
  deriving DecidableEq, Repr

/-- Bytes per key buffer: `KEY_MAX = 4 * KEY_WORDS` (R7). -/
def Params.keyMax (p : Params) : Nat := 4 * p.keyWords

/-- The constraints R7 puts on the parameters. -/
def Params.wf (p : Params) : Bool :=
  decide (1 ≤ p.keyWords) && decide (p.keyWords ≤ 64) &&
  decide (1 ≤ p.planeCap) && decide (p.planeCap ≤ 2 ^ 29) &&
  decide (p.outCap ≤ 2 ^ 32 - 1) && decide (p.noiseMax ≤ 31)

namespace Config

/-- KEY_WORDS less 1, OPEN (D10): 0..63. -/
opaque keyWordsLess1 : BitVec 6
/-- PLANE_CAP less 1, OPEN (D7): 0..2^29-1. -/
opaque planeCapLess1 : BitVec 29
/-- OUT_CAP, OPEN (D6): 0..2^32-1. -/
opaque outCap : BitVec 32
/-- NOISE_MAX, OPEN (D16): 0..31. -/
opaque noiseMax : BitVec 5

/-- The platform's parameters: any values within the bounds of R7. -/
def params : Params where
  keyWords := keyWordsLess1.toNat + 1
  planeCap := planeCapLess1.toNat + 1
  outCap := outCap.toNat
  noiseMax := noiseMax.toNat

/-- The permutation oracle, OPEN (D11): a total function of the two keys and the index (R72). -/
opaque oracle : List Byte → List Byte → Nat → BitVec 24

/-- The random wipe fill, OPEN (D18): seed, plane, offset and the count of wipes since reset (R7, R85). -/
opaque wipefill : Word → Nat → Nat → Nat → Byte

/-- `draw_noise()` before it is brought into 0..NOISE_MAX (R95); the argument is the epoch. -/
opaque noiseDraw : Nat → Nat
/-- `draw_filler()` (R96): epoch, slot. -/
opaque fillerDraw : Nat → Nat → Byte

/-- A byte of PM that nothing has written since a reset (R150): the epoch of that reset, PM key. -/
opaque pmAfterReset : Nat → Nat → Byte
/-- A byte of OB that the host had there before anything the model knows of (R38): offset. -/
opaque obOfHost : Nat → Byte

/-- An OB byte in the range of a failed pass (R134): epoch, offset. -/
opaque failedOB : Nat → Nat → Byte
/-- A PM byte below the plane length of a failed pass (R134): epoch, PM key. -/
opaque failedPM : Nat → Nat → Byte
/-- `plen[k]` after a failed pass, before it is brought into 0..PLANE_CAP (R134): epoch, plane. -/
opaque failedPlen : Nat → Nat → Nat
/-- The tokens counted by a failed pass, before it is brought into the range of R134: epoch. -/
opaque failedTokens : Nat → Nat
/-- OUT_LEN after a failed pass (R134). -/
opaque failedOutLen : Nat → Word
/-- PLANE_LEN after a failed pass (R134). -/
opaque failedPlaneLen : Nat → Word
/-- HDR_BYTE after a failed pass (R134). -/
opaque failedHdrByte : Nat → Byte
/-- HDR_PRESENT after a failed pass (R134). -/
opaque failedHdrPresent : Nat → Bool
/-- HDR.REM after a failed pass (R134). -/
opaque failedHdrRem : Nat → BitVec 3
/-- PROGRESS.PERCENT after a failed pass, before it is brought into 0..100 (R134, R25). -/
opaque failedPercent : Nat → Nat
/-- PROGRESS.INTERMEDIATE after a failed pass (R134). -/
opaque failedIntermediate : Nat → Bool
/-- PROGRESS.PHASE after a failed pass, before it is brought into 0..4 (R134, R25). -/
opaque failedPhase : Nat → Nat

/-- An OB byte in the range of a pass that reset interrupted (R150): epoch, offset. -/
opaque abortedOB : Nat → Nat → Byte
/-- A busy-unspecified register read while BUSY = 1 (R12, R23 to R25, R32): epoch, register offset. -/
opaque busyRead : Nat → Nat → Word
/-- A host read of OB while BUSY = 1 (R55): epoch. -/
opaque busyOB : Nat → Byte
/-- Which of the values an IB byte held during a pass is the one read (R153): epoch, offset. -/
opaque raceIB : Nat → Nat → Nat
/-- How far the extent of IB lies above the least it had during a pass (R153): epoch. -/
opaque raceExtent : Nat → Nat
/-- Whether a host write to OB during a pass wins over the unit's write (R154): epoch, offset. -/
opaque raceOB : Nat → Nat → Bool

end Config
end Sys2Proof
end

