-- ==== Sys2Proof/Syntax.lean ====
section
/-! DEFINITION. The commands of the unit: one constructor per row of spec/opcode_table.json (R57). -/

namespace Sys2Proof

/-- The seven commands (R57). A command carries no immediate and no register specifier: its operands are
the registers its rule names (R56, R62). -/
inductive Instr where
  /-- INIT (R116). -/
  | init
  /-- SPLIT (R94). -/
  | split
  /-- UNSPLIT (R104). -/
  | unsplit
  /-- CLEAR (R120). -/
  | clear
  /-- CLEAR_AND_CLOSE (R123). -/
  | clearAndClose
  /-- RESEED (R79). -/
  | reseed
  /-- TRANSPOSE (R68). -/
  | transpose
  deriving DecidableEq, Repr

end Sys2Proof
end

