-- ==== Sys2Proof/WellFormed.lean ====
section
/-! DEFINITION. Which command words and register accesses are well formed (R48, R56, R58). -/

namespace Sys2Proof

/-- The reserved field CMD[31:8] is zero (R56). -/
def rsvClear (w : Word) : Bool := w.extractLsb' 8 24 == 0#24

/-- The field OP is one of 0x01..0x07 (R56). -/
def opDefined (w : Word) : Bool :=
  decide (1 ≤ (w.extractLsb' 0 8).toNat) && decide ((w.extractLsb' 0 8).toNat ≤ 7)

/-- A legal command word (R56, R58). -/
def wordWf (w : Word) : Bool := rsvClear w && opDefined w

/-- A command has no operand field (R56, R62), so every term of Instr is well formed. -/
def Instr.wf : Instr → Bool
  | .init | .split | .unsplit | .clear | .clearAndClose | .reseed | .transpose => true

/-- A register access the spec gives a meaning: 32 bits wide, at a multiple of 4 (R48). -/
def accessWf (width off : Nat) : Bool := decide (width = 32) && decide (off % 4 = 0)

/-- An offset inside the 4 KiB register space (R17). -/
def offsetInSpace (off : Nat) : Bool := decide (off < 0x1000)

end Sys2Proof
end

