-- ==== Sys2Proof/Decode.lean ====
section
/-! DEFINITION. The decoder of command words (R56 to R58), total on every word, and after it the encoder. -/

namespace Sys2Proof

/-- Why a word is no command (R58). -/
inductive DecodeError where
  /-- CMD[31:8] is not zero. -/
  | reservedBits
  /-- OP is 0x00 or 0x08..0xFF. -/
  | undefinedOpcode
  deriving DecidableEq, Repr

/-- The opcode map (R57). -/
def opOf (op : Byte) : Except DecodeError Instr :=
  match op.toNat with
  | 0x01 => .ok .init
  | 0x02 => .ok .split
  | 0x03 => .ok .unsplit
  | 0x04 => .ok .clear
  | 0x05 => .ok .clearAndClose
  | 0x06 => .ok .reseed
  | 0x07 => .ok .transpose
  | _ => .error .undefinedOpcode

/-- Decode at acceptance (R56): the reserved field first, then OP. -/
def decode (w : Word) : Except DecodeError Instr :=
  if w.extractLsb' 8 24 == 0#24 then opOf (w.extractLsb' 0 8) else .error .reservedBits

/-- The command of an opcode-table row's word (`nbits` of it given, the bits above zero). CMD is written as one
32-bit value, so there is no byte order to lay out (R46, R56). -/
def decodeTableWord (nbits w : Nat) : Option Instr :=
  if nbits ≤ 32 then
    match decode (BitVec.ofNat 32 (w % 2 ^ nbits)) with
    | .ok i => some i
    | .error _ => none
  else none

/-- The OP field of a command (R57). -/
def opcode : Instr → Byte
  | .init => 0x01#8
  | .split => 0x02#8
  | .unsplit => 0x03#8
  | .clear => 0x04#8
  | .clearAndClose => 0x05#8
  | .reseed => 0x06#8
  | .transpose => 0x07#8

/-- The command word: RSV = 0 above OP (R56). -/
def encode (i : Instr) : Word := 0#24 ++ opcode i

end Sys2Proof
end

