-- ==== Sys2Proof/Machine/State.lean ====
section
/-! DEFINITION. The state of the unit (10_state.md), its stops, and the state right after reset (R150). -/

namespace Sys2Proof.Machine

/-- STATUS.STATE (R16). -/
inductive Lifecycle where
  | uninit
  | ready
  | closed
  | failed
  deriving DecidableEq, Repr

/-- The error codes that may be produced (R131): 5 and 10..15 are reserved and never written, so they have no
constructor. -/
inductive ErrCode where
  | noError
  | notInitialized
  | insufficientPlaneCount
  | truncatedRead
  | wipeFailure
  | illegalCommand
  | invalidState
  | badToken
  | capacity
  deriving DecidableEq, Repr

/-- PROGRESS.PHASE (R25); 5..7 are never written. -/
inductive Phase where
  | idle
  | route
  | concat
  | demux
  | recon
  deriving DecidableEq, Repr

/-- The fields of CONFIG (R21). -/
structure Control where
  wipeRandom : Bool
  progEn : Bool
  ieDone : Bool
  ieErr : Bool
  deriving DecidableEq, Repr

/-- The fields of HDR (R24). -/
structure Header where
  byte : Byte
  present : Bool
  rem : BitVec 3
  deriving DecidableEq, Repr

/-- The fields of PROGRESS (R25), which are also what one progress report carries (R102). -/
structure Progress where
  percent : BitVec 7
  intermediate : Bool
  phase : Phase
  deriving DecidableEq, Repr

/-- What an unlisted byte of a memory reads as; `Fill.byte` (Machine/Ops.lean) gives the byte. -/
inductive Fill where
  /-- PM since the reset of this epoch: unspecified (R150). -/
  | afterReset (epoch : Nat)
  /-- OB as the host had it (R38). -/
  | ofHost
  /-- PM after a zero wipe (R84). -/
  | zero
  /-- PM after the random wipe number `w` with this seed (R85). -/
  | random (seed : Word) (w : Nat)
  deriving DecidableEq, Repr

/-- A byte-addressed memory: the cells written since its background was laid, addresses strictly rising. -/
structure Store where
  cells : List Host.Cell
  fill : Fill
  deriving DecidableEq, Repr

/-- One oracle answer that a state pins (log 3). -/
structure OracleAnswer where
  key1 : List Byte
  key2 : List Byte
  index : Nat
  word : BitVec 24
  deriving DecidableEq, Repr

/-- The pass sequencer between an acceptance and a completion that are observed apart (R36). -/
structure Seq where
  /-- The command word accepted. -/
  word : Word
  /-- IN_LEN as latched at acceptance (R22). -/
  inLen : Word
  /-- CONFIG as sampled at acceptance (R21). -/
  ctl : Control
  /-- MODEL's own: the platform never answers this command's requests, so it never completes (R73, R157). -/
  stalled : Bool
  /-- MODEL's own: what IB held earlier in this command, newest first (R153). -/
  ibOld : List (List Byte)
  /-- MODEL's own: the OB offsets the host wrote during this command (R154). -/
  obRaced : List Nat
  deriving DecidableEq, Repr

/-- What the host does to the unit (R161), one item per event, in the order the events arrive. -/
inductive Input where
  /-- A register write of `width` bits at an offset. Written to CMD while BUSY = 0 it runs the whole command as
  one step (R12). -/
  | write (width off : Nat) (value : Word)
  /-- A register read. -/
  | read (width off : Nat)
  /-- A CMD write whose command is still running at the next event (R157); `stalled` if the platform never
  answers it. -/
  | start (value : Word) (stalled : Bool)
  /-- The completion of the running command. -/
  | complete
  /-- The WAIT of R63. -/
  | wait
  /-- The host fills IB: its bytes, whose count is |IB| (R37, R63). -/
  | setIB (bytes : List Byte)
  /-- A host write of one OB byte (R38). -/
  | writeOB (addr : Nat) (value : Byte)
  /-- A host read of one OB byte (R38). -/
  | readOB (addr : Nat)
  /-- The reset event (R150). -/
  | reset
  deriving DecidableEq, Repr

/-- The state of the unit and of what it reaches. -/
structure State where
  /-- STATUS.STATE (R16). -/
  lifecycle : Lifecycle
  /-- STATUS.DONE (R20). -/
  done : Bool
  /-- STATUS.OVR (R20, R139). -/
  ovr : Bool
  /-- STATUS.ERRCODE (R128). -/
  err : ErrCode
  /-- The pass sequencer (R36); STATUS.BUSY is 1 exactly while it holds a command (R20). -/
  seq : Option Seq
  /-- CONFIG (R21). -/
  ctl : Control
  /-- IN_LEN (R22). -/
  inLen : Word
  /-- OUT_LEN (R23). -/
  outLen : Word
  /-- PLANE_LEN (R23). -/
  planeLen : Word
  /-- The schedule position (R28, R74). -/
  n : Nat
  /-- HDR (R24). -/
  hdr : Header
  /-- PROGRESS (R25). -/
  progress : Progress
  /-- WIPE_SEED (R29). -/
  wipeSeed : Word
  /-- PLANE_PROV[7:0] (R30). -/
  planeProv : BitVec 8
  /-- KEY1_LEN (R26). -/
  key1Len : Word
  /-- KEY2_LEN (R26). -/
  key2Len : Word
  /-- The KEY_MAX bytes of key buffer 1 (R27). -/
  key1 : List Byte
  /-- The KEY_MAX bytes of key buffer 2 (R27). -/
  key2 : List Byte
  /-- XDATA0 (R31). -/
  xdata0 : Word
  /-- XDATA1 (R31). -/
  xdata1 : Word
  /-- DBG_ADDR (R32). -/
  dbgAddr : Word
  /-- Plane memory (R33); the byte (k, o) has the key `pmKey k o`. -/
  pm : Store
  /-- plen[k] (R33). -/
  plen : Vector Nat 8
  /-- ppos[k] (R33). -/
  ppos : Vector Nat 8
  /-- BLK (R34). -/
  blk : Block
  /-- IPOS (R35). -/
  ipos : Nat
  /-- OPOS (R35). -/
  opos : Nat
  /-- w, the wipes since reset (R7, R85). -/
  wipes : Nat
  /-- IB, with |IB| its length (R37). -/
  ib : List Byte
  /-- OB (R38). -/
  ob : Store
  /-- The reports the PROG_EV pulses carried since reset, in order (R39, R102). -/
  progEv : List Progress
  /-- The REL pulses since reset (R39, R123). -/
  rel : Nat
  /-- MODEL's own: a pass began, and no wipe has completed since, so plane bytes of a pass may stand in PM. This is when
  the duty of R151 applies; reset does not end it (R160, log 28). -/
  residue : Bool
  /-- MODEL's own: what the last host register read returned. -/
  rdata : Word
  /-- MODEL's own: what the last host OB read returned. -/
  obData : Byte
  /-- MODEL's own: the parameters of R7, which no step changes (log 4). -/
  params : Params
  /-- MODEL's own: the oracle answers pinned here, which no step changes (log 3). -/
  oraclePins : List OracleAnswer
  /-- MODEL's own: the count the draws are taken at (log 7). -/
  epoch : Nat
  /-- MODEL's own: the host's events not yet handled, the next one first (log 1). -/
  inputs : List Input
  deriving DecidableEq, Repr

/-- What stops the machine with a fault: an access to an address that does not exist. No command raises one. -/
inductive Fault where
  /-- Raised by a host register access at or above offset 0x1000, outside the register space (R17, R41). Safe:
  the spec gives such an access no meaning. -/
  | outsideRegisterSpace (off : Nat)
  /-- Raised by a host access of OB at or above OUT_CAP (R38, R41). Safe: no such byte exists. -/
  | outsideOB (addr : Nat)
  deriving DecidableEq, Repr

/-- What the model gives no meaning. No command raises one. -/
inductive Refusal where
  /-- Raised by `exec` for a command that has no meaning yet. Safe. No arm uses it. -/
  | notModelled (mnemonic : String)
  /-- Raised by a register access that is not 32 bits wide or not aligned: "a model refuses it" (R48). Safe. -/
  | accessNotAligned32 (width off : Nat)
  /-- Raised by an observed completion when no command runs, or when the running one is stalled: no such event
  exists (R126, R157). Safe. -/
  | nothingCompletes
  deriving DecidableEq, Repr

/-- PROGRESS = 0. -/
def Progress.zero : Progress := ⟨0#7, false, .idle⟩

/-- HDR = 0. -/
def Header.zero : Header := ⟨0#8, false, 0#3⟩

/-- CONFIG = 0. -/
def Control.zero : Control := ⟨false, false, false, false⟩

/-- The values of R150 on a platform with these parameters. The host's and the model's own fields are as
logs 1 to 7 and 28 say. -/
def State.resetWith (p : Params) : State where
  lifecycle := .uninit
  done := false
  ovr := false
  err := .noError
  seq := none
  ctl := Control.zero
  inLen := 0#32
  outLen := 0#32
  planeLen := 0#32
  n := 0
  hdr := Header.zero
  progress := Progress.zero
  wipeSeed := 0#32
  planeProv := 0#8
  key1Len := 0#32
  key2Len := 0#32
  key1 := List.replicate p.keyMax 0#8
  key2 := List.replicate p.keyMax 0#8
  xdata0 := 0#32
  xdata1 := 0#32
  dbgAddr := 0#32
  pm := ⟨[], .afterReset 0⟩
  plen := Vector.replicate 8 0
  ppos := Vector.replicate 8 0
  blk := Vector.replicate 8 0#8
  ipos := 0
  opos := 0
  wipes := 0
  ib := []
  ob := ⟨[], .ofHost⟩
  progEv := []
  rel := 0
  residue := false
  rdata := 0#32
  obData := 0#8
  params := p
  oraclePins := []
  epoch := 0
  inputs := []

/-- The machine right after reset (R150), on the platform of Config. -/
def State.reset : State := State.resetWith Config.params

end Sys2Proof.Machine
end

