-- ==== Sys2Proof/Machine/Operands.lean ====
section
/-! DEFINITION. The operands of the commands (R62): the latched registers, the sizes of a pass, the alignment
header, the permutation token, the TRANSPOSE block, and the register map. -/

namespace Sys2Proof.Machine

/-! ### Byte order (R47) -/

/-- Byte `m` of a 32-bit word, little-endian (R47): bits `[8m+7:8m]`. -/
def wordByte (w : Word) (m : Nat) : Byte := w.extractLsb' (8 * m) 8

/-- The 32-bit word whose bytes 0..3 are the arguments, little-endian (R47). -/
def packWord (b0 b1 b2 b3 : Byte) : Word := b3 ++ b2 ++ b1 ++ b0

/-! ### Registers of the map (R17) -/

/-- The registers of R17; every other offset is reserved. -/
inductive Reg where
  | cmd | status | config | inLen | outLen | planeLen | schedCnt | hdr | progress | wipeSeed | planeProv
  | key1Len | key2Len | xdata0 | xdata1 | dbgAddr | dbgData
  | key1 (i : Nat) | key2 (i : Nat)
  | reserved
  deriving DecidableEq, Repr

/-- The register at an offset of the register space (R17). -/
def regAt (off : Nat) : Reg :=
  match off with
  | 0x000 => .cmd
  | 0x004 => .status
  | 0x008 => .config
  | 0x00C => .inLen
  | 0x010 => .outLen
  | 0x014 => .planeLen
  | 0x018 => .schedCnt
  | 0x01C => .hdr
  | 0x020 => .progress
  | 0x024 => .wipeSeed
  | 0x028 => .planeProv
  | 0x02C => .key1Len
  | 0x030 => .key2Len
  | 0x034 => .xdata0
  | 0x038 => .xdata1
  | 0x03C => .dbgAddr
  | 0x040 => .dbgData
  | _ =>
    if 0x100 ≤ off ∧ off < 0x200 then .key1 ((off - 0x100) / 4)
    else if 0x200 ≤ off ∧ off < 0x300 then .key2 ((off - 0x200) / 4)
    else .reserved

/-- The offset of a register of the map (R17); a reserved offset has none. -/
def Reg.offset : Reg → Option Nat
  | .cmd => some 0x000
  | .status => some 0x004
  | .config => some 0x008
  | .inLen => some 0x00C
  | .outLen => some 0x010
  | .planeLen => some 0x014
  | .schedCnt => some 0x018
  | .hdr => some 0x01C
  | .progress => some 0x020
  | .wipeSeed => some 0x024
  | .planeProv => some 0x028
  | .key1Len => some 0x02C
  | .key2Len => some 0x030
  | .xdata0 => some 0x034
  | .xdata1 => some 0x038
  | .dbgAddr => some 0x03C
  | .dbgData => some 0x040
  | .key1 i => some (0x100 + 4 * i)
  | .key2 i => some (0x200 + 4 * i)
  | .reserved => none

/-- The PM key of byte `o` of plane `k`: the packing of DBG_ADDR (R32). -/
def pmKey (k o : Nat) : Nat := k * 2 ^ 29 + o

/-! ### What is latched at acceptance (R21, R22, R36) -/

/-- The sequencer of the command in hand: the one that is running, or a fresh one that latches the registers
as they stand. -/
def State.latch (w : Word) (s : State) : Seq :=
  match s.seq with
  | some q => q
  | none => ⟨w, s.inLen, s.ctl, false, [], []⟩

/-- STATUS.BUSY (R20). -/
def State.busy (s : State) : Bool := s.seq.isSome

/-! ### Sizes of a pass (R93, R103, R105) -/

/-- The derived counts of a pass (R36). -/
structure PassSize where
  /-- The remainder. -/
  rem : Nat
  /-- H: 1 if there is a header byte. -/
  header : Nat
  /-- The pass's plane length: `nblk` or `bss`. -/
  planes : Nat
  /-- The OB bytes of the pass had it succeeded: `need` or `nrec`. -/
  out : Nat
  /-- The most tokens the pass can consume (R134, log 8). -/
  tokens : Nat
  deriving DecidableEq, Repr

/-- Sizes of a SPLIT of `L` bytes, exact (R93, R8). -/
def splitSize (L : Nat) : PassSize :=
  let rem := L % 8
  let header := if rem ≠ 0 then 1 else 0
  let nblk := L / 8 + header
  ⟨rem, header, nblk, header + 8 * nblk, nblk⟩

/-- H of an UNSPLIT of `T` bytes: by the length alone (R105). -/
def unsplitHeader (T : Nat) : Nat := if T % 8 ≠ 0 then 1 else 0

/-- Sizes of an UNSPLIT of `T` bytes whose header decodes to `rem` (R103, R105). -/
def unsplitSize (T rem : Nat) : PassSize :=
  let header := unsplitHeader T
  let bss := (T - header) / 8
  let nrec := if bss = 0 then 0 else if rem ≠ 0 then rem + 8 * (bss - 1) else 8 * bss
  ⟨rem, header, bss, nrec, if rem ≠ 0 then max bss 1 else bss⟩

/-- The capacity check fails (R93, R103). -/
def PassSize.tooBig (z : PassSize) (p : Params) : Bool := decide (p.planeCap < z.planes) || decide (p.outCap < z.out)

/-! ### The alignment header (R60) -/

/-- The header byte SPLIT emits: `((noise << 3) & 0xF8) | rem` (R95). -/
def headerByte (noise : Byte) (rem : Nat) : Byte := ((noise <<< 3) &&& 0xF8#8) ||| BitVec.ofNat 8 rem

/-- The remainder a header byte decodes to: `h & 0x07` (R60). -/
def headerRem (h : Byte) : Nat := (h &&& 0x07#8).toNat

/-- HDR after a successful pass: `(H = 1) ? (h | 1 << 8 | rem << 16) : 0` (R94, R104). -/
def passHdr (z : PassSize) (h : Byte) : Header :=
  if z.header = 1 then ⟨h, true, BitVec.ofNat 3 z.rem⟩ else Header.zero

/-- `draw_noise()`: a draw in 0..NOISE_MAX (R95). -/
def State.drawNoise (s : State) : Byte := BitVec.ofNat 8 (Config.noiseDraw s.epoch % (s.params.noiseMax + 1))

/-- `draw_filler()`, one for each slot (R96). -/
def State.drawFiller (s : State) (slot : Nat) : Byte := Config.fillerDraw s.epoch slot

/-! ### The permutation token (R59, R72, R75) -/

/-- `token[0..7]`: entry `j` is the plane of transposed byte `j`. -/
abbrev Token := Vector (Fin 8) 8

/-- `token[j] = W[3j+2:3j]` (R59). -/
def tokenOf (w : BitVec 24) : Token := Vector.ofFn fun j => (w.extractLsb' (3 * j.val) 3).toFin

/-- A token word is valid when its 8 entries are distinct (R59). -/
def tokenValid (t : Token) : Bool := decide t.toList.Nodup

/-- Key 1: bytes 0..KEY1_LEN-1 of its buffer (R26). -/
def State.keyBytes1 (s : State) : List Byte := s.key1.take s.key1Len.toNat

/-- Key 2: bytes 0..KEY2_LEN-1 of its buffer (R26). -/
def State.keyBytes2 (s : State) : List Byte := s.key2.take s.key2Len.toNat

/-- The oracle port's answer (R72): what the state pins, else the platform's opaque oracle (log 3). -/
def oracleAnswer (pins : List OracleAnswer) (key1 key2 : List Byte) (n : Nat) : BitVec 24 :=
  match pins.find? (fun a => decide (a.key1 = key1 ∧ a.key2 = key2 ∧ a.index = n)) with
  | some a => a.word
  | none => Config.oracle key1 key2 n

/-- `Oracle(KEY1[0..KEY1_LEN-1], KEY2[0..KEY2_LEN-1], n)` (R75). -/
def State.oracleWord (s : State) (n : Nat) : BitVec 24 := oracleAnswer s.oraclePins s.keyBytes1 s.keyBytes2 n

/-! ### The TRANSPOSE block (R31) and the transpose (R65) -/

/-- `X[0..7]` from XDATA0 and XDATA1, little-endian. -/
def xBlock (x0 x1 : Word) : Block :=
  Vector.ofFn fun j => if j.val < 4 then wordByte x0 j.val else wordByte x1 (j.val - 4)

/-- XDATA0 from `X[0..3]` (R68). -/
def xWord0 (b : Block) : Word := packWord b[0] b[1] b[2] b[3]

/-- XDATA1 from `X[4..7]` (R68). -/
def xWord1 (b : Block) : Word := packWord b[4] b[5] b[6] b[7]

/-- One output byte of the transpose: `out[i] |= ((in[j] >> i) & 1) << j` for j in 0..7, from zero (R65). -/
def transposeLane (b : Block) (i : Nat) : Byte :=
  (List.finRange 8).foldl (fun acc j => acc ||| (((b.get j >>> i) &&& 1#8) <<< j.val)) 0#8

/-- `Transpose(in[0..7]) -> out[0..7]` (R65, R69). -/
def transpose (b : Block) : Block := Vector.ofFn fun i => transposeLane b i.val

end Sys2Proof.Machine
end

