-- ==== Sys2Proof/Machine/Flags.lean ====
section
/-! DEFINITION. The flags and the words of the registers that hold fields (R20, R21, R24, R25, R40), and IRQ
(R140). -/

namespace Sys2Proof.Machine

/-- STATUS.STATE's encoding (R16). -/
def Lifecycle.code : Lifecycle → BitVec 2
  | .uninit => 0#2
  | .ready => 1#2
  | .closed => 2#2
  | .failed => 3#2

/-- STATUS.ERRCODE's encoding (R131). -/
def ErrCode.code : ErrCode → BitVec 4
  | .noError => 0#4
  | .notInitialized => 1#4
  | .insufficientPlaneCount => 2#4
  | .truncatedRead => 3#4
  | .wipeFailure => 4#4
  | .illegalCommand => 6#4
  | .invalidState => 7#4
  | .badToken => 8#4
  | .capacity => 9#4

/-- PROGRESS.PHASE's encoding (R25). -/
def Phase.code : Phase → BitVec 3
  | .idle => 0#3
  | .route => 1#3
  | .concat => 2#3
  | .demux => 3#3
  | .recon => 4#3

/-- The phase of a number 0..4 (R25); any other number stands for RECON. -/
def phaseOf : Nat → Phase
  | 0 => .idle
  | 1 => .route
  | 2 => .concat
  | 3 => .demux
  | _ => .recon

/-- STATUS as the host reads it (R20). -/
def State.statusWord (s : State) : Word :=
  0#20 ++ s.err.code ++ 0#3 ++ BitVec.ofBool s.ovr ++ BitVec.ofBool s.done ++ BitVec.ofBool s.busy ++ s.lifecycle.code

/-- CONFIG as the host reads it (R21). -/
def Control.word (c : Control) : Word :=
  0#28 ++ BitVec.ofBool c.ieErr ++ BitVec.ofBool c.ieDone ++ BitVec.ofBool c.progEn ++ BitVec.ofBool c.wipeRandom

/-- CONFIG as the host writes it (R21): bits 31:4 are ignored (R18). -/
def Control.ofWord (w : Word) : Control := ⟨w.getLsbD 0, w.getLsbD 1, w.getLsbD 2, w.getLsbD 3⟩

/-- HDR as the host reads it (R24). -/
def Header.word (h : Header) : Word := 0#13 ++ h.rem ++ 0#7 ++ BitVec.ofBool h.present ++ h.byte

/-- PROGRESS as the host reads it (R25), `p | i << 7 | phase << 8` (R102). -/
def Progress.word (p : Progress) : Word := 0#21 ++ p.phase.code ++ BitVec.ofBool p.intermediate ++ p.percent

/-- SCHED_CNT: `n mod 2^32` (R23, R28). -/
def State.schedCnt (s : State) : Word := BitVec.ofNat 32 s.n

/-- IRQ, a function of the state (R140). -/
def State.irq (s : State) : Bool :=
  (s.done && (s.ctl.ieDone || (s.ctl.ieErr && s.err != .noError))) || (s.ovr && s.ctl.ieErr)

end Sys2Proof.Machine
end

