-- ==== Sys2Proof/Machine/Ops.lean ====
section
/-! DEFINITION. The shared operations: the memories (R41 to R44), acceptance, completion and the two kinds of
error (R19, R126, R133, R134), acknowledgement (R138), NextToken (R75), progress reports (R102), and the steps
the two passes share (R98, R100, R106). -/

namespace Sys2Proof.Machine

/-! ### Memories -/

/-- What a byte that no cell lists reads as. A draw, except after a zero wipe (logs 5, 6, 18). -/
def Fill.byte (f : Fill) (a : Nat) : Byte :=
  match f with
  | .afterReset e => Config.pmAfterReset e a
  | .ofHost => Config.obOfHost a
  | .zero => 0#8
  | .random seed w => Config.wipefill seed (a / 2 ^ 29) (a % 2 ^ 29) w

/-- The one value every unlisted byte is known to hold, where there is one. -/
def Fill.fixed (f : Fill) : Option Byte :=
  match f with
  | .zero => some 0#8
  | .afterReset _ | .ofHost | .random _ _ => none

/-- The byte listed at an address. -/
def cellAt : List Host.Cell → Nat → Option Byte
  | [], _ => none
  | c :: cs, a => if c.1 = a then some c.2 else cellAt cs a

/-- List a byte at an address, keeping the addresses strictly rising. -/
def cellPut : List Host.Cell → Nat → Byte → List Host.Cell
  | [], a, v => [(a, v)]
  | c :: cs, a, v =>
    if a < c.1 then (a, v) :: c :: cs
    else if a = c.1 then (a, v) :: cs
    else c :: cellPut cs a v

/-- List nothing at an address. -/
def cellErase (cs : List Host.Cell) (a : Nat) : List Host.Cell := cs.filter fun c => c.1 != a

/-- `MemRead`: one byte. -/
def Store.read (m : Store) (a : Nat) : Byte := (cellAt m.cells a).getD (m.fill.byte a)

/-- `MemWrite`: one byte. Writing what an unlisted byte is known to hold unlists it. -/
def Store.write (m : Store) (a : Nat) (v : Byte) : Store :=
  if m.fill.fixed = some v then { m with cells := cellErase m.cells a }
  else { m with cells := cellPut m.cells a v }

/-- `MemWrite` of several bytes, in order. -/
def Store.writeAll (m : Store) (cs : List Host.Cell) : Store := cs.foldl (fun m c => m.write c.1 c.2) m

/-- The canonical form: addresses strictly rising, and no cell equal to what an unlisted byte is known to be. -/
abbrev Store.wf (m : Store) : Prop :=
  m.cells.Pairwise (fun c d => c.1 < d.1) ∧ ∀ c ∈ m.cells, m.fill.fixed ≠ some c.2

/-- `Wipe` of every byte of plane memory (R83, R87): zeros, or the seeded fill of wipe number `w` (R84, R85). -/
def wiped (random : Bool) (seed : Word) (w : Nat) : Store := ⟨[], if random then .random seed w else .zero⟩

/-- `MemRead(PM[k], o, 1)` (R44). -/
def State.readPM (s : State) (k o : Nat) : Byte := s.pm.read (pmKey k o)

/-- `MemWrite(PM[k], o, 1, v)` (R44). -/
def State.writePM (k o : Nat) (v : Byte) (s : State) : State := { s with pm := s.pm.write (pmKey k o) v }

/-- `MemWrite(OB, OPOS, 1, v); OPOS <- OPOS + 1` (R43). -/
def State.emitOB (v : Byte) (s : State) : State := { s with ob := s.ob.write s.opos v, opos := s.opos + 1 }

/-- The bytes IB can deliver to the command of sequencer `q`. If the host changed IB while the command ran, the
extent is a draw between the least and the greatest it had, and each byte a draw among the values it held (R153). -/
def State.deliveredIB (q : Seq) (s : State) : List Byte :=
  match q.ibOld with
  | [] => s.ib
  | old =>
    let versions := s.ib :: old
    let least := versions.foldl (fun m v => min m v.length) s.ib.length
    let most := versions.foldl (fun m v => max m v.length) s.ib.length
    let extent := least + Config.raceExtent s.epoch % (most - least + 1)
    (List.range extent).map fun a =>
      let held := versions.filterMap fun v => v[a]?
      held.getD (Config.raceIB s.epoch a % held.length) 0#8

/-! ### Acceptance, completion and errors -/

/-- Acceptance of a command (R19): DONE and ERRCODE to 0, BUSY to 1. -/
def State.accept (w : Word) (s : State) : State :=
  { s with done := false, err := .noError, seq := some (s.latch w) }

/-- Completion, the unit's "trap entry" (R126): ERRCODE, STATE, BUSY <- 0, DONE <- 1. -/
def State.complete (code : ErrCode) (st : Lifecycle) (s : State) : State :=
  { s with err := code, lifecycle := st, seq := none, done := true }

/-- An error that changes nothing but STATUS (R133). -/
def State.checkError (code : ErrCode) (s : State) : State := s.complete code s.lifecycle

/-- Acknowledgement, the unit's "trap return" (R138): a host write of STATUS clears DONE and OVR where it has a 1
(R18, R20). -/
def State.acknowledge (v : Word) (s : State) : State :=
  { s with done := s.done && !v.getLsbD 3, ovr := s.ovr && !v.getLsbD 4 }

/-- What a failed pass leaves (R134), `events` being the progress pulses it gave: STATE = FAILED, BLK and the
positions 0, and draws wherever the rule says unspecified. The host's bytes and the registers R134 lists as
unchanged are unchanged. -/
def State.passError (code : ErrCode) (z : PassSize) (events : List Progress) (s : State) : State :=
  State.complete code .failed
    { s with
      blk := Vector.replicate 8 0#8
      ipos := 0
      opos := 0
      ppos := Vector.replicate 8 0
      ob := s.ob.writeAll ((List.range (min z.out s.params.outCap)).map fun a => (a, Config.failedOB s.epoch a))
      pm := s.pm.writeAll ((List.range 8).flatMap fun k =>
        (List.range (min z.planes s.params.planeCap)).map fun o => (pmKey k o, Config.failedPM s.epoch (pmKey k o)))
      plen := Vector.ofFn fun k => Config.failedPlen s.epoch k.val % (s.params.planeCap + 1)
      n := s.n + Config.failedTokens s.epoch % (z.tokens + 1)
      outLen := Config.failedOutLen s.epoch
      planeLen := Config.failedPlaneLen s.epoch
      hdr := ⟨Config.failedHdrByte s.epoch, Config.failedHdrPresent s.epoch, Config.failedHdrRem s.epoch⟩
      progress := ⟨BitVec.ofNat 7 (Config.failedPercent s.epoch % 101), Config.failedIntermediate s.epoch,
        phaseOf (Config.failedPhase s.epoch % 5)⟩
      progEv := events
      residue := true
      epoch := s.epoch + 1 }

/-! ### Passes -/

/-- An error raised inside a pass, with the progress pulses given up to it. Nothing else of the pass is kept
(R134). -/
structure Raise where
  code : ErrCode
  events : List Progress
  deriving DecidableEq, Repr

/-- A part of a pass: it goes on, or raises. -/
abbrev Run (α : Type) := Except Raise α

/-- `raise E` (R11). -/
def State.raise {α : Type} (code : ErrCode) (s : State) : Run α := .error ⟨code, s.progEv⟩

/-- The state check of SPLIT, UNSPLIT and RESEED (R92, R103, R79): the error of a state that is not READY. -/
def Lifecycle.notReady (st : Lifecycle) : Option ErrCode :=
  match st with
  | .uninit => some .notInitialized
  | .ready => none
  | .closed | .failed => some .invalidState

/-- `emit(phase, p, i)` (R102): PROGRESS is written and PROG_EV pulses. -/
def State.emit (r : Progress) (s : State) : State := { s with progress := r, progEv := s.progEv ++ [r] }

/-- `Report(pe, phase, c, U)` (R102). -/
def State.report (pe : Bool) (phase : Phase) (c U : Nat) (s : State) : State :=
  if pe then
    if U = 0 then s.emit ⟨100#7, false, phase⟩
    else if c = U ∨ 100 * c / U ≠ 100 * (c - 1) / U then
      s.emit ⟨BitVec.ofNat 7 (100 * c / U), decide (c < U), phase⟩
    else s
  else s

/-- `NextToken()` (R75): the check of R76, then n advances. -/
def State.nextToken (s : State) : Run (Token × State) :=
  let tok := tokenOf (s.oracleWord s.n)
  if tokenValid tok then .ok (tok, { s with n := s.n + 1 }) else s.raise .badToken

/-- The start of a pass (R100): plane lengths and positions 0, plane bytes kept; IPOS at `i`, OPOS at 0. -/
def State.startPass (i : Nat) (s : State) : State :=
  { s with plen := Vector.replicate 8 0, ppos := Vector.replicate 8 0, ipos := i, opos := 0 }

/-- `EndOfPass()` (R100, R109): BLK wiped, every position back to 0. -/
def State.endOfPass (s : State) : State :=
  { s with blk := Vector.replicate 8 0#8, ipos := 0, opos := 0, ppos := Vector.replicate 8 0 }

/-- The OB bytes that the host wrote while the pass ran and the pass wrote too: either value is left (R154). -/
def settleOB (q : Seq) (epoch out : Nat) (before after : Store) : Store :=
  q.obRaced.foldl (fun m a => if a < out ∧ Config.raceOB epoch a = true then m.write a (before.read a) else m) after

/-- The end of a pass begun in `s` with sequencer `q`: success (R100, R109) or a pass error (R134). Either way plane
bytes of the pass may stand in PM (R91, R151). -/
def State.finishPass (q : Seq) (z : PassSize) (r : Run State) (s : State) : State :=
  match r with
  | .ok t =>
    State.complete .noError .ready
      { t with ob := settleOB q s.epoch z.out s.ob t.ob, residue := true, epoch := s.epoch + 1 }
  | .error e => s.passError e.code z e.events

end Sys2Proof.Machine
end

