-- ==== Sys2Proof/Machine/Lifecycle.lean ====
section
/-! DEFINITION. The lifecycle commands INIT, CLEAR and CLEAR_AND_CLOSE (45_lifecycle.md). -/

namespace Sys2Proof.Machine

/-- What a successful INIT prepares (R116): the planes' lengths and positions, the schedule, the results. The
bytes of plane memory are kept. -/
def State.prepare (s : State) : State :=
  { s with
    plen := Vector.replicate 8 0
    ppos := Vector.replicate 8 0
    n := 0
    outLen := 0#32
    planeLen := 0#32
    hdr := Header.zero
    progress := Progress.zero }

/-- INIT (R116): UNINIT with all 8 planes provisioned goes to READY. -/
def execInit (s : State) : Host.Outcome State Fault Refusal :=
  let a := s.accept (encode .init)
  if a.lifecycle ≠ .uninit then .next (a.checkError .invalidState)
  else if a.planeProv ≠ 0xFF#8 then .next (a.checkError .insufficientPlaneCount)
  else .next (a.prepare.complete .noError .ready)

/-- `ClearCore()` once the storage is known to be present (R117, R87, R121): every plane is wiped over its full
extent in the mode latched in `q`, and the keys, the schedule, the results and XDATA are zeroed. No plane byte of a
pass is left (R151). -/
def State.clearCore (q : Seq) (s : State) : State :=
  { s with
    pm := wiped q.ctl.wipeRandom s.wipeSeed s.wipes
    wipes := s.wipes + 1
    blk := Vector.replicate 8 0#8
    key1 := List.replicate s.params.keyMax 0#8
    key2 := List.replicate s.params.keyMax 0#8
    key1Len := 0#32
    key2Len := 0#32
    n := 0
    plen := Vector.replicate 8 0
    ppos := Vector.replicate 8 0
    outLen := 0#32
    planeLen := 0#32
    hdr := Header.zero
    progress := Progress.zero
    xdata0 := 0#32
    xdata1 := 0#32
    residue := false }

/-- The checks of CLEAR and CLEAR_AND_CLOSE, in order: the state (R118), then the storage's presence before any
byte is wiped (R89, R117). -/
def State.clearRefusal (s : State) : Option ErrCode :=
  if s.lifecycle = .uninit then some .notInitialized
  else if s.planeProv ≠ 0xFF#8 then some .wipeFailure
  else none

/-- CLEAR (R120). -/
def execClear (s : State) : Host.Outcome State Fault Refusal :=
  let a := s.accept (encode .clear)
  match a.clearRefusal with
  | some e => .next (a.checkError e)
  | none => .next ((a.clearCore (s.latch (encode .clear))).complete .noError .closed)

/-- The release of plane storage (R122, R123): PLANE_PROV <- 0, and REL pulses. -/
def State.release (s : State) : State := { s with planeProv := 0#8, rel := s.rel + 1 }

/-- CLEAR_AND_CLOSE (R123): CLEAR, then the release. -/
def execClearAndClose (s : State) : Host.Outcome State Fault Refusal :=
  let a := s.accept (encode .clearAndClose)
  match a.clearRefusal with
  | some e => .next (a.checkError e)
  | none => .next ((a.clearCore (s.latch (encode .clearAndClose))).release.complete .noError .closed)

end Sys2Proof.Machine
end

