-- ==== Sys2Proof/Machine/Schedule.lean ====
section
/-! DEFINITION. The RESEED command (41_schedule.md). -/

namespace Sys2Proof.Machine

/-- RESEED (R79): n <- 0 in READY; NOT_INITIALIZED in UNINIT, INVALID_STATE in CLOSED and FAILED. -/
def execReseed (s : State) : Host.Outcome State Fault Refusal :=
  let a := s.accept (encode .reseed)
  match a.lifecycle.notReady with
  | some e => .next (a.checkError e)
  | none => .next (State.complete .noError .ready { a with n := 0 })

end Sys2Proof.Machine
end

