-- ==== Sys2Proof/Machine/Transpose.lean ====
section
/-! DEFINITION. The TRANSPOSE command (40_transpose.md). -/

namespace Sys2Proof.Machine

/-- XDATA0 and XDATA1 become the transpose of the block they hold; all of X is read before Y is written (R68). -/
def State.transposeX (s : State) : State :=
  let y := transpose (xBlock s.xdata0 s.xdata1)
  { s with xdata0 := xWord0 y, xdata1 := xWord1 y }

/-- TRANSPOSE (R68): accepted in every lifecycle state, no failure modes. -/
def execTranspose (s : State) : Host.Outcome State Fault Refusal :=
  let a := s.accept (encode .transpose)
  .next (a.transposeX.complete .noError a.lifecycle)

end Sys2Proof.Machine
end

