-- ==== Sys2Proof/Machine/Split.lean ====
section
/-! DEFINITION. The SPLIT command (43_split.md). The pass is written over the delivered input bytes, the noise
and the filler as arguments; `execSplit` supplies them. -/

namespace Sys2Proof.Machine

/-- `BLK[s] <- MemRead(IB, IPOS + s, 1)` for the first `count` slots, filler in the others, then IPOS moves on
(R96, R97). The block's reads come before its token (R137). -/
def State.assemble (ib : List Byte) (filler : Nat → Byte) (count : Nat) (s : State) : Run State :=
  if s.ipos + count ≤ ib.length then
    .ok { s with
      blk := Vector.ofFn fun slot => if slot.val < count then ib.getD (s.ipos + slot.val) 0#8 else filler slot.val
      ipos := s.ipos + count }
  else s.raise .truncatedRead

/-- Append a byte to plane `k` (R77). -/
def State.appendPlane (k : Fin 8) (v : Byte) (s : State) : State :=
  { s.writePM k.val (s.plen.get k) v with plen := s.plen.set k.val (s.plen.get k + 1) }

/-- Multiplexing: transposed byte `j` goes to plane `token[j]`, j = 0..7 in order (R77). -/
def State.route (tok : Token) (t : Block) (s : State) : State :=
  (List.finRange 8).foldl (fun s j => s.appendPlane (tok.get j) (t.get j)) s

/-- `EmitBlock()` (R98): transpose, one token, route. -/
def State.emitBlock (s : State) : Run State :=
  match s.nextToken with
  | .ok (tok, s') => .ok (s'.route tok (transpose s.blk))
  | .error e => .error e

/-- Step 1 of SPLIT (R94 to R96): the header byte and the remainder block, when there is a remainder. -/
def State.splitRemainder (pe : Bool) (z : PassSize) (ib : List Byte) (h : Byte) (filler : Nat → Byte) (s : State) :
    Run State :=
  if z.rem = 0 then .ok s
  else do
    let s ← (s.emitOB h).assemble ib filler z.rem
    let s ← s.emitBlock
    .ok (s.report pe .route 1 z.planes)

/-- One full block of step 2, number `b` among the full blocks (R97, R98). -/
def State.splitBlock (pe : Bool) (z : PassSize) (ib : List Byte) (s : State) (b : Nat) : Run State := do
  let s ← s.assemble ib (fun _ => 0#8) 8
  let s ← s.emitBlock
  .ok (s.report pe .route (z.header + b + 1) z.planes)

/-- Step 3 for one plane: its bytes to OB, then the report (R99, R102). -/
def State.concatPlane (pe : Bool) (z : PassSize) (s : State) (k : Fin 8) : State :=
  ((List.range z.planes).foldl (fun s o => s.emitOB (s.readPM k.val o)) s).report pe .concat (k.val + 1) 8

/-- The result registers of a successful pass (R94, R104, R23, R24). -/
def State.passResults (z : PassSize) (h : Byte) (s : State) : State :=
  { s with outLen := BitVec.ofNat 32 s.opos, planeLen := BitVec.ofNat 32 z.planes, hdr := passHdr z h }

/-- Step 3 (R94, R99): the one report of an empty pass, then the 8 planes onto OB in plane order. -/
def State.concatenate (pe : Bool) (z : PassSize) (s : State) : State :=
  (List.finRange 8).foldl (State.concatPlane pe z) (if z.planes = 0 then s.report pe .route 0 0 else s)

/-- SPLIT after its state check (R94): the capacity check, then the steps 1 to 4. -/
def State.splitPass (pe : Bool) (z : PassSize) (ib : List Byte) (noise : Byte) (filler : Nat → Byte) (s : State) :
    Run State :=
  if z.tooBig s.params then s.raise .capacity
  else do
    let s ← State.splitRemainder pe z ib (headerByte noise z.rem) filler (s.startPass 0)
    let s ← (List.range (z.planes - z.header)).foldlM (State.splitBlock pe z ib) s
    .ok ((s.concatenate pe z).passResults z (headerByte noise z.rem)).endOfPass

/-- SPLIT (R94): the state check of R92, then the pass over what IB delivers, with the noise and filler drawn. -/
def execSplit (s : State) : Host.Outcome State Fault Refusal :=
  let q := s.latch (encode .split)
  let a := s.accept (encode .split)
  match a.lifecycle.notReady with
  | some e => .next (a.checkError e)
  | none =>
    let z := splitSize q.inLen.toNat
    .next (a.finishPass q z (a.splitPass q.ctl.progEn z (a.deliveredIB q) a.drawNoise a.drawFiller))

end Sys2Proof.Machine
end

