-- ==== Sys2Proof/Machine/Unsplit.lean ====
section
/-! DEFINITION. The UNSPLIT command (44_unsplit.md). -/

namespace Sys2Proof.Machine

/-- `MemWrite(PM[k], o, 1, MemRead(IB, IPOS, 1)); IPOS <- IPOS + 1` (R106). -/
def State.demuxByte (ib : List Byte) (k : Fin 8) (s : State) (o : Nat) : Run State :=
  match ib[s.ipos]? with
  | some v => .ok { s.writePM k.val o v with ipos := s.ipos + 1 }
  | none => s.raise .truncatedRead

/-- Step 2 for one plane: `bss` bytes of IB to plane `k`, its length, the report (R104, R106). -/
def State.demuxPlane (pe : Bool) (z : PassSize) (ib : List Byte) (s : State) (k : Fin 8) : Run State := do
  let s ← (List.range z.planes).foldlM (State.demuxByte ib k) s
  .ok (State.report pe .demux (k.val + 1) 8 { s with plen := s.plen.set k.val z.planes })

/-- One byte of `Gather(tok)`: gathered byte `j` from plane `tok[j]` at its position (R78, R104). -/
def State.gatherByte (tok : Token) (s : State) (j : Fin 8) : Run State :=
  let k := tok.get j
  if s.plen.get k ≤ s.ppos.get k then s.raise .truncatedRead
  else .ok { s with
    blk := s.blk.set j.val (s.readPM k.val (s.ppos.get k))
    ppos := s.ppos.set k.val (s.ppos.get k + 1) }

/-- One recovered block (R107, R108): a token, the gather, the transpose, its first `count` bytes to OB, the
report that `c` blocks are done. -/
def State.recoverBlock (pe : Bool) (z : PassSize) (count c : Nat) (s : State) : Run State := do
  let (tok, s) ← s.nextToken
  let s ← (List.finRange 8).foldlM (State.gatherByte tok) s
  .ok (State.report pe .recon c z.planes (((transpose s.blk).toList.take count).foldl (fun s v => s.emitOB v) s))

/-- Step 3 (R107): the remainder block, when the header decodes to a remainder. -/
def State.recoverRemainder (pe : Bool) (z : PassSize) (s : State) : Run State :=
  if z.rem = 0 then .ok s else s.recoverBlock pe z z.rem 1

/-- Step 4 (R108): the blocks `first .. bss-1`, all 8 bytes of each. -/
def State.recoverBlocks (pe : Bool) (z : PassSize) (s : State) : Run State :=
  let first := if z.rem = 0 then 0 else 1
  (List.range (z.planes - first)).foldlM (fun s b => s.recoverBlock pe z 8 (first + b + 1)) s

/-- The header byte of an UNSPLIT of `T` bytes: IB byte 0 when `T mod 8 != 0`, else 0 (R104, R105). None when IB
cannot deliver it. -/
def unsplitHeaderByte (T : Nat) (ib : List Byte) : Option Byte :=
  if unsplitHeader T = 1 then ib[0]? else some 0#8

/-- The one report of an UNSPLIT without blocks (R104, R110). -/
def State.reportNoBlocks (pe : Bool) (z : PassSize) (s : State) : State :=
  if z.planes = 0 ∧ z.rem = 0 then s.report pe .recon 0 0 else s

/-- UNSPLIT after its header has been read (R104): the capacity check, then the steps 2 to 5. -/
def State.unsplitPass (pe : Bool) (z : PassSize) (ib : List Byte) (h : Byte) (s : State) : Run State :=
  if z.tooBig s.params then s.raise .capacity
  else do
    let s ← (List.finRange 8).foldlM (State.demuxPlane pe z ib) (s.startPass z.header)
    let s ← s.recoverRemainder pe z
    let s ← s.recoverBlocks pe z
    .ok ((s.reportNoBlocks pe z).passResults z h).endOfPass

/-- UNSPLIT (R104): the state check of R103, the header's read, then the pass. -/
def execUnsplit (s : State) : Host.Outcome State Fault Refusal :=
  let q := s.latch (encode .unsplit)
  let a := s.accept (encode .unsplit)
  match a.lifecycle.notReady with
  | some e => .next (a.checkError e)
  | none =>
    let T := q.inLen.toNat
    let ib := a.deliveredIB q
    match unsplitHeaderByte T ib with
    | none => .next (a.finishPass q (unsplitSize T 0) (a.raise .truncatedRead))
    | some h =>
      let z := unsplitSize T (headerRem h)
      .next (a.finishPass q z (a.unsplitPass q.ctl.progEn z ib h))

end Sys2Proof.Machine
end

