-- ==== Sys2Proof/Machine/Dispatch.lean ====
section
/-! DEFINITION. The meaning of each command (R57). -/

namespace Sys2Proof.Machine

def exec (i : Instr) (s : State) : Host.Outcome State Fault Refusal :=
  match i with
  | .init => Sys2Proof.Machine.execInit s
  | .split => Sys2Proof.Machine.execSplit s
  | .unsplit => Sys2Proof.Machine.execUnsplit s
  | .clear => Sys2Proof.Machine.execClear s
  | .clearAndClose => Sys2Proof.Machine.execClearAndClose s
  | .reseed => Sys2Proof.Machine.execReseed s
  | .transpose => Sys2Proof.Machine.execTranspose s

end Sys2Proof.Machine
end

