-- ==== Sys2Proof/Machine/Registers.lean ====
section
/-! DEFINITION. The host's register reads and writes (10_state.md section 3, R17 to R32). -/

namespace Sys2Proof.Machine

/-- DBG_DATA (R32): the plane byte at DBG_ADDR when its storage is provisioned and the offset exists, else 0. -/
def State.dbgData (s : State) : Word :=
  let k := (s.dbgAddr.extractLsb' 29 3).toNat
  let o := (s.dbgAddr.extractLsb' 0 29).toNat
  if s.planeProv.getLsbD k ∧ o < s.params.planeCap then (s.readPM k o).setWidth 32 else 0#32

/-- What a register holds for a read with no side effect (R17, R18, R49). -/
def State.regValue (r : Reg) (s : State) : Word :=
  match r with
  | .cmd => 0#32
  | .status => s.statusWord
  | .config => s.ctl.word
  | .inLen => s.inLen
  | .outLen => s.outLen
  | .planeLen => s.planeLen
  | .schedCnt => s.schedCnt
  | .hdr => s.hdr.word
  | .progress => s.progress.word
  | .wipeSeed => s.wipeSeed
  | .planeProv => s.planeProv.setWidth 32
  | .key1Len => s.key1Len
  | .key2Len => s.key2Len
  | .xdata0 => s.xdata0
  | .xdata1 => s.xdata1
  | .dbgAddr => s.dbgAddr
  | .dbgData => s.dbgData
  | .key1 _ => 0#32
  | .key2 _ => 0#32
  | .reserved => 0#32

/-- The bits a busy-unspecified read may return (R12, R23 to R25, R32); none for a register whose value is
defined while BUSY = 1. Reserved bits of HDR and PROGRESS read 0 (R18, log 15). -/
def Reg.busyMask : Reg → Option Word
  | .outLen | .planeLen | .schedCnt => some 0xFFFFFFFF#32
  | .hdr => some 0x000701FF#32
  | .progress => some 0x000007FF#32
  | .dbgData => some 0xFFFFFFFF#32
  | .cmd | .status | .config | .inLen | .wipeSeed | .planeProv | .key1Len | .key2Len | .xdata0 | .xdata1 | .dbgAddr
  | .key1 _ | .key2 _ | .reserved => none

/-- A host read of the register at `off` (R17, R49): the value goes to `rdata`. -/
def State.hostRead (off : Nat) (s : State) : State :=
  let r := regAt off
  match s.busy, r.busyMask with
  | true, some m => { s with rdata := Config.busyRead s.epoch off &&& m, epoch := s.epoch + 1 }
  | _, _ => { s with rdata := s.regValue r }

/-- A key buffer with word `i` written: bytes 4i..4i+3, little-endian (R27, R47). -/
def writeKeyWord (key : List Byte) (i : Nat) (v : Word) : List Byte :=
  (((key.set (4 * i) (wordByte v 0)).set (4 * i + 1) (wordByte v 1)).set (4 * i + 2) (wordByte v 2)).set (4 * i + 3)
    (wordByte v 3)

/-- The legal value a key length register stores: `min(v, KEY_MAX)` (R26). -/
def legalKeyLen (p : Params) (v : Word) : Word := if v.toNat ≤ p.keyMax then v else BitVec.ofNat 32 p.keyMax

/-- A host write of `v` to a register other than CMD while BUSY = 0 (R17, R18, R26, R27, R30): read-only and
reserved ones ignore it; those "in UNINIT" take it only there. -/
def State.writeReg (r : Reg) (v : Word) (s : State) : State :=
  match r with
  | .status => s.acknowledge v
  | .config => { s with ctl := Control.ofWord v }
  | .inLen => { s with inLen := v }
  | .wipeSeed => { s with wipeSeed := v }
  | .planeProv => if s.lifecycle = .uninit then { s with planeProv := v.extractLsb' 0 8 } else s
  | .key1Len => if s.lifecycle = .uninit then { s with key1Len := legalKeyLen s.params v } else s
  | .key2Len => if s.lifecycle = .uninit then { s with key2Len := legalKeyLen s.params v } else s
  | .xdata0 => { s with xdata0 := v }
  | .xdata1 => { s with xdata1 := v }
  | .dbgAddr => { s with dbgAddr := v }
  | .key1 i =>
    if s.lifecycle = .uninit ∧ i < s.params.keyWords then { s with key1 := writeKeyWord s.key1 i v } else s
  | .key2 i =>
    if s.lifecycle = .uninit ∧ i < s.params.keyWords then { s with key2 := writeKeyWord s.key2 i v } else s
  | .cmd | .outLen | .planeLen | .schedCnt | .hdr | .progress | .dbgData | .reserved => s

end Sys2Proof.Machine
end

