-- ==== Sys2Proof/Machine/Reset.lean ====
section
/-! DEFINITION. The reset event (70_reset_and_hazards.md section 1). -/

namespace Sys2Proof.Machine

/-- The sizes of the pass that is running, where one is: a SPLIT or an UNSPLIT accepted in READY. An UNSPLIT whose header
IB does not deliver counts as without a remainder, which gives the longest output (log 13). -/
def State.runningPass (s : State) : Option PassSize :=
  match s.seq with
  | none => none
  | some q =>
    if s.lifecycle = .ready then
      match decode q.word with
      | .ok .split => some (splitSize q.inLen.toNat)
      | .ok .unsplit => some (unsplitSize q.inLen.toNat (match unsplitHeaderByte q.inLen.toNat (s.deliveredIB q) with
          | some h => headerRem h
          | none => 0))
      | _ => none
    else none

/-- How many OB bytes, from offset 0, the pass that is running would have written (R150); 0 when no pass runs. -/
def State.abortedOut (s : State) : Nat :=
  match s.runningPass with
  | some z => min z.out s.params.outCap
  | none => 0

/-- The reset event (R150): every register at its reset value; a running command is abandoned; PM is
unspecified, not what it held; IB is untouched, and OB but for the bytes of an interrupted pass. The fields that
are the host's or the model's own stay (logs 1, 3, 4). Plane bytes of a pass, also of the one abandoned, are not wiped (R151,
R160). -/
def State.resetEvent (s : State) : State :=
  { State.resetWith s.params with
    pm := ⟨[], .afterReset (s.epoch + 1)⟩
    ib := s.ib
    ob := s.ob.writeAll ((List.range s.abortedOut).map fun a => (a, Config.abortedOB s.epoch a))
    residue := s.residue || s.runningPass.isSome
    rdata := s.rdata
    obData := s.obData
    oraclePins := s.oraclePins
    epoch := s.epoch + 1
    inputs := s.inputs }

end Sys2Proof.Machine
end

