-- ==== Sys2Proof/Machine/Bus.lean ====
section
/-! DEFINITION. What the unit does at each event of the host (R19, R48, R52 to R55, R152 to R154, R161). -/

namespace Sys2Proof.Machine

/-- A CMD word from acceptance to completion, in one step (R12, R56): the command's meaning, or
ILLEGAL_COMMAND (R58). -/
def State.runWord (w : Word) (s : State) : Host.Outcome State Fault Refusal :=
  match decode w with
  | .ok i => exec i s
  | .error _ => .next ((s.accept w).checkError .illegalCommand)

/-- A command needs an answer of the platform before it can complete (R73, R157): a pass that begins, or a wipe. -/
def State.asksPlatform (i : Instr) (s : State) : Bool :=
  match i with
  | .split | .unsplit => s.lifecycle.notReady.isNone
  | .clear | .clearAndClose => s.clearRefusal.isNone
  | .init | .reseed | .transpose => false

/-- Acceptance of a CMD word whose completion the next event does not see (R19, R157). An illegal word completes
at once (R58). -/
def State.startWord (w : Word) (stalled : Bool) (s : State) : Host.Outcome State Fault Refusal :=
  match decode w with
  | .ok i => .next { s.accept w with seq := some { s.latch w with stalled := stalled && s.asksPlatform i } }
  | .error _ => s.runWord w

/-- The completion of the running command (R126); a stalled one never completes (R157). -/
def State.completeRunning (s : State) : Option (Host.Outcome State Fault Refusal) :=
  match s.seq with
  | some q => if q.stalled then none else some (s.runWord q.word)
  | none => none

/-- A host register write while BUSY = 1: ignored, but a CMD write sets OVR (R18, R139, R152). -/
def State.busyWrite (r : Reg) (s : State) : State := if r = .cmd then { s with ovr := true } else s

/-- A 32-bit aligned register write (R19, R48). -/
def State.hostWrite (off : Nat) (v : Word) (s : State) : Host.Outcome State Fault Refusal :=
  if s.busy then .next (s.busyWrite (regAt off))
  else if regAt off = .cmd then s.runWord v
  else .next (s.writeReg (regAt off) v)

/-- The host fills IB (R37). While a command runs the earlier contents are kept for the race of R153. -/
def State.hostSetIB (bytes : List Byte) (s : State) : State :=
  { s with ib := bytes, seq := s.seq.map fun q => { q with ibOld := s.ib :: q.ibOld } }

/-- The host writes a byte of OB (R38). While a command runs the offset is kept for the race of R154. -/
def State.hostWriteOB (a : Nat) (v : Byte) (s : State) : State :=
  { s with ob := s.ob.write a v, seq := s.seq.map fun q => { q with obRaced := a :: q.obRaced } }

/-- The host reads a byte of OB (R38): unspecified while BUSY = 1 (R55). -/
def State.hostReadOB (a : Nat) (s : State) : State :=
  if s.busy then { s with obData := Config.busyOB s.epoch, epoch := s.epoch + 1 }
  else { s with obData := s.ob.read a }

/-- One event. The event has been taken off `inputs`. -/
def State.handle (i : Input) (s : State) : Host.Outcome State Fault Refusal :=
  match i with
  | .write width off v =>
    if accessWf width off then
      if offsetInSpace off then s.hostWrite off v else .fault (.outsideRegisterSpace off)
    else .refused (.accessNotAligned32 width off)
  | .read width off =>
    if accessWf width off then
      if offsetInSpace off then .next (s.hostRead off) else .fault (.outsideRegisterSpace off)
    else .refused (.accessNotAligned32 width off)
  | .start v stalled =>
    if s.busy then .next (s.busyWrite .cmd) else s.startWord v stalled
  | .complete =>
    match s.completeRunning with
    | some o => o
    | none => .refused .nothingCompletes
  | .wait =>
    if s.done then .next { s with rdata := s.statusWord }
    else
      let again := { s with inputs := .wait :: s.inputs }
      match again.completeRunning with
      | some o => o
      | none => .next again
  | .setIB bytes => .next (s.hostSetIB bytes)
  | .writeOB a v => if a < s.params.outCap then .next (s.hostWriteOB a v) else .fault (.outsideOB a)
  | .readOB a => if a < s.params.outCap then .next (s.hostReadOB a) else .fault (.outsideOB a)
  | .reset => .next s.resetEvent

/-- One step: the next event, or nothing when there is none. Between commands the unit is idle and holds all
state (R148); a running command with no event in sight has not completed yet (R157). -/
def State.advance (s : State) : Host.Outcome State Fault Refusal :=
  match s.inputs with
  | [] => .next s
  | i :: rest => State.handle i { s with inputs := rest }

/-- The command word that the next step runs from acceptance, or to completion, where there is one. -/
def State.nextWord (s : State) : Option Word :=
  match s.inputs with
  | .write 32 0x000 v :: _ => if s.busy then none else some v
  | .complete :: _ => s.seq.bind fun q => if q.stalled then none else some q.word
  | .wait :: _ => if s.done then none else s.seq.bind fun q => if q.stalled then none else some q.word
  | _ => none

/-- The state that the command of the next step runs in: WAIT stays until DONE reads 1 (R63), every other event
is taken off. -/
def State.taken (s : State) : State :=
  match s.inputs with
  | .wait :: _ => s
  | _ => { s with inputs := s.inputs.tail }

/-- A CMD write of `w`, put where the next step takes its event (log 1). BUSY is 0, so that it is accepted (R19). -/
def State.issue (w : Word) (s : State) : State := { s with seq := none, inputs := .write 32 0x000 w :: s.inputs }

end Sys2Proof.Machine
end

