-- ==== Sys2Proof/Machine/Step.lean ====
section
/-! DEFINITION. The step of the machine, and where it takes its next command from. -/

namespace Sys2Proof.Machine

/-- One step of the machine: the host's next event. -/
def step (s : State) : Host.Outcome State Fault Refusal := s.advance

/-- `s` with the command word `w` (its low `nbits` bits) written to CMD as the host's next event. -/
def State.withFetchWord (s : State) (nbits w : Nat) : State := s.issue (BitVec.ofNat 32 (w % 2 ^ nbits))

end Sys2Proof.Machine
end

