-- ==== Sys2Proof/Machine/HostScript.lean ====
section
/-! DEFINITION. The host script language (R63): each statement as the events it expands to. -/

namespace Sys2Proof.Machine

/-- A statement of the host script (R63). A register is named by its offset. -/
inductive Stmt where
  | wr (off : Nat) (value : Word)
  | rd (off : Nat)
  | cmd (i : Instr)
  | wait
  | ack
  | ldKey1 (bytes : List Byte)
  | ldKey2 (bytes : List Byte)
  | ib (bytes : List Byte)
  deriving DecidableEq, Repr

/-- The words of a byte string, little-endian, the last one padded with zero bytes (R63, R47). -/
def keyWordsOf (bytes : List Byte) : List Word :=
  (List.range ((bytes.length + 3) / 4)).map fun i =>
    packWord (bytes.getD (4 * i) 0#8) (bytes.getD (4 * i + 1) 0#8) (bytes.getD (4 * i + 2) 0#8)
      (bytes.getD (4 * i + 3) 0#8)

/-- `LDKEYn`: the length at `lenOff`, then the words from `keyOff` (R63). -/
def loadKey (lenOff keyOff : Nat) (bytes : List Byte) : List Input :=
  .write 32 lenOff (BitVec.ofNat 32 bytes.length) ::
    (keyWordsOf bytes).mapIdx fun i w => .write 32 (keyOff + 4 * i) w

/-- The events a statement expands to (R63). CMD expands to the write that completes before the script's next line, so a
line between CMD and WAIT never falls in BUSY, and a WR there always takes. DESIGN CHOICE, unsafe (log 27): R157 leaves
open whether that line falls in BUSY, where its WR is ignored (R152). The events `start` and `complete`, which no script
expands to, say the other case (log 9). -/
def Stmt.expand : Stmt → List Input
  | .wr off v => [.write 32 off v]
  | .rd off => [.read 32 off]
  | .cmd i => [.write 32 0x000 (encode i)]
  | .wait => [.wait]
  | .ack => [.write 32 0x004 0x00000018#32]
  | .ldKey1 bytes => loadKey 0x02C 0x100 bytes
  | .ldKey2 bytes => loadKey 0x030 0x200 bytes
  | .ib bytes => [.setIB bytes]

/-- The events of a host program, in which no line falls in BUSY (log 27). -/
def hostProgram (p : List Stmt) : List Input := p.flatMap Stmt.expand

end Sys2Proof.Machine
end

