-- ==== Sys2Proof/Safety.lean ====
section
/-! DEFINITION. The terms that claims are stated in: what a pass may write, the blocks and tokens of a pass, the
invariants of the machine, and the host's duty before reset. -/

namespace Sys2Proof.Machine

/-! ### What a pass may write (R62) -/

/-- The state with everything a SPLIT or UNSPLIT writes blanked: OB, PM, plen, ppos, BLK, the positions, n,
OUT_LEN, PLANE_LEN, HDR, PROGRESS and the PROG_EV log. Two states that agree here agree in everything else. -/
def State.outsidePass (s : State) : State :=
  { s with
    ob := ⟨[], .zero⟩
    pm := ⟨[], .zero⟩
    plen := Vector.replicate 8 0
    ppos := Vector.replicate 8 0
    blk := Vector.replicate 8 0#8
    ipos := 0
    opos := 0
    n := 0
    outLen := 0#32
    planeLen := 0#32
    hdr := Header.zero
    progress := Progress.zero
    progEv := [] }

/-! ### Tokens and blocks of a pass -/

/-- The token of index `n` under the keys of `s` (R72, R75). -/
def State.tokenAt (s : State) (n : Nat) : Token := tokenOf (s.oracleWord n)

/-- The tokens `n0 .. n0 + count - 1` are all permutations. -/
def State.tokensValid (s : State) (n0 count : Nat) : Prop := ∀ b < count, tokenValid (s.tokenAt (n0 + b)) = true

/-- Block `B` of a SPLIT of `L` bytes of `ib`, the remainder block being block 0 when there is one (R96 to R98). -/
def splitBlockOf (ib : List Byte) (filler : Nat → Byte) (L B : Nat) : Block :=
  Vector.ofFn fun slot =>
    if L % 8 = 0 then ib.getD (8 * B + slot.val) 0#8
    else if B = 0 then (if slot.val < L % 8 then ib.getD slot.val 0#8 else filler slot.val)
    else ib.getD (L % 8 + 8 * (B - 1) + slot.val) 0#8

/-- The IB bytes that a SPLIT of `L` bytes has read once it has assembled blocks `0 .. B` (R96, R97). -/
def splitReadThrough (L B : Nat) : Nat := if L % 8 = 0 then 8 * (B + 1) else L % 8 + 8 * B

/-- Block `B` as an UNSPLIT gathers it from planes of `bss` bytes demultiplexed from `ib` after `H` header bytes:
gathered byte `j` is byte `B` of plane `tok[j]` (R78, R106). -/
def gatheredBlock (ib : List Byte) (H bss B : Nat) (tok : Token) : Block :=
  Vector.ofFn fun j => ib.getD (H + (tok.get j).val * bss + B) 0#8

/-- Where the recovered bytes of block `B` go in OB (R107, R108). -/
def recoverOffset (rem B : Nat) : Nat := if rem = 0 then 8 * B else if B = 0 then 0 else rem + 8 * (B - 1)

/-- How many recovered bytes of block `B` are written (R107, R108). -/
def recoverCount (rem B : Nat) : Nat := if rem ≠ 0 ∧ B = 0 then rem else 8

/-! ### When a pass completes -/

/-- The conditions under which a SPLIT issued while BUSY = 0 runs to its end: READY (R92), the capacities (R93), IB
delivers IN_LEN bytes (R42), and every token of the pass is a permutation (R76). -/
structure SplitRuns (s : State) : Prop where
  idle : s.seq = none
  ready : s.lifecycle = .ready
  planes : (splitSize s.inLen.toNat).planes ≤ s.params.planeCap
  output : (splitSize s.inLen.toNat).out ≤ s.params.outCap
  input : s.inLen.toNat ≤ s.ib.length
  tokens : s.tokensValid s.n (splitSize s.inLen.toNat).planes

/-- The conditions under which an UNSPLIT issued while BUSY = 0, whose header byte is `h` (0 when there is none), runs
to its end: READY and the capacities (R103), IB delivers the header and the planes (R106), a remainder has a block
to be in (R107), and every token of the pass is a permutation (R76). -/
structure UnsplitRuns (s : State) (h : Byte) : Prop where
  idle : s.seq = none
  ready : s.lifecycle = .ready
  header : unsplitHeaderByte s.inLen.toNat s.ib = some h
  planes : (unsplitSize s.inLen.toNat (headerRem h)).planes ≤ s.params.planeCap
  output : (unsplitSize s.inLen.toNat (headerRem h)).out ≤ s.params.outCap
  input : unsplitHeader s.inLen.toNat + 8 * (unsplitSize s.inLen.toNat (headerRem h)).planes ≤ s.ib.length
  block : headerRem h ≠ 0 → (unsplitSize s.inLen.toNat (headerRem h)).planes ≠ 0
  tokens : s.tokensValid s.n (unsplitSize s.inLen.toNat (headerRem h)).planes

/-- The sizes of an UNSPLIT whose header IB may fail to deliver; then no remainder is known. -/
def State.unsplitSizes (s : State) : PassSize :=
  unsplitSize s.inLen.toNat (match unsplitHeaderByte s.inLen.toNat s.ib with
    | some h => headerRem h
    | none => 0)

/-- What a successful pass leaves in the registers that are neither its results nor its streams: STATUS says
READY, DONE and no error, plane bytes of a pass stand in PM, and the draws move on. -/
def State.passDone (s : State) : State :=
  { s with done := true, err := .noError, residue := true, epoch := s.epoch + 1 }

/-! ### The lifecycle table (R114) -/

/-- An error cell: this error, and nothing but STATUS has changed (R133). -/
def errorCell (e : ErrCode) (s t : State) : Prop := t = { s with seq := none, done := true, err := e }

/-- The command has completed: DONE = 1 and BUSY = 0 (R126). -/
def completed (t : State) : Prop := t.done = true ∧ t.seq = none

/-- A success cell: completed without error, and the unit is in this state. -/
def successCell (st : Lifecycle) (t : State) : Prop := completed t ∧ t.err = .noError ∧ t.lifecycle = st

/-- A cell of a pass: success in READY, or a pass error in FAILED. -/
def passCell (t : State) : Prop :=
  successCell .ready t ∨
    (completed t ∧ t.lifecycle = .failed ∧ (t.err = .truncatedRead ∨ t.err = .badToken ∨ t.err = .capacity))

/-- The cell of the table of R114 for a command in the state of `s`, as a condition on the state `t` after it. -/
def tableCell (i : Instr) (s t : State) : Prop :=
  match i, s.lifecycle with
  | .init, .uninit => successCell .ready t ∨ errorCell .insufficientPlaneCount s t
  | .init, _ => errorCell .invalidState s t
  | .split, .uninit | .unsplit, .uninit | .reseed, .uninit | .clear, .uninit | .clearAndClose, .uninit =>
    errorCell .notInitialized s t
  | .split, .ready | .unsplit, .ready => passCell t
  | .reseed, .ready => successCell .ready t
  | .split, _ | .unsplit, _ | .reseed, _ => errorCell .invalidState s t
  | .clear, .closed | .clearAndClose, .closed => successCell .closed t ∨ errorCell .wipeFailure s t
  | .clear, _ | .clearAndClose, _ => successCell .closed t
  | .transpose, st => successCell st t

/-! ### Progress reports (R102) -/

/-- The reports of a phase of `U` units with a sink attached (R102): a single one of 100 when there is no unit; else,
once unit `c` of 1..U is done, one when it is the last or the whole percentage has moved. Each but the last is
intermediate. -/
def phaseReports (phase : Phase) (U : Nat) : List Progress :=
  if U = 0 then [⟨100#7, false, phase⟩]
  else ((List.range U).map (· + 1)).filterMap fun c =>
    if c = U ∨ 100 * c / U ≠ 100 * (c - 1) / U then
      some ⟨BitVec.ofNat 7 (100 * c / U), decide (c < U), phase⟩
    else none

/-- The reports of a successful SPLIT of `nblk` blocks (R102). -/
def splitReports (nblk : Nat) : List Progress := phaseReports .route nblk ++ phaseReports .concat 8

/-- The reports of a successful UNSPLIT of `bss` blocks (R110). -/
def unsplitReports (bss : Nat) : List Progress := phaseReports .demux 8 ++ phaseReports .recon bss

/-! ### The host's streams during a pass (R153, R154) -/

/-- The bytes with which an event fills IB (R37). -/
def Input.ibBytes : Input → Option (List Byte)
  | .setIB bytes => some bytes
  | _ => none

/-- The event is one by which the host races a pass: it fills IB, or writes a byte that OB has (R153, R154). -/
def Input.races (p : Params) : Input → Prop
  | .setIB _ => True
  | .writeOB a _ => a < p.outCap
  | _ => False

/-- What IB has held, newest first: the contents `ib`, then what each of these events filled it with. -/
def heldIB (ib : List Byte) (es : List Input) : List (List Byte) := (ib :: es.filterMap Input.ibBytes).reverse

/-! ### Key words (R27, R47) -/

/-- `new` is the key buffer `old` with word `i` set to `v`: bytes 4i..4i+3 are v[7:0], v[15:8], v[23:16], v[31:24], and
every other byte is as it was. -/
def keyWordSet (old new : List Byte) (i : Nat) (v : Word) : Prop :=
  new.length = old.length ∧ (∀ m < 4, new[4 * i + m]? = some (v.extractLsb' (8 * m) 8)) ∧
  ∀ b, b / 4 ≠ i → new[b]? = old[b]?

/-! ### The reset table (R150) -/

/-- The values that the table of R150 gives to the registers, the keys, the schedule, BLK, the planes' lengths and
positions, the sequencer and the signals. PM, IB and OB are not in it. -/
def State.ResetTable (s : State) : Prop :=
  s.statusWord = 0#32 ∧ s.ctl.word = 0#32 ∧ s.inLen = 0#32 ∧ s.outLen = 0#32 ∧ s.planeLen = 0#32 ∧
  s.schedCnt = 0#32 ∧ s.hdr.word = 0#32 ∧ s.progress.word = 0#32 ∧ s.wipeSeed = 0#32 ∧ s.xdata0 = 0#32 ∧
  s.xdata1 = 0#32 ∧ s.dbgAddr = 0#32 ∧ s.planeProv = 0#8 ∧ s.key1Len = 0#32 ∧ s.key2Len = 0#32 ∧
  s.key1 = List.replicate s.params.keyMax 0#8 ∧ s.key2 = List.replicate s.params.keyMax 0#8 ∧ s.n = 0 ∧
  s.blk = Vector.replicate 8 0#8 ∧ s.plen = Vector.replicate 8 0 ∧ s.ppos = Vector.replicate 8 0 ∧ s.ipos = 0 ∧
  s.opos = 0 ∧ s.seq = none ∧ s.irq = false ∧ s.progEv = [] ∧ s.rel = 0 ∧ s.dbgData = 0#32

/-! ### Invariants -/

/-- PM and OB are in canonical form. -/
def State.MemoriesCanonical (s : State) : Prop := s.pm.wf ∧ s.ob.wf

/-- Every listed byte of PM is a byte of a plane, and every listed byte of OB lies below OUT_CAP (R41). -/
def State.CellsExist (s : State) : Prop :=
  (∀ c ∈ s.pm.cells, ∃ k o, k < 8 ∧ o < s.params.planeCap ∧ c.1 = pmKey k o) ∧ ∀ c ∈ s.ob.cells, c.1 < s.params.outCap

/-- BLK is zero and every position is 0 between commands (R34, R35, R86). -/
def State.Quiet (s : State) : Prop :=
  s.blk = Vector.replicate 8 0#8 ∧ s.ipos = 0 ∧ s.opos = 0 ∧ s.ppos = Vector.replicate 8 0

/-- PLANE_PROV is 0xFF in READY and FAILED (R30), and in CLOSED it is 0xFF or, once released, 0 (R89). -/
def State.StorageFollowsState (s : State) : Prop :=
  (s.lifecycle = .ready ∨ s.lifecycle = .failed → s.planeProv = 0xFF#8) ∧
  (s.lifecycle = .closed → s.planeProv = 0xFF#8 ∨ s.planeProv = 0#8)

/-- Each key buffer has KEY_MAX bytes and each key length is a legal value (R26, R45). -/
def State.KeysFit (s : State) : Prop :=
  s.key1.length = s.params.keyMax ∧ s.key2.length = s.params.keyMax ∧
  s.key1Len.toNat ≤ s.params.keyMax ∧ s.key2Len.toNat ≤ s.params.keyMax

/-- In CLOSED no key byte, no plane byte of a pass and no result of one is left (R117, R121, R124). -/
def State.ClosedIsClean (s : State) : Prop :=
  s.lifecycle = .closed →
    (∀ b ∈ s.key1, b = 0#8) ∧ (∀ b ∈ s.key2, b = 0#8) ∧ s.key1Len = 0#32 ∧ s.key2Len = 0#32 ∧ s.n = 0 ∧
    s.plen = Vector.replicate 8 0 ∧ s.outLen = 0#32 ∧ s.planeLen = 0#32 ∧ s.hdr = Header.zero ∧
    s.progress = Progress.zero ∧ s.pm.cells = [] ∧ (s.pm.fill = .zero ∨ ∃ seed w, s.pm.fill = .random seed w)

/-- Where no wipe is owed, no byte of a pass is left in plane memory (R151, R160). -/
def State.ResidueIsMarked (s : State) : Prop := s.residue = false → s.pm.cells = []

/-- While BUSY = 1, DONE and ERRCODE are 0 (R19), and the sequencer holds a defined command with IN_LEN and
CONFIG as they stand (R36). -/
def State.BusyAsAccepted (s : State) : Prop :=
  ∀ q, s.seq = some q →
    s.done = false ∧ s.err = .noError ∧ q.inLen = s.inLen ∧ q.ctl = s.ctl ∧ ∃ i, decode q.word = .ok i

/-- All 8 planes have the common length PLANE_LEN, except after a pass error (R33, R134). -/
def State.PlanesEqual (s : State) : Prop := s.lifecycle ≠ .failed → ∀ k, s.plen.get k = s.planeLen.toNat

/-- Every plane length lies in 0..PLANE_CAP (R33, R134). -/
def State.PlanesFit (s : State) : Prop := ∀ k, s.plen.get k ≤ s.params.planeCap

/-- PROGRESS.PERCENT lies in 0..100 (R25). -/
def State.PercentLegal (s : State) : Prop := s.progress.percent.toNat ≤ 100

/-! ### What a wipe forgets (R117) -/

/-- The state with everything that ClearCore overwrites blanked. Two states that agree here differ at most in key
bytes, plane bytes, the TRANSPOSE block, the schedule position and the results of passes. -/
def State.unwiped (s : State) : State :=
  { s with
    pm := ⟨[], .zero⟩
    blk := Vector.replicate 8 0#8
    key1 := []
    key2 := []
    key1Len := 0#32
    key2Len := 0#32
    n := 0
    plen := Vector.replicate 8 0
    ppos := Vector.replicate 8 0
    outLen := 0#32
    planeLen := 0#32
    hdr := Header.zero
    progress := Progress.zero
    xdata0 := 0#32
    xdata1 := 0#32
    residue := false }

/-! ### Outcomes and the host's duty -/

/-- The step goes on. -/
def GoesOn (o : Host.Outcome State Fault Refusal) : Prop := ∃ t, o = .next t

/-- The host has met the duty of R151: no pass is running, and none has begun since the last wipe completed. In every
lifecycle state, also after a reset that abandoned a pass (R160). -/
def State.wipedForReset (s : State) : Bool := !s.residue && s.runningPass.isNone

end Sys2Proof.Machine
end

