-- ==== Sys2Proof/Certificates/Slice0/Obligations.lean ====
section
/-! DEFINITION. The statements for the provers. Each is about the machine; none is about a program. -/

open Sys2Proof Sys2Proof.Machine

/-! ### Command words (30_encoding.md) -/

/-- The seven words of R57 written out, and words of each illegal kind of R58. -/
def Obligations.TableWordsDecode : Prop :=
  decode 0x00000001#32 = .ok .init ∧ decode 0x00000002#32 = .ok .split ∧ decode 0x00000003#32 = .ok .unsplit ∧
  decode 0x00000004#32 = .ok .clear ∧ decode 0x00000005#32 = .ok .clearAndClose ∧
  decode 0x00000006#32 = .ok .reseed ∧ decode 0x00000007#32 = .ok .transpose ∧
  decode 0x00000000#32 = .error .undefinedOpcode ∧ decode 0x00000008#32 = .error .undefinedOpcode ∧
  decode 0x000000FF#32 = .error .undefinedOpcode ∧ decode 0x00000102#32 = .error .reservedBits ∧
  decode 0x80000001#32 = .error .reservedBits

/-- Decode and encode agree on every one of the 2^32 words (R56, R57): a word decodes to a command exactly when it is
that command's encoding; every other word is refused, by its reserved field first and else by its opcode. -/
def Obligations.DecodeIsTheInverseOfEncode : Prop :=
  ∀ w : Word,
    (∀ i : Instr, decode w = .ok i ↔ w = encode i) ∧
    (decode w = .error .reservedBits ↔ w.extractLsb' 8 24 ≠ 0#24) ∧
    (decode w = .error .undefinedOpcode ↔
      w.extractLsb' 8 24 = 0#24 ∧ ((w.extractLsb' 0 8).toNat = 0 ∨ 8 ≤ (w.extractLsb' 0 8).toNat))

/-- R58: an illegal word written to CMD completes at once with ILLEGAL_COMMAND and changes nothing but STATUS; every
other word is one of the seven commands. -/
def Obligations.IllegalWordChangesOnlyStatus : Prop :=
  ∀ (s : State) (w : Word) (rest : List Input), s.seq = none → s.inputs = .write 32 0x000 w :: rest →
    ((w.extractLsb' 0 8 = 0#8 ∨ 8 ≤ (w.extractLsb' 0 8).toNat ∨ w.extractLsb' 8 24 ≠ 0#24) →
      step s = .next { s with inputs := rest, done := true, err := .illegalCommand }) ∧
    (¬(w.extractLsb' 0 8 = 0#8 ∨ 8 ≤ (w.extractLsb' 0 8).toNat ∨ w.extractLsb' 8 24 ≠ 0#24) →
      ∃ i, w = encode i ∧ step s = exec i { s with inputs := rest })

/-! ### The step (R12, R19, R36, R157) -/

/-- The step runs the decoded command: when the next event makes the unit run the word `w`, and `w` decodes to `i`,
the step is `exec i` on the state with the event taken off. A CMD write while BUSY = 0 is such an event, and so is
what `withFetchWord` places. -/
def Obligations.StepRunsTheDecodedCommand : Prop :=
  (∀ (s : State) (w : Word) (i : Instr), s.nextWord = some w → decode w = .ok i → step s = exec i s.taken) ∧
  (∀ (s : State) (w : Word) (rest : List Input), s.seq = none → s.inputs = .write 32 0x000 w :: rest →
    s.nextWord = some w ∧ s.taken = { s with inputs := rest }) ∧
  (∀ (s : State) (i : Instr), step (s.withFetchWord 32 (encode i).toNat) = exec i { s with seq := none })

/-- A command whose acceptance and completion are seen apart does what the one-step command does (R12). Between the
two, BUSY = 1, DONE = 0, ERRCODE = 0 and nothing else has changed (R19, R20). The two events in place of the one step
are the model's choice (log 9). -/
def Obligations.HeldCommandEqualsOneStep : Prop :=
  ∀ (s : State) (i : Instr) (rest : List Input), s.seq = none →
    s.inputs = .start (encode i) false :: .complete :: rest →
    ∃ t, step s = .next t ∧ t.busy = true ∧
      t = { s with inputs := .complete :: rest, done := false, err := .noError, seq := t.seq } ∧
      step t = step { s with inputs := .write 32 0x000 (encode i) :: rest }

/-- A command the platform never answers keeps BUSY = 1 until reset (R73, R157). That plane
memory stays as it was at acceptance meanwhile is the model's choice, and unsafe (log 10): neither rule says it. -/
def Obligations.StalledCommandEndsOnlyAtReset : Prop :=
  ∀ (s t : State) (q : Seq), s.seq = some q → q.stalled = true → step s = .next t →
    (∃ rest, s.inputs = .reset :: rest) ∨
    (t.lifecycle = s.lifecycle ∧ t.done = s.done ∧ t.pm = s.pm ∧
      ∃ q', t.seq = some q' ∧ q'.stalled = true ∧ q'.word = q.word)

/-! ### TRANSPOSE (40_transpose.md) -/

/-- R65: bit j of output byte i is bit i of input byte j. -/
def Obligations.TransposeBits : Prop :=
  ∀ (b : Block) (i j : Fin 8), ((transpose b).get i).getLsbD j.val = (b.get j).getLsbD i.val

/-- R66: the transpose is its own inverse. -/
def Obligations.TransposeIsInvolution : Prop := ∀ b : Block, transpose (transpose b) = b

/-- TRANSPOSE completes in every state: the block in XDATA0 and XDATA1 (R31, little-endian) becomes its transpose,
STATUS reports success, and nothing else changes (R68). -/
def Obligations.TransposeCompletes : Prop :=
  ∀ s : State, ∃ t, exec .transpose s = .next t ∧
    t = { s with xdata0 := t.xdata0, xdata1 := t.xdata1, seq := none, done := true, err := .noError } ∧
    ∀ i j : Fin 8,
      ((if i.val < 4 then t.xdata0 else t.xdata1).getLsbD (8 * (i.val % 4) + j.val)) =
      ((if j.val < 4 then s.xdata0 else s.xdata1).getLsbD (8 * (j.val % 4) + i.val))

/-! ### The schedule and RESEED (41_schedule.md) -/

/-- RESEED in READY sets n to 0 and changes nothing else but STATUS (R79). -/
def Obligations.ReseedCompletes : Prop :=
  ∀ s : State, s.lifecycle = .ready →
    exec .reseed s = .next { s with n := 0, seq := none, done := true, err := .noError }

/-- R59: the token word's packing, which words are valid, and the identity word; an invalid word raises BAD_TOKEN and
a valid one is the token of the next index (R75, R76). -/
def Obligations.TokenWordPacking : Prop :=
  (∀ w : BitVec 24, (List.finRange 8).foldl (fun n j => n + (((tokenOf w).get j).val <<< (3 * j.val))) 0 = w.toNat) ∧
  (∀ t : Token, tokenValid t = true ↔ ∀ k : Fin 8, ∃ j : Fin 8, t.get j = k) ∧
  (∀ j : Fin 8, (tokenOf 0xFAC688#24).get j = j) ∧
  (∀ s : State, s.nextToken =
    if tokenValid (tokenOf (s.oracleWord s.n)) then .ok (tokenOf (s.oracleWord s.n), { s with n := s.n + 1 })
    else .error ⟨.badToken, s.progEv⟩)

/-- R74: what changes the schedule position. A step that changes it is a reset, a successful INIT, RESEED, CLEAR or
CLEAR_AND_CLOSE, which leave 0, or a pass, which only advances it. -/
def Obligations.SchedulePositionChanges : Prop :=
  ∀ s t : State, step s = .next t → t.n ≠ s.n →
    (t.n = 0 ∧ ((∃ rest, s.inputs = .reset :: rest) ∨
      ∃ i, (i = .init ∨ i = .reseed ∨ i = .clear ∨ i = .clearAndClose) ∧ s.nextWord = some (encode i) ∧
        t.err = .noError)) ∨
    (s.n < t.n ∧ s.lifecycle = .ready ∧ ∃ i, (i = .split ∨ i = .unsplit) ∧ s.nextWord = some (encode i))

/-! ### The lifecycle (45_lifecycle.md) -/

/-- R114: the lifecycle table, for every command in every state that keeps the provisioning invariant (R30). An
illegal word is answered before the table, in every state. -/
def Obligations.LifecycleTable : Prop :=
  (∀ (i : Instr) (s : State), s.StorageFollowsState → ∃ t, exec i s = .next t ∧ tableCell i s t) ∧
  (∀ (w : Word) (s : State), (∀ i, decode w ≠ .ok i) →
    ∃ t, s.runWord w = .next t ∧ errorCell .illegalCommand s t)

/-- INIT in UNINIT with all 8 planes provisioned prepares the planes and the schedule, keeps every plane byte, and
goes to READY; outside UNINIT, or with a plane not provisioned, it changes nothing but STATUS (R115, R116). -/
def Obligations.InitCompletes : Prop :=
  ∀ s : State,
    (s.lifecycle = .uninit → s.planeProv = 0xFF#8 →
      exec .init s = .next { s with
        lifecycle := .ready, plen := Vector.replicate 8 0, ppos := Vector.replicate 8 0, n := 0, outLen := 0#32,
        planeLen := 0#32, hdr := Header.zero, progress := Progress.zero, seq := none, done := true,
        err := .noError }) ∧
    (s.lifecycle ≠ .uninit → exec .init s = .next { s with seq := none, done := true, err := .invalidState }) ∧
    (s.lifecycle = .uninit → s.planeProv ≠ 0xFF#8 →
      exec .init s = .next { s with seq := none, done := true, err := .insufficientPlaneCount })

/-- CLEAR completes outside UNINIT while the storage is present: keys, schedule, results, BLK and XDATA are zero, every
plane byte reads as the wipe's fill says, nothing else changes, and the unit is CLOSED (R117, R120, R84, R85). That the
fill's number is the count of wipes before this one is the model's choice (log 17). The duty of R151 is then met. -/
def Obligations.ClearCompletes : Prop :=
  ∀ s : State, s.seq = none → s.lifecycle ≠ .uninit → s.planeProv = 0xFF#8 →
    ∃ t, exec .clear s = .next t ∧
      t.unwiped = { s with lifecycle := .closed, wipes := s.wipes + 1, done := true, err := .noError }.unwiped ∧
      (∀ k o, o < 2 ^ 29 → t.readPM k o =
        if s.ctl.wipeRandom then Config.wipefill s.wipeSeed k o s.wipes else 0#8) ∧
      t.key1 = List.replicate s.params.keyMax 0#8 ∧ t.key2 = List.replicate s.params.keyMax 0#8 ∧
      t.key1Len = 0#32 ∧ t.key2Len = 0#32 ∧ t.n = 0 ∧ t.blk = Vector.replicate 8 0#8 ∧
      t.plen = Vector.replicate 8 0 ∧ t.ppos = Vector.replicate 8 0 ∧ t.outLen = 0#32 ∧ t.planeLen = 0#32 ∧
      t.hdr = Header.zero ∧ t.progress = Progress.zero ∧ t.xdata0 = 0#32 ∧ t.xdata1 = 0#32 ∧ t.wipedForReset = true

/-- CLEAR_AND_CLOSE does what CLEAR does, then releases the storage: PLANE_PROV = 0 and one REL pulse (R123). -/
def Obligations.ClearAndCloseCompletes : Prop :=
  ∀ s : State, s.seq = none → s.lifecycle ≠ .uninit → s.planeProv = 0xFF#8 →
    ∃ t, exec .clear s = .next t ∧
      exec .clearAndClose s = .next { t with planeProv := 0#8, rel := s.rel + 1 } ∧ t.lifecycle = .closed ∧
      t.rel = s.rel

/-- R118: CLEAR and CLEAR_AND_CLOSE in UNINIT raise NOT_INITIALIZED and change nothing but STATUS. Elsewhere, with the
storage released, they raise WIPE_FAILURE before any byte is written (R89). -/
def Obligations.ClearRefusals : Prop :=
  ∀ (i : Instr) (s : State), i = .clear ∨ i = .clearAndClose →
    (s.lifecycle = .uninit → exec i s = .next { s with seq := none, done := true, err := .notInitialized }) ∧
    (s.lifecycle ≠ .uninit → s.planeProv ≠ 0xFF#8 →
      exec i s = .next { s with seq := none, done := true, err := .wipeFailure })

/-- A second CLEAR in zero mode changes nothing but the count of wipes (R119, R120). -/
def Obligations.ClearIsIdempotent : Prop :=
  ∀ s t : State, s.seq = none → s.lifecycle ≠ .uninit → s.planeProv = 0xFF#8 → s.ctl.wipeRandom = false →
    exec .clear s = .next t → exec .clear t = .next { t with wipes := t.wipes + 1 }

/-- What a wipe leaves does not depend on the keys, plane bytes, TRANSPOSE block, schedule position or pass results
there were: states that differ only in those end equal (R117). -/
def Obligations.ClearForgetsSecrets : Prop :=
  ∀ (i : Instr) (s t : State), i = .clear ∨ i = .clearAndClose → s.unwiped = t.unwiped → s.lifecycle ≠ .uninit →
    s.planeProv = 0xFF#8 → exec i s = exec i t ∧ GoesOn (exec i s)

/-- R124: no command leaves CLOSED; FAILED is left only by CLEAR or CLEAR_AND_CLOSE, to CLOSED; reset leaves both, to
UNINIT. -/
def Obligations.ClosedAndFailedExits : Prop :=
  ∀ s t : State, step s = .next t →
    ((∃ rest, s.inputs = .reset :: rest) → t.lifecycle = .uninit) ∧
    ((∀ rest, s.inputs ≠ .reset :: rest) →
      (s.lifecycle = .closed → t.lifecycle = .closed) ∧
      (s.lifecycle = .failed → t.lifecycle = .failed ∨
        (t.lifecycle = .closed ∧ ∃ i, (i = .clear ∨ i = .clearAndClose) ∧ s.nextWord = some (encode i))))

/-! ### Errors (60_exceptions.md) -/

/-- R92: SPLIT runs only in READY; in the other states it raises its error and changes nothing but STATUS. UNSPLIT
and RESEED have the same check (R103, R79). -/
def Obligations.PassesAndReseedNeedReady : Prop :=
  ∀ (i : Instr) (s : State), i = .split ∨ i = .unsplit ∨ i = .reseed →
    (s.lifecycle = .uninit → exec i s = .next { s with seq := none, done := true, err := .notInitialized }) ∧
    (s.lifecycle = .closed ∨ s.lifecycle = .failed →
      exec i s = .next { s with seq := none, done := true, err := .invalidState })

/-- R133: a word that ends in one of these five errors leaves the state it found, but for STATUS. -/
def Obligations.CheckErrorsChangeOnlyStatus : Prop :=
  ∀ (w : Word) (s : State), ∃ t, s.runWord w = .next t ∧
    (t.err = .illegalCommand ∨ t.err = .notInitialized ∨ t.err = .invalidState ∨ t.err = .insufficientPlaneCount ∨
      t.err = .wipeFailure → t = { s with seq := none, done := true, err := t.err })

/-- What a pass error leaves (R134): FAILED, BLK and the positions 0, OB unchanged beyond the pass's output and PM
beyond its plane length, plane lengths and n in their ranges, and all else unchanged. The bound on n for an UNSPLIT
with a header remainder and no planes is the model's (log 8), and so is the OB range of an UNSPLIT whose header byte
IB does not deliver (log 19); the count of draws moves on (log 7), and the model's mark says that a wipe is owed (R151,
log 28). -/
def Obligations.PassErrorLeaves : Prop :=
  ∀ (i : Instr) (s t : State), s.seq = none → s.lifecycle = .ready → exec i s = .next t → t.err ≠ .noError →
    ∀ z : PassSize, (i = .split ∧ z = splitSize s.inLen.toNat) ∨ (i = .unsplit ∧ z = s.unsplitSizes) →
      t.lifecycle = .failed ∧ t.blk = Vector.replicate 8 0#8 ∧ t.ipos = 0 ∧ t.opos = 0 ∧
      t.ppos = Vector.replicate 8 0 ∧
      (∀ a, z.out ≤ a → t.ob.read a = s.ob.read a) ∧
      (∀ a, (∀ k < 8, ∀ o < z.planes, a ≠ pmKey k o) → t.pm.read a = s.pm.read a) ∧
      (∀ k, t.plen.get k ≤ s.params.planeCap) ∧ s.n ≤ t.n ∧ t.n ≤ s.n + z.tokens ∧
      t.outsidePass =
        { s with lifecycle := .failed, done := true, err := t.err, residue := true, epoch := s.epoch + 1 }.outsidePass

/-- The error of a SPLIT is the first its pseudocode reaches: CAPACITY; then, at the first block that fails,
TRUNCATED_READ before BAD_TOKEN (R93, R94, R137). -/
def Obligations.SplitFirstErrorWins : Prop :=
  ∀ s : State, s.seq = none → s.lifecycle = .ready →
    let L := s.inLen.toNat
    let z := splitSize L
    ((s.params.planeCap < z.planes ∨ s.params.outCap < z.out) →
      ∃ t, exec .split s = .next t ∧ t.err = .capacity) ∧
    (z.planes ≤ s.params.planeCap → z.out ≤ s.params.outCap → ∀ B < z.planes,
      (∀ b < B, splitReadThrough L b ≤ s.ib.length ∧ tokenValid (s.tokenAt (s.n + b)) = true) →
      (s.ib.length < splitReadThrough L B → ∃ t, exec .split s = .next t ∧ t.err = .truncatedRead) ∧
      (splitReadThrough L B ≤ s.ib.length → tokenValid (s.tokenAt (s.n + B)) = false →
        ∃ t, exec .split s = .next t ∧ t.err = .badToken))

/-- The error of an UNSPLIT is the first its pseudocode reaches: the header's TRUNCATED_READ, CAPACITY, the
demultiplexer's TRUNCATED_READ, BAD_TOKEN, the gather's TRUNCATED_READ (R104, R107, R137). -/
def Obligations.UnsplitFirstErrorWins : Prop :=
  ∀ s : State, s.seq = none → s.lifecycle = .ready →
    (unsplitHeaderByte s.inLen.toNat s.ib = none → ∃ t, exec .unsplit s = .next t ∧ t.err = .truncatedRead) ∧
    ∀ h, unsplitHeaderByte s.inLen.toNat s.ib = some h →
      let z := unsplitSize s.inLen.toNat (headerRem h)
      ((s.params.planeCap < z.planes ∨ s.params.outCap < z.out) →
        ∃ t, exec .unsplit s = .next t ∧ t.err = .capacity) ∧
      (z.planes ≤ s.params.planeCap → z.out ≤ s.params.outCap →
        (s.ib.length < z.header + 8 * z.planes → ∃ t, exec .unsplit s = .next t ∧ t.err = .truncatedRead) ∧
        (z.header + 8 * z.planes ≤ s.ib.length →
          (∀ B < z.planes, s.tokensValid s.n B → tokenValid (s.tokenAt (s.n + B)) = false →
            ∃ t, exec .unsplit s = .next t ∧ t.err = .badToken) ∧
          (z.rem ≠ 0 → z.planes = 0 →
            (tokenValid (s.tokenAt s.n) = false → ∃ t, exec .unsplit s = .next t ∧ t.err = .badToken) ∧
            (tokenValid (s.tokenAt s.n) = true → ∃ t, exec .unsplit s = .next t ∧ t.err = .truncatedRead))))

/-! ### SPLIT (43_split.md) -/

/-- SPLIT completes in READY when the pass fits, IB delivers it and its tokens are permutations: the result registers,
the header (R95, R24), n, the planes' lengths and PROGRESS (R102) are as R94 says, BLK and the positions are 0 (R100),
OB is unchanged from `need` up and PM outside the first `nblk` bytes of the planes, and nothing outside the pass
changes but STATUS (and the model's count of draws and mark of plane bytes left, logs 7 and 28). With PROG_EN = 1 the
PROG_EV pulses are the reports of R102, one by one, else there is none. -/
def Obligations.SplitCompletes : Prop :=
  ∀ s : State, SplitRuns s → ∃ t, exec .split s = .next t ∧
    let L := s.inLen.toNat
    let z := splitSize L
    t.err = .noError ∧ t.lifecycle = .ready ∧ t.outsidePass = s.passDone.outsidePass ∧
    t.outLen = BitVec.ofNat 32 z.out ∧ t.planeLen = BitVec.ofNat 32 z.planes ∧ t.n = s.n + z.planes ∧
    t.plen = Vector.replicate 8 z.planes ∧ t.blk = Vector.replicate 8 0#8 ∧ t.ipos = 0 ∧ t.opos = 0 ∧
    t.ppos = Vector.replicate 8 0 ∧
    (L % 8 = 0 → t.hdr = Header.zero) ∧
    (L % 8 ≠ 0 → t.hdr = ⟨t.ob.read 0, true, BitVec.ofNat 3 (L % 8)⟩ ∧
      ∃ noise ≤ s.params.noiseMax, t.ob.read 0 = ((BitVec.ofNat 8 noise <<< 3) &&& 0xF8#8) ||| BitVec.ofNat 8 (L % 8)) ∧
    (s.ctl.progEn = true → t.progress.word = 0x264#32 ∧ t.progEv = s.progEv ++ splitReports z.planes) ∧
    (s.ctl.progEn = false → t.progress = s.progress ∧ t.progEv = s.progEv) ∧
    (∀ a, z.out ≤ a → t.ob.read a = s.ob.read a) ∧
    (∀ a, (∀ k < 8, ∀ o < z.planes, a ≠ pmKey k o) → t.pm.read a = s.pm.read a)

/-- R101: the invariants of a successful SPLIT of L bytes. -/
def Obligations.SplitLeavesEqualPlanes : Prop :=
  ∀ s t : State, s.seq = none → s.lifecycle = .ready → s.params.wf = true → exec .split s = .next t →
    t.err = .noError →
    let L := s.inLen.toNat
    let H := if L % 8 ≠ 0 then 1 else 0
    (∀ k, t.plen.get k = L / 8 + H ∧ t.planeLen.toNat = L / 8 + H) ∧
    (t.plen.toList.sum = 8 * (L / 8) + 8 * H) ∧
    t.outLen.toNat = H + 8 * (L / 8 + H) ∧ t.outLen.toNat % 8 = H ∧
    (t.hdr.present = true ↔ L % 8 ≠ 0) ∧
    (L % 8 ≠ 0 → headerRem t.hdr.byte = L % 8 ∧ t.ob.read 0 = t.hdr.byte) ∧
    t.n = s.n + (L / 8 + H)

/-- R98 and R99: after a successful SPLIT, byte B of plane `token_B[j]` is byte j of the transpose of block B, where
`token_B` is the oracle's token of index n0 + B (the slots of the remainder block beyond the remainder hold the filler
drawn, R96); exactly one token is taken for each block; and plane k's `nblk` bytes stand in OB from `H + k * nblk` on,
in order. -/
def Obligations.SplitWritesTheWireFormat : Prop :=
  ∀ s : State, SplitRuns s → ∃ t, exec .split s = .next t ∧
    let z := splitSize s.inLen.toNat
    (∀ B < z.planes, ∀ j : Fin 8,
      t.readPM ((s.tokenAt (s.n + B)).get j).val B =
        (transpose (splitBlockOf s.ib s.drawFiller s.inLen.toNat B)).get j) ∧
    t.n = s.n + z.planes ∧ (∀ k, t.plen.get k = z.planes) ∧
    ∀ k < 8, ∀ o < z.planes, t.ob.read (z.header + k * z.planes + o) = t.readPM k o

/-- The SPLIT of a state does not depend on IB bytes at or above IN_LEN (R42): with IB changed there only, the same
pass happens. -/
def Obligations.SplitReadsOnlyBelowInLen : Prop :=
  ∀ (s : State) (ib : List Byte), s.seq = none → ib.take s.inLen.toNat = s.ib.take s.inLen.toNat →
    ∃ t, exec .split s = .next t ∧ exec .split { s with ib := ib } = .next { t with ib := ib }

/-- R86: every SPLIT and UNSPLIT pass, with or without error, ends with BLK zero, whatever WIPE_RANDOM holds. -/
def Obligations.PassesWipeTheBlock : Prop :=
  ∀ (i : Instr) (s : State), i = .split ∨ i = .unsplit → s.lifecycle = .ready →
    ∃ t, exec i s = .next t ∧ t.blk = Vector.replicate 8 0#8

/-! ### UNSPLIT (44_unsplit.md) -/

/-- UNSPLIT completes in READY when IB delivers the header and the planes, the pass fits, a remainder has a block to
be in and the tokens are permutations: the result registers, n, the planes' lengths and PROGRESS (R110) are as R104
says, HDR records the header byte read, BLK and the positions are 0 (R109), OB is unchanged from `nrec` up and PM
outside the first `bss` bytes of the planes, and nothing outside the pass changes but STATUS (and the model's count of
draws and mark of plane bytes left, logs 7 and 28). With PROG_EN = 1 the PROG_EV pulses are the reports of R110, one by
one, else there is none. -/
def Obligations.UnsplitCompletes : Prop :=
  ∀ (s : State) (h : Byte), UnsplitRuns s h → ∃ t, exec .unsplit s = .next t ∧
    let z := unsplitSize s.inLen.toNat (headerRem h)
    t.err = .noError ∧ t.lifecycle = .ready ∧ t.outsidePass = s.passDone.outsidePass ∧
    t.outLen = BitVec.ofNat 32 z.out ∧ t.planeLen = BitVec.ofNat 32 z.planes ∧ t.n = s.n + z.planes ∧
    t.plen = Vector.replicate 8 z.planes ∧ t.blk = Vector.replicate 8 0#8 ∧ t.ipos = 0 ∧ t.opos = 0 ∧
    t.ppos = Vector.replicate 8 0 ∧
    t.hdr = (if s.inLen.toNat % 8 ≠ 0 then ⟨h, true, h.extractLsb' 0 3⟩ else Header.zero) ∧
    (s.ctl.progEn = true → t.progress.word = 0x464#32 ∧ t.progEv = s.progEv ++ unsplitReports z.planes) ∧
    (s.ctl.progEn = false → t.progress = s.progress ∧ t.progEv = s.progEv) ∧
    (∀ a, z.out ≤ a → t.ob.read a = s.ob.read a) ∧
    (∀ a, (∀ k < 8, ∀ o < z.planes, a ≠ pmKey k o) → t.pm.read a = s.pm.read a)

/-- Demultiplexing (R106) and recovery (R107, R108, R78): plane k receives IB offsets `H + k * bss ..` at PM offsets
0 .. bss-1; and byte i of block B recovered is byte i of the transpose of the bytes gathered from plane `token_B[j]`
at B, where `token_B` is the oracle's token of index n0 + B; a remainder block gives its first `rem` bytes. -/
def Obligations.UnsplitRecoversBlocks : Prop :=
  ∀ (s : State) (h : Byte), UnsplitRuns s h → ∃ t, exec .unsplit s = .next t ∧
    let H := if s.inLen.toNat % 8 ≠ 0 then 1 else 0
    let bss := (s.inLen.toNat - H) / 8
    (∀ k, t.plen.get k = bss) ∧
    (∀ k < 8, ∀ o < bss, s.ib[H + k * bss + o]? = some (t.readPM k o)) ∧
    ∀ B < bss, ∀ i : Fin 8, i.val < recoverCount (headerRem h) B →
      t.ob.read (recoverOffset (headerRem h) B + i.val) =
        (transpose (Vector.ofFn fun j => t.readPM ((s.tokenAt (s.n + B)).get j).val B)).get i

/-- The noise bits of the header byte are ignored (R60): with another byte of the same low 3 bits in its place, the
pass is the same but for the HDR register's record of the byte. -/
def Obligations.UnsplitIgnoresHeaderNoise : Prop :=
  ∀ (s : State) (h h' : Byte) (rest : List Byte), s.seq = none → s.inLen.toNat % 8 ≠ 0 → s.ib = h :: rest →
    headerRem h' = headerRem h →
    ∃ t t', exec .unsplit s = .next t ∧ exec .unsplit { s with ib := h' :: rest } = .next t' ∧
      t' = { t with ib := h' :: rest, hdr := t'.hdr }

/-- The UNSPLIT of a state does not depend on IB bytes beyond the header and the planes (R42, R112): the last
`(T - H) mod 8` bytes of the stream, and any after it, are never read. -/
def Obligations.UnsplitReadsOnlyThePlanes : Prop :=
  ∀ (s : State) (ib : List Byte), s.seq = none →
    let T := s.inLen.toNat
    let used := unsplitHeader T + 8 * ((T - unsplitHeader T) / 8)
    ib.take used = s.ib.take used →
    ∃ t, exec .unsplit s = .next t ∧ exec .unsplit { s with ib := ib } = .next { t with ib := ib }

/-- R111: the round trip. An UNSPLIT that runs on the stream a successful SPLIT wrote, with the same keys and oracle,
from the same schedule position, within the capacities, completes without error, writes the SPLIT's input to OB and
sets OUT_LEN to its length; for every noise and filler drawn. -/
def Obligations.UnsplitUndoesSplit : Prop :=
  ∀ s t u : State,
    s.seq = none → s.lifecycle = .ready → exec .split s = .next t → t.err = .noError →
    u.seq = none → u.lifecycle = .ready →
    u.keyBytes1 = s.keyBytes1 → u.keyBytes2 = s.keyBytes2 → u.oraclePins = s.oraclePins → u.n = s.n →
    u.inLen.toNat = (splitSize s.inLen.toNat).out → u.inLen.toNat ≤ u.ib.length →
    (∀ a < u.inLen.toNat, u.ib[a]? = some (t.ob.read a)) →
    (splitSize s.inLen.toNat).planes ≤ u.params.planeCap → s.inLen.toNat ≤ u.params.outCap →
    ∃ v, exec .unsplit u = .next v ∧ v.err = .noError ∧ v.outLen = s.inLen ∧
      ∀ a < s.inLen.toNat, s.ib[a]? = some (v.ob.read a)

/-! ### Registers and the host (10_state.md, 60_exceptions.md, 70_reset_and_hazards.md) -/

/-- A register write while BUSY = 0 writes that register and nothing else; in UNINIT so does a write of PLANE_PROV, of a
key length or of a key word, which sets its four bytes little-endian and leaves every other byte of the buffer; a
read-only register ignores it (R17, R18, R26, R27, R30, R47). CONFIG reads back its low 4 bits (R21), and a key length
is the lesser of the value and KEY_MAX (R26). -/
def Obligations.RegisterWrites : Prop :=
  (∀ (s : State) (off : Nat) (v : Word) (rest : List Input), s.seq = none → s.inputs = .write 32 off v :: rest →
    (off = 0x008 → step s = .next { s with inputs := rest, ctl := Control.ofWord v }) ∧
    (off = 0x00C → step s = .next { s with inputs := rest, inLen := v }) ∧
    (off = 0x024 → step s = .next { s with inputs := rest, wipeSeed := v }) ∧
    (off = 0x034 → step s = .next { s with inputs := rest, xdata0 := v }) ∧
    (off = 0x038 → step s = .next { s with inputs := rest, xdata1 := v }) ∧
    (off = 0x03C → step s = .next { s with inputs := rest, dbgAddr := v }) ∧
    (off ∈ [0x010, 0x014, 0x018, 0x01C, 0x020, 0x040] → step s = .next { s with inputs := rest }) ∧
    (s.lifecycle = .uninit →
      (off = 0x028 → step s = .next { s with inputs := rest, planeProv := v.extractLsb' 0 8 }) ∧
      (off = 0x02C → step s = .next { s with inputs := rest, key1Len := legalKeyLen s.params v }) ∧
      (off = 0x030 → step s = .next { s with inputs := rest, key2Len := legalKeyLen s.params v }) ∧
      (s.params.wf = true → s.KeysFit → ∀ i < s.params.keyWords,
        (off = 0x100 + 4 * i → ∃ t, step s = .next t ∧ t = { s with inputs := rest, key1 := t.key1 } ∧
          keyWordSet s.key1 t.key1 i v) ∧
        (off = 0x200 + 4 * i → ∃ t, step s = .next t ∧ t = { s with inputs := rest, key2 := t.key2 } ∧
          keyWordSet s.key2 t.key2 i v)))) ∧
  (∀ v : Word, (Control.ofWord v).word = v &&& 0xF#32) ∧
  (∀ (p : Params) (v : Word), p.wf = true → (legalKeyLen p v).toNat = min v.toNat p.keyMax)

/-- What a read of each offset of the register map returns (R17): the registers, with the fields of HDR and PROGRESS in
their places (R24, R25); CMD, the key windows and every offset above DBG_DATA read 0 (R19, R27). While BUSY = 1 the
registers that are not busy-unspecified return their values just the same (R18, R20). A read changes nothing but what
it returned, and, where it is a draw, the model's count of draws (R49, log 7). -/
def Obligations.ReadsHaveNoSideEffect : Prop :=
  ∀ (s : State) (off : Nat) (rest : List Input), s.inputs = .read 32 off :: rest → off % 4 = 0 → off < 0x1000 →
    ∃ t, step s = .next t ∧
      t = { s with inputs := rest, rdata := t.rdata, epoch := t.epoch } ∧
      (s.seq = none ∨ off ∉ [0x010, 0x014, 0x018, 0x01C, 0x020, 0x040] → t.epoch = s.epoch) ∧
      (off = 0x000 → t.rdata = 0#32) ∧ (off = 0x004 → t.rdata = s.statusWord) ∧
      (off = 0x008 → t.rdata.extractLsb' 4 28 = 0#28 ∧ t.rdata.getLsbD 0 = s.ctl.wipeRandom ∧
        t.rdata.getLsbD 1 = s.ctl.progEn ∧ t.rdata.getLsbD 2 = s.ctl.ieDone ∧ t.rdata.getLsbD 3 = s.ctl.ieErr) ∧
      (off = 0x00C → t.rdata = s.inLen) ∧ (off = 0x024 → t.rdata = s.wipeSeed) ∧
      (off = 0x028 → t.rdata = 0#24 ++ s.planeProv) ∧ (off = 0x02C → t.rdata = s.key1Len) ∧
      (off = 0x030 → t.rdata = s.key2Len) ∧ (off = 0x034 → t.rdata = s.xdata0) ∧
      (off = 0x038 → t.rdata = s.xdata1) ∧ (off = 0x03C → t.rdata = s.dbgAddr) ∧ (0x040 < off → t.rdata = 0#32) ∧
      (s.seq = none →
        (off = 0x010 → t.rdata = s.outLen) ∧ (off = 0x014 → t.rdata = s.planeLen) ∧
        (off = 0x018 → t.rdata.toNat = s.n % 2 ^ 32) ∧
        (off = 0x01C → t.rdata.extractLsb' 0 8 = s.hdr.byte ∧ t.rdata.getLsbD 8 = s.hdr.present ∧
          t.rdata.extractLsb' 9 7 = 0#7 ∧ t.rdata.extractLsb' 16 3 = s.hdr.rem ∧
          t.rdata.extractLsb' 19 13 = 0#13) ∧
        (off = 0x020 → t.rdata.extractLsb' 0 7 = s.progress.percent ∧ t.rdata.getLsbD 7 = s.progress.intermediate ∧
          t.rdata.extractLsb' 8 3 = (match s.progress.phase with
            | .idle => 0#3
            | .route => 1#3
            | .concat => 2#3
            | .demux => 3#3
            | .recon => 4#3) ∧
          t.rdata.extractLsb' 11 21 = 0#21) ∧
        (off = 0x040 → t.rdata = s.dbgData))

/-- A reserved offset reads 0 and ignores a write (R17), and so does a key window word at or above KEY_WORDS; a key word
below KEY_WORDS reads 0 too, at every aligned offset 0x100..0x2FC (R27). In every lifecycle state, also while
BUSY = 1. -/
def Obligations.ReservedOffsets : Prop :=
  ∀ (s : State) (off : Nat) (v : Word) (rest : List Input), off % 4 = 0 → off < 0x1000 →
    ((0x040 < off ∧ off < 0x100) ∨ (0x100 ≤ off ∧ off ≤ 0x2FC) ∨ 0x300 ≤ off →
      s.inputs = .read 32 off :: rest → step s = .next { s with inputs := rest, rdata := 0#32 }) ∧
    ((0x040 < off ∧ off < 0x100) ∨ 0x300 ≤ off ∨ (0x100 + 4 * s.params.keyWords ≤ off ∧ off < 0x200) ∨
        (0x200 + 4 * s.params.keyWords ≤ off ∧ off < 0x300) →
      s.inputs = .write 32 off v :: rest → step s = .next { s with inputs := rest })

/-- LDKEY1 and LDKEY2 load a key (R63, R26, R70): run in UNINIT, their writes leave exactly the given bytes as the
key that the oracle gets. -/
def Obligations.LoadKeyLoadsTheKey : Prop :=
  ∀ (s : State) (bytes : List Byte) (rest : List Input), s.seq = none → s.lifecycle = .uninit → s.KeysFit →
    s.params.wf = true → bytes.length ≤ s.params.keyMax →
    (s.inputs = hostProgram [.ldKey1 bytes] ++ rest →
      ∃ t, Host.Core.run Sys2Proof.core (hostProgram [.ldKey1 bytes]).length s = .next t ∧
        t = { s with inputs := rest, key1 := t.key1, key1Len := t.key1Len } ∧ t.keyBytes1 = bytes) ∧
    (s.inputs = hostProgram [.ldKey2 bytes] ++ rest →
      ∃ t, Host.Core.run Sys2Proof.core (hostProgram [.ldKey2 bytes]).length s = .next t ∧
        t = { s with inputs := rest, key2 := t.key2, key2Len := t.key2Len } ∧ t.keyBytes2 = bytes)

/-- R155: after INIT, writes to the key words, the key lengths and PLANE_PROV are ignored. -/
def Obligations.KeysAndStorageFreezeAtInit : Prop :=
  ∀ (s : State) (off : Nat) (v : Word) (rest : List Input), s.lifecycle ≠ .uninit → s.seq = none →
    s.inputs = .write 32 off v :: rest →
    (off = 0x028 ∨ off = 0x02C ∨ off = 0x030 ∨ (off % 4 = 0 ∧ 0x100 ≤ off ∧ off < 0x300)) →
    step s = .next { s with inputs := rest }

/-- The keys cannot change during the lifetime of an initialized unit (R71): a step that changes them there is a
reset, or a successful CLEAR or CLEAR_AND_CLOSE, which zeroes them. -/
def Obligations.KeysChangeOnlyByWipe : Prop :=
  ∀ s t : State, step s = .next t → s.lifecycle ≠ .uninit →
    (t.key1 = s.key1 ∧ t.key2 = s.key2 ∧ t.key1Len = s.key1Len ∧ t.key2Len = s.key2Len) ∨
    (∃ rest, s.inputs = .reset :: rest) ∨
    (t.lifecycle = .closed ∧ t.key1Len = 0#32 ∧ t.key2Len = 0#32 ∧ (∀ b ∈ t.key1, b = 0#8) ∧
      (∀ b ∈ t.key2, b = 0#8) ∧
      ∃ i, (i = .clear ∨ i = .clearAndClose) ∧ s.nextWord = some (encode i))

/-- R152 and R139: while BUSY = 1 a register write is ignored, except that a CMD write sets OVR and starts nothing. OVR
then stays 1 until the host writes 1 to it or the unit is reset, and acceptance of a command does not clear it. -/
def Obligations.BusyWritesAndOverrun : Prop :=
  (∀ (s : State) (off : Nat) (v : Word) (rest : List Input), s.seq.isSome → s.inputs = .write 32 off v :: rest →
    off % 4 = 0 → off < 0x1000 →
    (off ≠ 0x000 → step s = .next { s with inputs := rest }) ∧
    (off = 0x000 → step s = .next { s with inputs := rest, ovr := true })) ∧
  (∀ s t : State, s.ovr = true → step s = .next t →
    t.ovr = true ∨ (∃ rest, s.inputs = .reset :: rest) ∨
      ∃ v rest, s.inputs = .write 32 0x004 v :: rest ∧ v.getLsbD 4 = true) ∧
  (∀ (s : State) (w : Word), (s.accept w).ovr = s.ovr)

/-- The STATUS word (R20), field by field, with the encodings of R16 and R131; reserved bits read 0. -/
def Obligations.StatusFields : Prop :=
  ∀ s : State,
    s.statusWord.extractLsb' 0 2 = (match s.lifecycle with
      | .uninit => 0#2
      | .ready => 1#2
      | .closed => 2#2
      | .failed => 3#2) ∧
    s.statusWord.getLsbD 2 = s.seq.isSome ∧ s.statusWord.getLsbD 3 = s.done ∧ s.statusWord.getLsbD 4 = s.ovr ∧
    s.statusWord.extractLsb' 5 3 = 0#3 ∧
    s.statusWord.extractLsb' 8 4 = (match s.err with
      | .noError => 0#4
      | .notInitialized => 1#4
      | .insufficientPlaneCount => 2#4
      | .truncatedRead => 3#4
      | .wipeFailure => 4#4
      | .illegalCommand => 6#4
      | .invalidState => 7#4
      | .badToken => 8#4
      | .capacity => 9#4) ∧
    s.statusWord.extractLsb' 12 20 = 0#20

/-- R140: IRQ as a function of the STATUS and CONFIG words, and its reset value. -/
def Obligations.InterruptLine : Prop :=
  (∀ s : State, s.irq =
    ((s.statusWord.getLsbD 3 &&
        (s.ctl.word.getLsbD 2 || (s.ctl.word.getLsbD 3 && s.statusWord.extractLsb' 8 4 != 0#4))) ||
      (s.statusWord.getLsbD 4 && s.ctl.word.getLsbD 3))) ∧
  State.reset.irq = false

/-- Acknowledgement (R138, R20): a STATUS write while BUSY = 0 clears DONE and OVR where it has a 1, and changes
nothing else; the acceptance of a command clears DONE and ERRCODE. -/
def Obligations.AcknowledgeClearsFlags : Prop :=
  (∀ (s : State) (v : Word) (rest : List Input), s.seq = none → s.inputs = .write 32 0x004 v :: rest →
    step s = .next { s with
      inputs := rest, done := (if v.getLsbD 3 then false else s.done), ovr := (if v.getLsbD 4 then false else s.ovr) }) ∧
  (∀ (s : State) (i : Instr) (b : Bool) (rest : List Input), s.seq = none →
    s.inputs = .start (encode i) b :: rest →
    ∃ t, step s = .next t ∧ t = { s with inputs := rest, done := false, err := .noError, seq := t.seq } ∧
      t.seq.isSome)

/-- R32: the debug window, read while BUSY = 0. -/
def Obligations.DebugWindow : Prop :=
  ∀ (s : State) (rest : List Input) (k o : Nat), s.seq = none → s.inputs = .read 32 0x040 :: rest → k < 8 →
    o < 2 ^ 29 → s.dbgAddr = BitVec.ofNat 32 (k * 2 ^ 29 + o) →
    step s = .next { s with inputs := rest, rdata :=
      if s.planeProv.getLsbD k = true ∧ o < s.params.planeCap then 0#24 ++ s.readPM k o else 0#32 }

/-- A register access that is not 32 bits wide or not at a multiple of 4 is refused by name (R48); an access beyond
the register space, or beyond OUT_CAP in OB, is a fault by name (R17, R38, R41; the model's choice, log 14). -/
def Obligations.BadAccessesStop : Prop :=
  ∀ (s : State) (width off : Nat) (v : Word) (b : Byte) (rest : List Input),
    ((width ≠ 32 ∨ off % 4 ≠ 0) → s.inputs = .write width off v :: rest ∨ s.inputs = .read width off :: rest →
      step s = .refused (.accessNotAligned32 width off)) ∧
    (0x1000 ≤ off → off % 4 = 0 → s.inputs = .write 32 off v :: rest ∨ s.inputs = .read 32 off :: rest →
      step s = .fault (.outsideRegisterSpace off)) ∧
    (s.params.outCap ≤ off → s.inputs = .writeOB off b :: rest ∨ s.inputs = .readOB off :: rest →
      step s = .fault (.outsideOB off))

/-- The host's own accesses to its two streams (R37, R38). Filling IB sets its bytes, and so its extent, and leaves all
else; a running command stays as accepted. A write of an OB byte sets that byte and no other. A read of OB returns the
byte and changes nothing else; while BUSY = 1 it returns an unspecified one (R55), a draw (logs 7, 15). -/
def Obligations.HostStreamAccesses : Prop :=
  ∀ (s : State) (rest : List Input),
    (∀ bytes, s.inputs = .setIB bytes :: rest → ∃ t, step s = .next t ∧
      t = { s with inputs := rest, ib := bytes, seq := t.seq } ∧ (s.seq = none → t.seq = none) ∧
      ∀ q, s.seq = some q → ∃ q', t.seq = some q' ∧ q' = { q with ibOld := q'.ibOld }) ∧
    (∀ a v, s.inputs = .writeOB a v :: rest → a < s.params.outCap → ∃ t, step s = .next t ∧
      t = { s with inputs := rest, ob := t.ob, seq := t.seq } ∧ t.ob.read a = v ∧
      (∀ b, b ≠ a → t.ob.read b = s.ob.read b) ∧ (s.seq = none → t.seq = none) ∧
      ∀ q, s.seq = some q → ∃ q', t.seq = some q' ∧ q' = { q with obRaced := q'.obRaced }) ∧
    (∀ a, s.inputs = .readOB a :: rest → a < s.params.outCap →
      (s.seq = none → step s = .next { s with inputs := rest, obData := s.ob.read a }) ∧
      (s.seq ≠ none → ∃ x, step s = .next { s with inputs := rest, obData := x, epoch := s.epoch + 1 }))

/-- The races a host may run with a SPLIT or an UNSPLIT accepted in READY (R153, R154). Between its acceptance and its
completion the host fills IB and writes OB bytes, any number of times. The completion is then what the command alone
does on an input `ib` and on OB as the host left it (`m.ob`), but for the OB bytes that the host wrote: each of them is
the host's byte or the pass's. `ib` comes from what IB held since acceptance: its extent lies between the least and the
greatest, and each of its bytes is one that its offset held. That every such choice is the draw of Config named here,
one for each pass and offset, is the model's reading (logs 7, 11, 12). -/
def Obligations.RacesAreDraws : Prop :=
  ∀ (i : Instr) (s : State) (es rest : List Input), i = .split ∨ i = .unsplit → s.seq = none → s.lifecycle = .ready →
    (∀ e ∈ es, e.races s.params) → s.inputs = .start (encode i) false :: (es ++ .complete :: rest) →
    ∃ m t u ib least most,
      Host.Core.run Sys2Proof.core (es.length + 1) s = .next m ∧ m.busy = true ∧ step m = .next t ∧
      exec i { s with ib := ib, ob := m.ob } = .next u ∧ t = { u with ob := t.ob, ib := m.ib, inputs := rest } ∧
      (∃ v ∈ heldIB s.ib es, v.length = least) ∧ (∃ v ∈ heldIB s.ib es, v.length = most) ∧
      (∀ v ∈ heldIB s.ib es, least ≤ v.length ∧ v.length ≤ most) ∧ least ≤ ib.length ∧ ib.length ≤ most ∧
      ib.length = least + Config.raceExtent s.epoch % (most - least + 1) ∧
      (∀ a < ib.length, (∃ v ∈ heldIB s.ib es, ib[a]? = v[a]?) ∧
        let held := (heldIB s.ib es).filterMap fun v => v[a]?
        ib[a]? = held[Config.raceIB s.epoch a % held.length]?) ∧
      (∀ a, (∀ v, .writeOB a v ∉ es) → t.ob.read a = u.ob.read a) ∧
      ∀ a v, .writeOB a v ∈ es → (t.ob.read a = m.ob.read a ∨ t.ob.read a = u.ob.read a) ∧
        (u.err = .noError →
          t.ob.read a = if Config.raceOB s.epoch a = true then m.ob.read a else u.ob.read a)

/-- The reset event (R150), at any time, whatever runs. The state takes the values of the reset table, of which no PROG_EV
and no REL pulse is the model's way to say deasserted (log 16). IB is untouched, and so is OB but for the bytes that an
interrupted pass would have written: none when no SPLIT or UNSPLIT accepted in READY is running, else those below its
output length. The length clipped to OUT_CAP, and taken as the longest where IB does not deliver the header of an
UNSPLIT, is the model's reading (log 13). PM is unspecified; plane bytes of a pass, also of the one abandoned, stay to be
wiped (R151, R160, log 28). -/
def Obligations.ResetEventLeaves : Prop :=
  ∀ (s : State) (rest : List Input), s.inputs = .reset :: rest → ∃ t, step s = .next t ∧ t.ResetTable ∧
    t.params = s.params ∧ t.ib = s.ib ∧
    (∀ a, s.params.outCap ≤ a → t.ob.read a = s.ob.read a) ∧
    (s.seq = none ∨ s.lifecycle ≠ .ready → (∀ a, t.ob.read a = s.ob.read a) ∧ t.residue = s.residue) ∧
    ∀ q, s.seq = some q → s.lifecycle = .ready →
      (decode q.word = .ok .split →
        (∀ a, (splitSize q.inLen.toNat).out ≤ a → t.ob.read a = s.ob.read a) ∧ t.wipedForReset = false) ∧
      (decode q.word = .ok .unsplit →
        (∀ h, unsplitHeaderByte q.inLen.toNat (s.deliveredIB q) = some h →
          ∀ a, (unsplitSize q.inLen.toNat (headerRem h)).out ≤ a → t.ob.read a = s.ob.read a) ∧
        (unsplitHeaderByte q.inLen.toNat (s.deliveredIB q) = none →
          ∀ a, (unsplitSize q.inLen.toNat 0).out ≤ a → t.ob.read a = s.ob.read a) ∧ t.wipedForReset = false) ∧
      (decode q.word ≠ .ok .split → decode q.word ≠ .ok .unsplit →
        (∀ a, t.ob.read a = s.ob.read a) ∧ t.residue = s.residue)

/-- The values of the reset table (R150) in the state right after reset. -/
def Obligations.ResetStateValues : Prop := State.reset.ResetTable

/-! ### Invariants that every step keeps -/

/-- The memories keep their canonical form. -/
def Obligations.MemoriesStayCanonical : Prop :=
  ∀ s t : State, s.MemoriesCanonical → step s = .next t → t.MemoriesCanonical

/-- Only bytes that exist are ever written (R41, R43, R44): every byte listed in PM is a byte of a plane, every byte
listed in OB lies below OUT_CAP. -/
def Obligations.OnlyExistingCellsAreWritten : Prop :=
  ∀ s t : State, s.CellsExist → step s = .next t → t.CellsExist

/-- BLK is zero and every position is 0 between commands (R34, R35, R86). -/
def Obligations.NothingInFlightBetweenCommands : Prop :=
  ∀ s t : State, s.Quiet → step s = .next t → t.Quiet

/-- In READY and FAILED all 8 planes are provisioned; in CLOSED all or none (R30, R89). -/
def Obligations.StorageFollowsLifecycle : Prop :=
  ∀ s t : State, s.StorageFollowsState → step s = .next t → t.StorageFollowsState

/-- Registers of a restricted range hold legal values: each key buffer has KEY_MAX bytes, each key length lies in
0..KEY_MAX (R26, R45), and PROGRESS.PERCENT in 0..100 (R25; after a pass error the bound is the model's choice,
log 20). -/
def Obligations.RegistersStayLegal : Prop :=
  (∀ s t : State, s.KeysFit → step s = .next t → t.KeysFit) ∧
  ∀ s t : State, s.PercentLegal → step s = .next t → t.PercentLegal

/-- In CLOSED the keys, the results of passes and every plane byte stay wiped (R117, R121, R124). And in every state where
no wipe is owed, no byte of a pass is left in plane memory (R151, R160; the mark that says so is the model's, log 28). -/
def Obligations.ClosedStaysClean : Prop :=
  (∀ s t : State, s.ClosedIsClean → step s = .next t → t.ClosedIsClean) ∧
  ∀ s t : State, s.ResidueIsMarked → step s = .next t → t.ResidueIsMarked

/-- While BUSY = 1, DONE and ERRCODE are 0 and the sequencer holds what was latched at acceptance (R19, R36). That the
word held is always a command, never an illegal word, is the model's choice, and unsafe (log 21): it reads the "at once"
of R58 so. -/
def Obligations.BusyStaysAsAccepted : Prop :=
  ∀ s t : State, s.BusyAsAccepted → step s = .next t → t.BusyAsAccepted

/-- All 8 planes have the length PLANE_LEN, except in FAILED (R33, R134), and no length exceeds PLANE_CAP. -/
def Obligations.PlanesStayEqual : Prop :=
  ∀ s t : State, s.PlanesEqual ∧ s.PlanesFit → step s = .next t → t.PlanesEqual ∧ t.PlanesFit

/-- Every one of these invariants holds in the state right after reset. -/
def Obligations.InvariantsHoldAtReset : Prop :=
  State.reset.MemoriesCanonical ∧ State.reset.CellsExist ∧ State.reset.Quiet ∧ State.reset.StorageFollowsState ∧
  State.reset.KeysFit ∧ State.reset.ClosedIsClean ∧ State.reset.BusyAsAccepted ∧ State.reset.PlanesEqual ∧
  State.reset.PlanesFit ∧ State.reset.PercentLegal ∧ State.reset.ResidueIsMarked
end

