-- ==== Sys2Proof/Laws/State.lean ====
section
/-! SUPPORT. What each named update does to each field of State: one lemma per field per update. -/

namespace Sys2Proof.Machine

variable (s : State)

/-! ### `State.accept` -/

@[simp] theorem State.accept_lifecycle (w : Word) : (s.accept w).lifecycle = s.lifecycle := rfl
@[simp] theorem State.accept_done (w : Word) : (s.accept w).done = false := rfl
@[simp] theorem State.accept_ovr (w : Word) : (s.accept w).ovr = s.ovr := rfl
@[simp] theorem State.accept_err (w : Word) : (s.accept w).err = .noError := rfl
@[simp] theorem State.accept_seq (w : Word) : (s.accept w).seq = some (s.latch w) := rfl
@[simp] theorem State.accept_ctl (w : Word) : (s.accept w).ctl = s.ctl := rfl
@[simp] theorem State.accept_inLen (w : Word) : (s.accept w).inLen = s.inLen := rfl
@[simp] theorem State.accept_outLen (w : Word) : (s.accept w).outLen = s.outLen := rfl
@[simp] theorem State.accept_planeLen (w : Word) : (s.accept w).planeLen = s.planeLen := rfl
@[simp] theorem State.accept_n (w : Word) : (s.accept w).n = s.n := rfl
@[simp] theorem State.accept_hdr (w : Word) : (s.accept w).hdr = s.hdr := rfl
@[simp] theorem State.accept_progress (w : Word) : (s.accept w).progress = s.progress := rfl
@[simp] theorem State.accept_wipeSeed (w : Word) : (s.accept w).wipeSeed = s.wipeSeed := rfl
@[simp] theorem State.accept_planeProv (w : Word) : (s.accept w).planeProv = s.planeProv := rfl
@[simp] theorem State.accept_key1Len (w : Word) : (s.accept w).key1Len = s.key1Len := rfl
@[simp] theorem State.accept_key2Len (w : Word) : (s.accept w).key2Len = s.key2Len := rfl
@[simp] theorem State.accept_key1 (w : Word) : (s.accept w).key1 = s.key1 := rfl
@[simp] theorem State.accept_key2 (w : Word) : (s.accept w).key2 = s.key2 := rfl
@[simp] theorem State.accept_xdata0 (w : Word) : (s.accept w).xdata0 = s.xdata0 := rfl
@[simp] theorem State.accept_xdata1 (w : Word) : (s.accept w).xdata1 = s.xdata1 := rfl
@[simp] theorem State.accept_dbgAddr (w : Word) : (s.accept w).dbgAddr = s.dbgAddr := rfl
@[simp] theorem State.accept_pm (w : Word) : (s.accept w).pm = s.pm := rfl
@[simp] theorem State.accept_plen (w : Word) : (s.accept w).plen = s.plen := rfl
@[simp] theorem State.accept_ppos (w : Word) : (s.accept w).ppos = s.ppos := rfl
@[simp] theorem State.accept_blk (w : Word) : (s.accept w).blk = s.blk := rfl
@[simp] theorem State.accept_ipos (w : Word) : (s.accept w).ipos = s.ipos := rfl
@[simp] theorem State.accept_opos (w : Word) : (s.accept w).opos = s.opos := rfl
@[simp] theorem State.accept_wipes (w : Word) : (s.accept w).wipes = s.wipes := rfl
@[simp] theorem State.accept_ib (w : Word) : (s.accept w).ib = s.ib := rfl
@[simp] theorem State.accept_ob (w : Word) : (s.accept w).ob = s.ob := rfl
@[simp] theorem State.accept_progEv (w : Word) : (s.accept w).progEv = s.progEv := rfl
@[simp] theorem State.accept_rel (w : Word) : (s.accept w).rel = s.rel := rfl
@[simp] theorem State.accept_residue (w : Word) : (s.accept w).residue = s.residue := rfl
@[simp] theorem State.accept_rdata (w : Word) : (s.accept w).rdata = s.rdata := rfl
@[simp] theorem State.accept_obData (w : Word) : (s.accept w).obData = s.obData := rfl
@[simp] theorem State.accept_params (w : Word) : (s.accept w).params = s.params := rfl
@[simp] theorem State.accept_oraclePins (w : Word) : (s.accept w).oraclePins = s.oraclePins := rfl
@[simp] theorem State.accept_epoch (w : Word) : (s.accept w).epoch = s.epoch := rfl
@[simp] theorem State.accept_inputs (w : Word) : (s.accept w).inputs = s.inputs := rfl

/-! ### `State.complete` -/

@[simp] theorem State.complete_lifecycle (code : ErrCode) (st : Lifecycle) : (s.complete code st).lifecycle = st := rfl
@[simp] theorem State.complete_done (code : ErrCode) (st : Lifecycle) : (s.complete code st).done = true := rfl
@[simp] theorem State.complete_ovr (code : ErrCode) (st : Lifecycle) : (s.complete code st).ovr = s.ovr := rfl
@[simp] theorem State.complete_err (code : ErrCode) (st : Lifecycle) : (s.complete code st).err = code := rfl
@[simp] theorem State.complete_seq (code : ErrCode) (st : Lifecycle) : (s.complete code st).seq = none := rfl
@[simp] theorem State.complete_ctl (code : ErrCode) (st : Lifecycle) : (s.complete code st).ctl = s.ctl := rfl
@[simp] theorem State.complete_inLen (code : ErrCode) (st : Lifecycle) : (s.complete code st).inLen = s.inLen := rfl
@[simp] theorem State.complete_outLen (code : ErrCode) (st : Lifecycle) : (s.complete code st).outLen = s.outLen := rfl
@[simp] theorem State.complete_planeLen (code : ErrCode) (st : Lifecycle) : (s.complete code st).planeLen = s.planeLen := rfl
@[simp] theorem State.complete_n (code : ErrCode) (st : Lifecycle) : (s.complete code st).n = s.n := rfl
@[simp] theorem State.complete_hdr (code : ErrCode) (st : Lifecycle) : (s.complete code st).hdr = s.hdr := rfl
@[simp] theorem State.complete_progress (code : ErrCode) (st : Lifecycle) : (s.complete code st).progress = s.progress := rfl
@[simp] theorem State.complete_wipeSeed (code : ErrCode) (st : Lifecycle) : (s.complete code st).wipeSeed = s.wipeSeed := rfl
@[simp] theorem State.complete_planeProv (code : ErrCode) (st : Lifecycle) : (s.complete code st).planeProv = s.planeProv := rfl
@[simp] theorem State.complete_key1Len (code : ErrCode) (st : Lifecycle) : (s.complete code st).key1Len = s.key1Len := rfl
@[simp] theorem State.complete_key2Len (code : ErrCode) (st : Lifecycle) : (s.complete code st).key2Len = s.key2Len := rfl
@[simp] theorem State.complete_key1 (code : ErrCode) (st : Lifecycle) : (s.complete code st).key1 = s.key1 := rfl
@[simp] theorem State.complete_key2 (code : ErrCode) (st : Lifecycle) : (s.complete code st).key2 = s.key2 := rfl
@[simp] theorem State.complete_xdata0 (code : ErrCode) (st : Lifecycle) : (s.complete code st).xdata0 = s.xdata0 := rfl
@[simp] theorem State.complete_xdata1 (code : ErrCode) (st : Lifecycle) : (s.complete code st).xdata1 = s.xdata1 := rfl
@[simp] theorem State.complete_dbgAddr (code : ErrCode) (st : Lifecycle) : (s.complete code st).dbgAddr = s.dbgAddr := rfl
@[simp] theorem State.complete_pm (code : ErrCode) (st : Lifecycle) : (s.complete code st).pm = s.pm := rfl
@[simp] theorem State.complete_plen (code : ErrCode) (st : Lifecycle) : (s.complete code st).plen = s.plen := rfl
@[simp] theorem State.complete_ppos (code : ErrCode) (st : Lifecycle) : (s.complete code st).ppos = s.ppos := rfl
@[simp] theorem State.complete_blk (code : ErrCode) (st : Lifecycle) : (s.complete code st).blk = s.blk := rfl
@[simp] theorem State.complete_ipos (code : ErrCode) (st : Lifecycle) : (s.complete code st).ipos = s.ipos := rfl
@[simp] theorem State.complete_opos (code : ErrCode) (st : Lifecycle) : (s.complete code st).opos = s.opos := rfl
@[simp] theorem State.complete_wipes (code : ErrCode) (st : Lifecycle) : (s.complete code st).wipes = s.wipes := rfl
@[simp] theorem State.complete_ib (code : ErrCode) (st : Lifecycle) : (s.complete code st).ib = s.ib := rfl
@[simp] theorem State.complete_ob (code : ErrCode) (st : Lifecycle) : (s.complete code st).ob = s.ob := rfl
@[simp] theorem State.complete_progEv (code : ErrCode) (st : Lifecycle) : (s.complete code st).progEv = s.progEv := rfl
@[simp] theorem State.complete_rel (code : ErrCode) (st : Lifecycle) : (s.complete code st).rel = s.rel := rfl
@[simp] theorem State.complete_residue (code : ErrCode) (st : Lifecycle) : (s.complete code st).residue = s.residue := rfl
@[simp] theorem State.complete_rdata (code : ErrCode) (st : Lifecycle) : (s.complete code st).rdata = s.rdata := rfl
@[simp] theorem State.complete_obData (code : ErrCode) (st : Lifecycle) : (s.complete code st).obData = s.obData := rfl
@[simp] theorem State.complete_params (code : ErrCode) (st : Lifecycle) : (s.complete code st).params = s.params := rfl
@[simp] theorem State.complete_oraclePins (code : ErrCode) (st : Lifecycle) : (s.complete code st).oraclePins = s.oraclePins := rfl
@[simp] theorem State.complete_epoch (code : ErrCode) (st : Lifecycle) : (s.complete code st).epoch = s.epoch := rfl
@[simp] theorem State.complete_inputs (code : ErrCode) (st : Lifecycle) : (s.complete code st).inputs = s.inputs := rfl

/-! ### `State.acknowledge` -/

@[simp] theorem State.acknowledge_lifecycle (v : Word) : (s.acknowledge v).lifecycle = s.lifecycle := rfl
@[simp] theorem State.acknowledge_done (v : Word) : (s.acknowledge v).done = (s.done && !v.getLsbD 3) := rfl
@[simp] theorem State.acknowledge_ovr (v : Word) : (s.acknowledge v).ovr = (s.ovr && !v.getLsbD 4) := rfl
@[simp] theorem State.acknowledge_err (v : Word) : (s.acknowledge v).err = s.err := rfl
@[simp] theorem State.acknowledge_seq (v : Word) : (s.acknowledge v).seq = s.seq := rfl
@[simp] theorem State.acknowledge_ctl (v : Word) : (s.acknowledge v).ctl = s.ctl := rfl
@[simp] theorem State.acknowledge_inLen (v : Word) : (s.acknowledge v).inLen = s.inLen := rfl
@[simp] theorem State.acknowledge_outLen (v : Word) : (s.acknowledge v).outLen = s.outLen := rfl
@[simp] theorem State.acknowledge_planeLen (v : Word) : (s.acknowledge v).planeLen = s.planeLen := rfl
@[simp] theorem State.acknowledge_n (v : Word) : (s.acknowledge v).n = s.n := rfl
@[simp] theorem State.acknowledge_hdr (v : Word) : (s.acknowledge v).hdr = s.hdr := rfl
@[simp] theorem State.acknowledge_progress (v : Word) : (s.acknowledge v).progress = s.progress := rfl
@[simp] theorem State.acknowledge_wipeSeed (v : Word) : (s.acknowledge v).wipeSeed = s.wipeSeed := rfl
@[simp] theorem State.acknowledge_planeProv (v : Word) : (s.acknowledge v).planeProv = s.planeProv := rfl
@[simp] theorem State.acknowledge_key1Len (v : Word) : (s.acknowledge v).key1Len = s.key1Len := rfl
@[simp] theorem State.acknowledge_key2Len (v : Word) : (s.acknowledge v).key2Len = s.key2Len := rfl
@[simp] theorem State.acknowledge_key1 (v : Word) : (s.acknowledge v).key1 = s.key1 := rfl
@[simp] theorem State.acknowledge_key2 (v : Word) : (s.acknowledge v).key2 = s.key2 := rfl
@[simp] theorem State.acknowledge_xdata0 (v : Word) : (s.acknowledge v).xdata0 = s.xdata0 := rfl
@[simp] theorem State.acknowledge_xdata1 (v : Word) : (s.acknowledge v).xdata1 = s.xdata1 := rfl
@[simp] theorem State.acknowledge_dbgAddr (v : Word) : (s.acknowledge v).dbgAddr = s.dbgAddr := rfl
@[simp] theorem State.acknowledge_pm (v : Word) : (s.acknowledge v).pm = s.pm := rfl
@[simp] theorem State.acknowledge_plen (v : Word) : (s.acknowledge v).plen = s.plen := rfl
@[simp] theorem State.acknowledge_ppos (v : Word) : (s.acknowledge v).ppos = s.ppos := rfl
@[simp] theorem State.acknowledge_blk (v : Word) : (s.acknowledge v).blk = s.blk := rfl
@[simp] theorem State.acknowledge_ipos (v : Word) : (s.acknowledge v).ipos = s.ipos := rfl
@[simp] theorem State.acknowledge_opos (v : Word) : (s.acknowledge v).opos = s.opos := rfl
@[simp] theorem State.acknowledge_wipes (v : Word) : (s.acknowledge v).wipes = s.wipes := rfl
@[simp] theorem State.acknowledge_ib (v : Word) : (s.acknowledge v).ib = s.ib := rfl
@[simp] theorem State.acknowledge_ob (v : Word) : (s.acknowledge v).ob = s.ob := rfl
@[simp] theorem State.acknowledge_progEv (v : Word) : (s.acknowledge v).progEv = s.progEv := rfl
@[simp] theorem State.acknowledge_rel (v : Word) : (s.acknowledge v).rel = s.rel := rfl
@[simp] theorem State.acknowledge_residue (v : Word) : (s.acknowledge v).residue = s.residue := rfl
@[simp] theorem State.acknowledge_rdata (v : Word) : (s.acknowledge v).rdata = s.rdata := rfl
@[simp] theorem State.acknowledge_obData (v : Word) : (s.acknowledge v).obData = s.obData := rfl
@[simp] theorem State.acknowledge_params (v : Word) : (s.acknowledge v).params = s.params := rfl
@[simp] theorem State.acknowledge_oraclePins (v : Word) : (s.acknowledge v).oraclePins = s.oraclePins := rfl
@[simp] theorem State.acknowledge_epoch (v : Word) : (s.acknowledge v).epoch = s.epoch := rfl
@[simp] theorem State.acknowledge_inputs (v : Word) : (s.acknowledge v).inputs = s.inputs := rfl

/-! ### `State.emit` -/

@[simp] theorem State.emit_lifecycle (r : Progress) : (s.emit r).lifecycle = s.lifecycle := rfl
@[simp] theorem State.emit_done (r : Progress) : (s.emit r).done = s.done := rfl
@[simp] theorem State.emit_ovr (r : Progress) : (s.emit r).ovr = s.ovr := rfl
@[simp] theorem State.emit_err (r : Progress) : (s.emit r).err = s.err := rfl
@[simp] theorem State.emit_seq (r : Progress) : (s.emit r).seq = s.seq := rfl
@[simp] theorem State.emit_ctl (r : Progress) : (s.emit r).ctl = s.ctl := rfl
@[simp] theorem State.emit_inLen (r : Progress) : (s.emit r).inLen = s.inLen := rfl
@[simp] theorem State.emit_outLen (r : Progress) : (s.emit r).outLen = s.outLen := rfl
@[simp] theorem State.emit_planeLen (r : Progress) : (s.emit r).planeLen = s.planeLen := rfl
@[simp] theorem State.emit_n (r : Progress) : (s.emit r).n = s.n := rfl
@[simp] theorem State.emit_hdr (r : Progress) : (s.emit r).hdr = s.hdr := rfl
@[simp] theorem State.emit_progress (r : Progress) : (s.emit r).progress = r := rfl
@[simp] theorem State.emit_wipeSeed (r : Progress) : (s.emit r).wipeSeed = s.wipeSeed := rfl
@[simp] theorem State.emit_planeProv (r : Progress) : (s.emit r).planeProv = s.planeProv := rfl
@[simp] theorem State.emit_key1Len (r : Progress) : (s.emit r).key1Len = s.key1Len := rfl
@[simp] theorem State.emit_key2Len (r : Progress) : (s.emit r).key2Len = s.key2Len := rfl
@[simp] theorem State.emit_key1 (r : Progress) : (s.emit r).key1 = s.key1 := rfl
@[simp] theorem State.emit_key2 (r : Progress) : (s.emit r).key2 = s.key2 := rfl
@[simp] theorem State.emit_xdata0 (r : Progress) : (s.emit r).xdata0 = s.xdata0 := rfl
@[simp] theorem State.emit_xdata1 (r : Progress) : (s.emit r).xdata1 = s.xdata1 := rfl
@[simp] theorem State.emit_dbgAddr (r : Progress) : (s.emit r).dbgAddr = s.dbgAddr := rfl
@[simp] theorem State.emit_pm (r : Progress) : (s.emit r).pm = s.pm := rfl
@[simp] theorem State.emit_plen (r : Progress) : (s.emit r).plen = s.plen := rfl
@[simp] theorem State.emit_ppos (r : Progress) : (s.emit r).ppos = s.ppos := rfl
@[simp] theorem State.emit_blk (r : Progress) : (s.emit r).blk = s.blk := rfl
@[simp] theorem State.emit_ipos (r : Progress) : (s.emit r).ipos = s.ipos := rfl
@[simp] theorem State.emit_opos (r : Progress) : (s.emit r).opos = s.opos := rfl
@[simp] theorem State.emit_wipes (r : Progress) : (s.emit r).wipes = s.wipes := rfl
@[simp] theorem State.emit_ib (r : Progress) : (s.emit r).ib = s.ib := rfl
@[simp] theorem State.emit_ob (r : Progress) : (s.emit r).ob = s.ob := rfl
@[simp] theorem State.emit_progEv (r : Progress) : (s.emit r).progEv = s.progEv ++ [r] := rfl
@[simp] theorem State.emit_rel (r : Progress) : (s.emit r).rel = s.rel := rfl
@[simp] theorem State.emit_residue (r : Progress) : (s.emit r).residue = s.residue := rfl
@[simp] theorem State.emit_rdata (r : Progress) : (s.emit r).rdata = s.rdata := rfl
@[simp] theorem State.emit_obData (r : Progress) : (s.emit r).obData = s.obData := rfl
@[simp] theorem State.emit_params (r : Progress) : (s.emit r).params = s.params := rfl
@[simp] theorem State.emit_oraclePins (r : Progress) : (s.emit r).oraclePins = s.oraclePins := rfl
@[simp] theorem State.emit_epoch (r : Progress) : (s.emit r).epoch = s.epoch := rfl
@[simp] theorem State.emit_inputs (r : Progress) : (s.emit r).inputs = s.inputs := rfl

/-! ### `State.startPass` -/

@[simp] theorem State.startPass_lifecycle (i : Nat) : (s.startPass i).lifecycle = s.lifecycle := rfl
@[simp] theorem State.startPass_done (i : Nat) : (s.startPass i).done = s.done := rfl
@[simp] theorem State.startPass_ovr (i : Nat) : (s.startPass i).ovr = s.ovr := rfl
@[simp] theorem State.startPass_err (i : Nat) : (s.startPass i).err = s.err := rfl
@[simp] theorem State.startPass_seq (i : Nat) : (s.startPass i).seq = s.seq := rfl
@[simp] theorem State.startPass_ctl (i : Nat) : (s.startPass i).ctl = s.ctl := rfl
@[simp] theorem State.startPass_inLen (i : Nat) : (s.startPass i).inLen = s.inLen := rfl
@[simp] theorem State.startPass_outLen (i : Nat) : (s.startPass i).outLen = s.outLen := rfl
@[simp] theorem State.startPass_planeLen (i : Nat) : (s.startPass i).planeLen = s.planeLen := rfl
@[simp] theorem State.startPass_n (i : Nat) : (s.startPass i).n = s.n := rfl
@[simp] theorem State.startPass_hdr (i : Nat) : (s.startPass i).hdr = s.hdr := rfl
@[simp] theorem State.startPass_progress (i : Nat) : (s.startPass i).progress = s.progress := rfl
@[simp] theorem State.startPass_wipeSeed (i : Nat) : (s.startPass i).wipeSeed = s.wipeSeed := rfl
@[simp] theorem State.startPass_planeProv (i : Nat) : (s.startPass i).planeProv = s.planeProv := rfl
@[simp] theorem State.startPass_key1Len (i : Nat) : (s.startPass i).key1Len = s.key1Len := rfl
@[simp] theorem State.startPass_key2Len (i : Nat) : (s.startPass i).key2Len = s.key2Len := rfl
@[simp] theorem State.startPass_key1 (i : Nat) : (s.startPass i).key1 = s.key1 := rfl
@[simp] theorem State.startPass_key2 (i : Nat) : (s.startPass i).key2 = s.key2 := rfl
@[simp] theorem State.startPass_xdata0 (i : Nat) : (s.startPass i).xdata0 = s.xdata0 := rfl
@[simp] theorem State.startPass_xdata1 (i : Nat) : (s.startPass i).xdata1 = s.xdata1 := rfl
@[simp] theorem State.startPass_dbgAddr (i : Nat) : (s.startPass i).dbgAddr = s.dbgAddr := rfl
@[simp] theorem State.startPass_pm (i : Nat) : (s.startPass i).pm = s.pm := rfl
@[simp] theorem State.startPass_plen (i : Nat) : (s.startPass i).plen = Vector.replicate 8 0 := rfl
@[simp] theorem State.startPass_ppos (i : Nat) : (s.startPass i).ppos = Vector.replicate 8 0 := rfl
@[simp] theorem State.startPass_blk (i : Nat) : (s.startPass i).blk = s.blk := rfl
@[simp] theorem State.startPass_ipos (i : Nat) : (s.startPass i).ipos = i := rfl
@[simp] theorem State.startPass_opos (i : Nat) : (s.startPass i).opos = 0 := rfl
@[simp] theorem State.startPass_wipes (i : Nat) : (s.startPass i).wipes = s.wipes := rfl
@[simp] theorem State.startPass_ib (i : Nat) : (s.startPass i).ib = s.ib := rfl
@[simp] theorem State.startPass_ob (i : Nat) : (s.startPass i).ob = s.ob := rfl
@[simp] theorem State.startPass_progEv (i : Nat) : (s.startPass i).progEv = s.progEv := rfl
@[simp] theorem State.startPass_rel (i : Nat) : (s.startPass i).rel = s.rel := rfl
@[simp] theorem State.startPass_residue (i : Nat) : (s.startPass i).residue = s.residue := rfl
@[simp] theorem State.startPass_rdata (i : Nat) : (s.startPass i).rdata = s.rdata := rfl
@[simp] theorem State.startPass_obData (i : Nat) : (s.startPass i).obData = s.obData := rfl
@[simp] theorem State.startPass_params (i : Nat) : (s.startPass i).params = s.params := rfl
@[simp] theorem State.startPass_oraclePins (i : Nat) : (s.startPass i).oraclePins = s.oraclePins := rfl
@[simp] theorem State.startPass_epoch (i : Nat) : (s.startPass i).epoch = s.epoch := rfl
@[simp] theorem State.startPass_inputs (i : Nat) : (s.startPass i).inputs = s.inputs := rfl

/-! ### `State.endOfPass` -/

@[simp] theorem State.endOfPass_lifecycle : (s.endOfPass).lifecycle = s.lifecycle := rfl
@[simp] theorem State.endOfPass_done : (s.endOfPass).done = s.done := rfl
@[simp] theorem State.endOfPass_ovr : (s.endOfPass).ovr = s.ovr := rfl
@[simp] theorem State.endOfPass_err : (s.endOfPass).err = s.err := rfl
@[simp] theorem State.endOfPass_seq : (s.endOfPass).seq = s.seq := rfl
@[simp] theorem State.endOfPass_ctl : (s.endOfPass).ctl = s.ctl := rfl
@[simp] theorem State.endOfPass_inLen : (s.endOfPass).inLen = s.inLen := rfl
@[simp] theorem State.endOfPass_outLen : (s.endOfPass).outLen = s.outLen := rfl
@[simp] theorem State.endOfPass_planeLen : (s.endOfPass).planeLen = s.planeLen := rfl
@[simp] theorem State.endOfPass_n : (s.endOfPass).n = s.n := rfl
@[simp] theorem State.endOfPass_hdr : (s.endOfPass).hdr = s.hdr := rfl
@[simp] theorem State.endOfPass_progress : (s.endOfPass).progress = s.progress := rfl
@[simp] theorem State.endOfPass_wipeSeed : (s.endOfPass).wipeSeed = s.wipeSeed := rfl
@[simp] theorem State.endOfPass_planeProv : (s.endOfPass).planeProv = s.planeProv := rfl
@[simp] theorem State.endOfPass_key1Len : (s.endOfPass).key1Len = s.key1Len := rfl
@[simp] theorem State.endOfPass_key2Len : (s.endOfPass).key2Len = s.key2Len := rfl
@[simp] theorem State.endOfPass_key1 : (s.endOfPass).key1 = s.key1 := rfl
@[simp] theorem State.endOfPass_key2 : (s.endOfPass).key2 = s.key2 := rfl
@[simp] theorem State.endOfPass_xdata0 : (s.endOfPass).xdata0 = s.xdata0 := rfl
@[simp] theorem State.endOfPass_xdata1 : (s.endOfPass).xdata1 = s.xdata1 := rfl
@[simp] theorem State.endOfPass_dbgAddr : (s.endOfPass).dbgAddr = s.dbgAddr := rfl
@[simp] theorem State.endOfPass_pm : (s.endOfPass).pm = s.pm := rfl
@[simp] theorem State.endOfPass_plen : (s.endOfPass).plen = s.plen := rfl
@[simp] theorem State.endOfPass_ppos : (s.endOfPass).ppos = Vector.replicate 8 0 := rfl
@[simp] theorem State.endOfPass_blk : (s.endOfPass).blk = Vector.replicate 8 0#8 := rfl
@[simp] theorem State.endOfPass_ipos : (s.endOfPass).ipos = 0 := rfl
@[simp] theorem State.endOfPass_opos : (s.endOfPass).opos = 0 := rfl
@[simp] theorem State.endOfPass_wipes : (s.endOfPass).wipes = s.wipes := rfl
@[simp] theorem State.endOfPass_ib : (s.endOfPass).ib = s.ib := rfl
@[simp] theorem State.endOfPass_ob : (s.endOfPass).ob = s.ob := rfl
@[simp] theorem State.endOfPass_progEv : (s.endOfPass).progEv = s.progEv := rfl
@[simp] theorem State.endOfPass_rel : (s.endOfPass).rel = s.rel := rfl
@[simp] theorem State.endOfPass_residue : (s.endOfPass).residue = s.residue := rfl
@[simp] theorem State.endOfPass_rdata : (s.endOfPass).rdata = s.rdata := rfl
@[simp] theorem State.endOfPass_obData : (s.endOfPass).obData = s.obData := rfl
@[simp] theorem State.endOfPass_params : (s.endOfPass).params = s.params := rfl
@[simp] theorem State.endOfPass_oraclePins : (s.endOfPass).oraclePins = s.oraclePins := rfl
@[simp] theorem State.endOfPass_epoch : (s.endOfPass).epoch = s.epoch := rfl
@[simp] theorem State.endOfPass_inputs : (s.endOfPass).inputs = s.inputs := rfl

/-! ### `State.passResults` -/

@[simp] theorem State.passResults_lifecycle (z : PassSize) (h : Byte) : (s.passResults z h).lifecycle = s.lifecycle := rfl
@[simp] theorem State.passResults_done (z : PassSize) (h : Byte) : (s.passResults z h).done = s.done := rfl
@[simp] theorem State.passResults_ovr (z : PassSize) (h : Byte) : (s.passResults z h).ovr = s.ovr := rfl
@[simp] theorem State.passResults_err (z : PassSize) (h : Byte) : (s.passResults z h).err = s.err := rfl
@[simp] theorem State.passResults_seq (z : PassSize) (h : Byte) : (s.passResults z h).seq = s.seq := rfl
@[simp] theorem State.passResults_ctl (z : PassSize) (h : Byte) : (s.passResults z h).ctl = s.ctl := rfl
@[simp] theorem State.passResults_inLen (z : PassSize) (h : Byte) : (s.passResults z h).inLen = s.inLen := rfl
@[simp] theorem State.passResults_outLen (z : PassSize) (h : Byte) : (s.passResults z h).outLen = BitVec.ofNat 32 s.opos := rfl
@[simp] theorem State.passResults_planeLen (z : PassSize) (h : Byte) : (s.passResults z h).planeLen = BitVec.ofNat 32 z.planes := rfl
@[simp] theorem State.passResults_n (z : PassSize) (h : Byte) : (s.passResults z h).n = s.n := rfl
@[simp] theorem State.passResults_hdr (z : PassSize) (h : Byte) : (s.passResults z h).hdr = passHdr z h := rfl
@[simp] theorem State.passResults_progress (z : PassSize) (h : Byte) : (s.passResults z h).progress = s.progress := rfl
@[simp] theorem State.passResults_wipeSeed (z : PassSize) (h : Byte) : (s.passResults z h).wipeSeed = s.wipeSeed := rfl
@[simp] theorem State.passResults_planeProv (z : PassSize) (h : Byte) : (s.passResults z h).planeProv = s.planeProv := rfl
@[simp] theorem State.passResults_key1Len (z : PassSize) (h : Byte) : (s.passResults z h).key1Len = s.key1Len := rfl
@[simp] theorem State.passResults_key2Len (z : PassSize) (h : Byte) : (s.passResults z h).key2Len = s.key2Len := rfl
@[simp] theorem State.passResults_key1 (z : PassSize) (h : Byte) : (s.passResults z h).key1 = s.key1 := rfl
@[simp] theorem State.passResults_key2 (z : PassSize) (h : Byte) : (s.passResults z h).key2 = s.key2 := rfl
@[simp] theorem State.passResults_xdata0 (z : PassSize) (h : Byte) : (s.passResults z h).xdata0 = s.xdata0 := rfl
@[simp] theorem State.passResults_xdata1 (z : PassSize) (h : Byte) : (s.passResults z h).xdata1 = s.xdata1 := rfl
@[simp] theorem State.passResults_dbgAddr (z : PassSize) (h : Byte) : (s.passResults z h).dbgAddr = s.dbgAddr := rfl
@[simp] theorem State.passResults_pm (z : PassSize) (h : Byte) : (s.passResults z h).pm = s.pm := rfl
@[simp] theorem State.passResults_plen (z : PassSize) (h : Byte) : (s.passResults z h).plen = s.plen := rfl
@[simp] theorem State.passResults_ppos (z : PassSize) (h : Byte) : (s.passResults z h).ppos = s.ppos := rfl
@[simp] theorem State.passResults_blk (z : PassSize) (h : Byte) : (s.passResults z h).blk = s.blk := rfl
@[simp] theorem State.passResults_ipos (z : PassSize) (h : Byte) : (s.passResults z h).ipos = s.ipos := rfl
@[simp] theorem State.passResults_opos (z : PassSize) (h : Byte) : (s.passResults z h).opos = s.opos := rfl
@[simp] theorem State.passResults_wipes (z : PassSize) (h : Byte) : (s.passResults z h).wipes = s.wipes := rfl
@[simp] theorem State.passResults_ib (z : PassSize) (h : Byte) : (s.passResults z h).ib = s.ib := rfl
@[simp] theorem State.passResults_ob (z : PassSize) (h : Byte) : (s.passResults z h).ob = s.ob := rfl
@[simp] theorem State.passResults_progEv (z : PassSize) (h : Byte) : (s.passResults z h).progEv = s.progEv := rfl
@[simp] theorem State.passResults_rel (z : PassSize) (h : Byte) : (s.passResults z h).rel = s.rel := rfl
@[simp] theorem State.passResults_residue (z : PassSize) (h : Byte) : (s.passResults z h).residue = s.residue := rfl
@[simp] theorem State.passResults_rdata (z : PassSize) (h : Byte) : (s.passResults z h).rdata = s.rdata := rfl
@[simp] theorem State.passResults_obData (z : PassSize) (h : Byte) : (s.passResults z h).obData = s.obData := rfl
@[simp] theorem State.passResults_params (z : PassSize) (h : Byte) : (s.passResults z h).params = s.params := rfl
@[simp] theorem State.passResults_oraclePins (z : PassSize) (h : Byte) : (s.passResults z h).oraclePins = s.oraclePins := rfl
@[simp] theorem State.passResults_epoch (z : PassSize) (h : Byte) : (s.passResults z h).epoch = s.epoch := rfl
@[simp] theorem State.passResults_inputs (z : PassSize) (h : Byte) : (s.passResults z h).inputs = s.inputs := rfl

/-! ### `State.writePM` -/

@[simp] theorem State.writePM_lifecycle (k o : Nat) (v : Byte) : (s.writePM k o v).lifecycle = s.lifecycle := rfl
@[simp] theorem State.writePM_done (k o : Nat) (v : Byte) : (s.writePM k o v).done = s.done := rfl
@[simp] theorem State.writePM_ovr (k o : Nat) (v : Byte) : (s.writePM k o v).ovr = s.ovr := rfl
@[simp] theorem State.writePM_err (k o : Nat) (v : Byte) : (s.writePM k o v).err = s.err := rfl
@[simp] theorem State.writePM_seq (k o : Nat) (v : Byte) : (s.writePM k o v).seq = s.seq := rfl
@[simp] theorem State.writePM_ctl (k o : Nat) (v : Byte) : (s.writePM k o v).ctl = s.ctl := rfl
@[simp] theorem State.writePM_inLen (k o : Nat) (v : Byte) : (s.writePM k o v).inLen = s.inLen := rfl
@[simp] theorem State.writePM_outLen (k o : Nat) (v : Byte) : (s.writePM k o v).outLen = s.outLen := rfl
@[simp] theorem State.writePM_planeLen (k o : Nat) (v : Byte) : (s.writePM k o v).planeLen = s.planeLen := rfl
@[simp] theorem State.writePM_n (k o : Nat) (v : Byte) : (s.writePM k o v).n = s.n := rfl
@[simp] theorem State.writePM_hdr (k o : Nat) (v : Byte) : (s.writePM k o v).hdr = s.hdr := rfl
@[simp] theorem State.writePM_progress (k o : Nat) (v : Byte) : (s.writePM k o v).progress = s.progress := rfl
@[simp] theorem State.writePM_wipeSeed (k o : Nat) (v : Byte) : (s.writePM k o v).wipeSeed = s.wipeSeed := rfl
@[simp] theorem State.writePM_planeProv (k o : Nat) (v : Byte) : (s.writePM k o v).planeProv = s.planeProv := rfl
@[simp] theorem State.writePM_key1Len (k o : Nat) (v : Byte) : (s.writePM k o v).key1Len = s.key1Len := rfl
@[simp] theorem State.writePM_key2Len (k o : Nat) (v : Byte) : (s.writePM k o v).key2Len = s.key2Len := rfl
@[simp] theorem State.writePM_key1 (k o : Nat) (v : Byte) : (s.writePM k o v).key1 = s.key1 := rfl
@[simp] theorem State.writePM_key2 (k o : Nat) (v : Byte) : (s.writePM k o v).key2 = s.key2 := rfl
@[simp] theorem State.writePM_xdata0 (k o : Nat) (v : Byte) : (s.writePM k o v).xdata0 = s.xdata0 := rfl
@[simp] theorem State.writePM_xdata1 (k o : Nat) (v : Byte) : (s.writePM k o v).xdata1 = s.xdata1 := rfl
@[simp] theorem State.writePM_dbgAddr (k o : Nat) (v : Byte) : (s.writePM k o v).dbgAddr = s.dbgAddr := rfl
@[simp] theorem State.writePM_pm (k o : Nat) (v : Byte) : (s.writePM k o v).pm = s.pm.write (pmKey k o) v := rfl
@[simp] theorem State.writePM_plen (k o : Nat) (v : Byte) : (s.writePM k o v).plen = s.plen := rfl
@[simp] theorem State.writePM_ppos (k o : Nat) (v : Byte) : (s.writePM k o v).ppos = s.ppos := rfl
@[simp] theorem State.writePM_blk (k o : Nat) (v : Byte) : (s.writePM k o v).blk = s.blk := rfl
@[simp] theorem State.writePM_ipos (k o : Nat) (v : Byte) : (s.writePM k o v).ipos = s.ipos := rfl
@[simp] theorem State.writePM_opos (k o : Nat) (v : Byte) : (s.writePM k o v).opos = s.opos := rfl
@[simp] theorem State.writePM_wipes (k o : Nat) (v : Byte) : (s.writePM k o v).wipes = s.wipes := rfl
@[simp] theorem State.writePM_ib (k o : Nat) (v : Byte) : (s.writePM k o v).ib = s.ib := rfl
@[simp] theorem State.writePM_ob (k o : Nat) (v : Byte) : (s.writePM k o v).ob = s.ob := rfl
@[simp] theorem State.writePM_progEv (k o : Nat) (v : Byte) : (s.writePM k o v).progEv = s.progEv := rfl
@[simp] theorem State.writePM_rel (k o : Nat) (v : Byte) : (s.writePM k o v).rel = s.rel := rfl
@[simp] theorem State.writePM_residue (k o : Nat) (v : Byte) : (s.writePM k o v).residue = s.residue := rfl
@[simp] theorem State.writePM_rdata (k o : Nat) (v : Byte) : (s.writePM k o v).rdata = s.rdata := rfl
@[simp] theorem State.writePM_obData (k o : Nat) (v : Byte) : (s.writePM k o v).obData = s.obData := rfl
@[simp] theorem State.writePM_params (k o : Nat) (v : Byte) : (s.writePM k o v).params = s.params := rfl
@[simp] theorem State.writePM_oraclePins (k o : Nat) (v : Byte) : (s.writePM k o v).oraclePins = s.oraclePins := rfl
@[simp] theorem State.writePM_epoch (k o : Nat) (v : Byte) : (s.writePM k o v).epoch = s.epoch := rfl
@[simp] theorem State.writePM_inputs (k o : Nat) (v : Byte) : (s.writePM k o v).inputs = s.inputs := rfl

/-! ### `State.emitOB` -/

@[simp] theorem State.emitOB_lifecycle (v : Byte) : (s.emitOB v).lifecycle = s.lifecycle := rfl
@[simp] theorem State.emitOB_done (v : Byte) : (s.emitOB v).done = s.done := rfl
@[simp] theorem State.emitOB_ovr (v : Byte) : (s.emitOB v).ovr = s.ovr := rfl
@[simp] theorem State.emitOB_err (v : Byte) : (s.emitOB v).err = s.err := rfl
@[simp] theorem State.emitOB_seq (v : Byte) : (s.emitOB v).seq = s.seq := rfl
@[simp] theorem State.emitOB_ctl (v : Byte) : (s.emitOB v).ctl = s.ctl := rfl
@[simp] theorem State.emitOB_inLen (v : Byte) : (s.emitOB v).inLen = s.inLen := rfl
@[simp] theorem State.emitOB_outLen (v : Byte) : (s.emitOB v).outLen = s.outLen := rfl
@[simp] theorem State.emitOB_planeLen (v : Byte) : (s.emitOB v).planeLen = s.planeLen := rfl
@[simp] theorem State.emitOB_n (v : Byte) : (s.emitOB v).n = s.n := rfl
@[simp] theorem State.emitOB_hdr (v : Byte) : (s.emitOB v).hdr = s.hdr := rfl
@[simp] theorem State.emitOB_progress (v : Byte) : (s.emitOB v).progress = s.progress := rfl
@[simp] theorem State.emitOB_wipeSeed (v : Byte) : (s.emitOB v).wipeSeed = s.wipeSeed := rfl
@[simp] theorem State.emitOB_planeProv (v : Byte) : (s.emitOB v).planeProv = s.planeProv := rfl
@[simp] theorem State.emitOB_key1Len (v : Byte) : (s.emitOB v).key1Len = s.key1Len := rfl
@[simp] theorem State.emitOB_key2Len (v : Byte) : (s.emitOB v).key2Len = s.key2Len := rfl
@[simp] theorem State.emitOB_key1 (v : Byte) : (s.emitOB v).key1 = s.key1 := rfl
@[simp] theorem State.emitOB_key2 (v : Byte) : (s.emitOB v).key2 = s.key2 := rfl
@[simp] theorem State.emitOB_xdata0 (v : Byte) : (s.emitOB v).xdata0 = s.xdata0 := rfl
@[simp] theorem State.emitOB_xdata1 (v : Byte) : (s.emitOB v).xdata1 = s.xdata1 := rfl
@[simp] theorem State.emitOB_dbgAddr (v : Byte) : (s.emitOB v).dbgAddr = s.dbgAddr := rfl
@[simp] theorem State.emitOB_pm (v : Byte) : (s.emitOB v).pm = s.pm := rfl
@[simp] theorem State.emitOB_plen (v : Byte) : (s.emitOB v).plen = s.plen := rfl
@[simp] theorem State.emitOB_ppos (v : Byte) : (s.emitOB v).ppos = s.ppos := rfl
@[simp] theorem State.emitOB_blk (v : Byte) : (s.emitOB v).blk = s.blk := rfl
@[simp] theorem State.emitOB_ipos (v : Byte) : (s.emitOB v).ipos = s.ipos := rfl
@[simp] theorem State.emitOB_opos (v : Byte) : (s.emitOB v).opos = s.opos + 1 := rfl
@[simp] theorem State.emitOB_wipes (v : Byte) : (s.emitOB v).wipes = s.wipes := rfl
@[simp] theorem State.emitOB_ib (v : Byte) : (s.emitOB v).ib = s.ib := rfl
@[simp] theorem State.emitOB_ob (v : Byte) : (s.emitOB v).ob = s.ob.write s.opos v := rfl
@[simp] theorem State.emitOB_progEv (v : Byte) : (s.emitOB v).progEv = s.progEv := rfl
@[simp] theorem State.emitOB_rel (v : Byte) : (s.emitOB v).rel = s.rel := rfl
@[simp] theorem State.emitOB_residue (v : Byte) : (s.emitOB v).residue = s.residue := rfl
@[simp] theorem State.emitOB_rdata (v : Byte) : (s.emitOB v).rdata = s.rdata := rfl
@[simp] theorem State.emitOB_obData (v : Byte) : (s.emitOB v).obData = s.obData := rfl
@[simp] theorem State.emitOB_params (v : Byte) : (s.emitOB v).params = s.params := rfl
@[simp] theorem State.emitOB_oraclePins (v : Byte) : (s.emitOB v).oraclePins = s.oraclePins := rfl
@[simp] theorem State.emitOB_epoch (v : Byte) : (s.emitOB v).epoch = s.epoch := rfl
@[simp] theorem State.emitOB_inputs (v : Byte) : (s.emitOB v).inputs = s.inputs := rfl

/-! ### `State.appendPlane` -/

@[simp] theorem State.appendPlane_lifecycle (k : Fin 8) (v : Byte) : (s.appendPlane k v).lifecycle = s.lifecycle := rfl
@[simp] theorem State.appendPlane_done (k : Fin 8) (v : Byte) : (s.appendPlane k v).done = s.done := rfl
@[simp] theorem State.appendPlane_ovr (k : Fin 8) (v : Byte) : (s.appendPlane k v).ovr = s.ovr := rfl
@[simp] theorem State.appendPlane_err (k : Fin 8) (v : Byte) : (s.appendPlane k v).err = s.err := rfl
@[simp] theorem State.appendPlane_seq (k : Fin 8) (v : Byte) : (s.appendPlane k v).seq = s.seq := rfl
@[simp] theorem State.appendPlane_ctl (k : Fin 8) (v : Byte) : (s.appendPlane k v).ctl = s.ctl := rfl
@[simp] theorem State.appendPlane_inLen (k : Fin 8) (v : Byte) : (s.appendPlane k v).inLen = s.inLen := rfl
@[simp] theorem State.appendPlane_outLen (k : Fin 8) (v : Byte) : (s.appendPlane k v).outLen = s.outLen := rfl
@[simp] theorem State.appendPlane_planeLen (k : Fin 8) (v : Byte) : (s.appendPlane k v).planeLen = s.planeLen := rfl
@[simp] theorem State.appendPlane_n (k : Fin 8) (v : Byte) : (s.appendPlane k v).n = s.n := rfl
@[simp] theorem State.appendPlane_hdr (k : Fin 8) (v : Byte) : (s.appendPlane k v).hdr = s.hdr := rfl
@[simp] theorem State.appendPlane_progress (k : Fin 8) (v : Byte) : (s.appendPlane k v).progress = s.progress := rfl
@[simp] theorem State.appendPlane_wipeSeed (k : Fin 8) (v : Byte) : (s.appendPlane k v).wipeSeed = s.wipeSeed := rfl
@[simp] theorem State.appendPlane_planeProv (k : Fin 8) (v : Byte) : (s.appendPlane k v).planeProv = s.planeProv := rfl
@[simp] theorem State.appendPlane_key1Len (k : Fin 8) (v : Byte) : (s.appendPlane k v).key1Len = s.key1Len := rfl
@[simp] theorem State.appendPlane_key2Len (k : Fin 8) (v : Byte) : (s.appendPlane k v).key2Len = s.key2Len := rfl
@[simp] theorem State.appendPlane_key1 (k : Fin 8) (v : Byte) : (s.appendPlane k v).key1 = s.key1 := rfl
@[simp] theorem State.appendPlane_key2 (k : Fin 8) (v : Byte) : (s.appendPlane k v).key2 = s.key2 := rfl
@[simp] theorem State.appendPlane_xdata0 (k : Fin 8) (v : Byte) : (s.appendPlane k v).xdata0 = s.xdata0 := rfl
@[simp] theorem State.appendPlane_xdata1 (k : Fin 8) (v : Byte) : (s.appendPlane k v).xdata1 = s.xdata1 := rfl
@[simp] theorem State.appendPlane_dbgAddr (k : Fin 8) (v : Byte) : (s.appendPlane k v).dbgAddr = s.dbgAddr := rfl
@[simp] theorem State.appendPlane_pm (k : Fin 8) (v : Byte) : (s.appendPlane k v).pm = s.pm.write (pmKey k.val (s.plen.get k)) v := rfl
@[simp] theorem State.appendPlane_plen (k : Fin 8) (v : Byte) : (s.appendPlane k v).plen = s.plen.set k.val (s.plen.get k + 1) := rfl
@[simp] theorem State.appendPlane_ppos (k : Fin 8) (v : Byte) : (s.appendPlane k v).ppos = s.ppos := rfl
@[simp] theorem State.appendPlane_blk (k : Fin 8) (v : Byte) : (s.appendPlane k v).blk = s.blk := rfl
@[simp] theorem State.appendPlane_ipos (k : Fin 8) (v : Byte) : (s.appendPlane k v).ipos = s.ipos := rfl
@[simp] theorem State.appendPlane_opos (k : Fin 8) (v : Byte) : (s.appendPlane k v).opos = s.opos := rfl
@[simp] theorem State.appendPlane_wipes (k : Fin 8) (v : Byte) : (s.appendPlane k v).wipes = s.wipes := rfl
@[simp] theorem State.appendPlane_ib (k : Fin 8) (v : Byte) : (s.appendPlane k v).ib = s.ib := rfl
@[simp] theorem State.appendPlane_ob (k : Fin 8) (v : Byte) : (s.appendPlane k v).ob = s.ob := rfl
@[simp] theorem State.appendPlane_progEv (k : Fin 8) (v : Byte) : (s.appendPlane k v).progEv = s.progEv := rfl
@[simp] theorem State.appendPlane_rel (k : Fin 8) (v : Byte) : (s.appendPlane k v).rel = s.rel := rfl
@[simp] theorem State.appendPlane_residue (k : Fin 8) (v : Byte) : (s.appendPlane k v).residue = s.residue := rfl
@[simp] theorem State.appendPlane_rdata (k : Fin 8) (v : Byte) : (s.appendPlane k v).rdata = s.rdata := rfl
@[simp] theorem State.appendPlane_obData (k : Fin 8) (v : Byte) : (s.appendPlane k v).obData = s.obData := rfl
@[simp] theorem State.appendPlane_params (k : Fin 8) (v : Byte) : (s.appendPlane k v).params = s.params := rfl
@[simp] theorem State.appendPlane_oraclePins (k : Fin 8) (v : Byte) : (s.appendPlane k v).oraclePins = s.oraclePins := rfl
@[simp] theorem State.appendPlane_epoch (k : Fin 8) (v : Byte) : (s.appendPlane k v).epoch = s.epoch := rfl
@[simp] theorem State.appendPlane_inputs (k : Fin 8) (v : Byte) : (s.appendPlane k v).inputs = s.inputs := rfl

/-! ### `State.transposeX` -/

@[simp] theorem State.transposeX_lifecycle : (s.transposeX).lifecycle = s.lifecycle := rfl
@[simp] theorem State.transposeX_done : (s.transposeX).done = s.done := rfl
@[simp] theorem State.transposeX_ovr : (s.transposeX).ovr = s.ovr := rfl
@[simp] theorem State.transposeX_err : (s.transposeX).err = s.err := rfl
@[simp] theorem State.transposeX_seq : (s.transposeX).seq = s.seq := rfl
@[simp] theorem State.transposeX_ctl : (s.transposeX).ctl = s.ctl := rfl
@[simp] theorem State.transposeX_inLen : (s.transposeX).inLen = s.inLen := rfl
@[simp] theorem State.transposeX_outLen : (s.transposeX).outLen = s.outLen := rfl
@[simp] theorem State.transposeX_planeLen : (s.transposeX).planeLen = s.planeLen := rfl
@[simp] theorem State.transposeX_n : (s.transposeX).n = s.n := rfl
@[simp] theorem State.transposeX_hdr : (s.transposeX).hdr = s.hdr := rfl
@[simp] theorem State.transposeX_progress : (s.transposeX).progress = s.progress := rfl
@[simp] theorem State.transposeX_wipeSeed : (s.transposeX).wipeSeed = s.wipeSeed := rfl
@[simp] theorem State.transposeX_planeProv : (s.transposeX).planeProv = s.planeProv := rfl
@[simp] theorem State.transposeX_key1Len : (s.transposeX).key1Len = s.key1Len := rfl
@[simp] theorem State.transposeX_key2Len : (s.transposeX).key2Len = s.key2Len := rfl
@[simp] theorem State.transposeX_key1 : (s.transposeX).key1 = s.key1 := rfl
@[simp] theorem State.transposeX_key2 : (s.transposeX).key2 = s.key2 := rfl
@[simp] theorem State.transposeX_xdata0 : (s.transposeX).xdata0 = xWord0 (transpose (xBlock s.xdata0 s.xdata1)) := rfl
@[simp] theorem State.transposeX_xdata1 : (s.transposeX).xdata1 = xWord1 (transpose (xBlock s.xdata0 s.xdata1)) := rfl
@[simp] theorem State.transposeX_dbgAddr : (s.transposeX).dbgAddr = s.dbgAddr := rfl
@[simp] theorem State.transposeX_pm : (s.transposeX).pm = s.pm := rfl
@[simp] theorem State.transposeX_plen : (s.transposeX).plen = s.plen := rfl
@[simp] theorem State.transposeX_ppos : (s.transposeX).ppos = s.ppos := rfl
@[simp] theorem State.transposeX_blk : (s.transposeX).blk = s.blk := rfl
@[simp] theorem State.transposeX_ipos : (s.transposeX).ipos = s.ipos := rfl
@[simp] theorem State.transposeX_opos : (s.transposeX).opos = s.opos := rfl
@[simp] theorem State.transposeX_wipes : (s.transposeX).wipes = s.wipes := rfl
@[simp] theorem State.transposeX_ib : (s.transposeX).ib = s.ib := rfl
@[simp] theorem State.transposeX_ob : (s.transposeX).ob = s.ob := rfl
@[simp] theorem State.transposeX_progEv : (s.transposeX).progEv = s.progEv := rfl
@[simp] theorem State.transposeX_rel : (s.transposeX).rel = s.rel := rfl
@[simp] theorem State.transposeX_residue : (s.transposeX).residue = s.residue := rfl
@[simp] theorem State.transposeX_rdata : (s.transposeX).rdata = s.rdata := rfl
@[simp] theorem State.transposeX_obData : (s.transposeX).obData = s.obData := rfl
@[simp] theorem State.transposeX_params : (s.transposeX).params = s.params := rfl
@[simp] theorem State.transposeX_oraclePins : (s.transposeX).oraclePins = s.oraclePins := rfl
@[simp] theorem State.transposeX_epoch : (s.transposeX).epoch = s.epoch := rfl
@[simp] theorem State.transposeX_inputs : (s.transposeX).inputs = s.inputs := rfl

/-! ### `State.prepare` -/

@[simp] theorem State.prepare_lifecycle : (s.prepare).lifecycle = s.lifecycle := rfl
@[simp] theorem State.prepare_done : (s.prepare).done = s.done := rfl
@[simp] theorem State.prepare_ovr : (s.prepare).ovr = s.ovr := rfl
@[simp] theorem State.prepare_err : (s.prepare).err = s.err := rfl
@[simp] theorem State.prepare_seq : (s.prepare).seq = s.seq := rfl
@[simp] theorem State.prepare_ctl : (s.prepare).ctl = s.ctl := rfl
@[simp] theorem State.prepare_inLen : (s.prepare).inLen = s.inLen := rfl
@[simp] theorem State.prepare_outLen : (s.prepare).outLen = 0#32 := rfl
@[simp] theorem State.prepare_planeLen : (s.prepare).planeLen = 0#32 := rfl
@[simp] theorem State.prepare_n : (s.prepare).n = 0 := rfl
@[simp] theorem State.prepare_hdr : (s.prepare).hdr = Header.zero := rfl
@[simp] theorem State.prepare_progress : (s.prepare).progress = Progress.zero := rfl
@[simp] theorem State.prepare_wipeSeed : (s.prepare).wipeSeed = s.wipeSeed := rfl
@[simp] theorem State.prepare_planeProv : (s.prepare).planeProv = s.planeProv := rfl
@[simp] theorem State.prepare_key1Len : (s.prepare).key1Len = s.key1Len := rfl
@[simp] theorem State.prepare_key2Len : (s.prepare).key2Len = s.key2Len := rfl
@[simp] theorem State.prepare_key1 : (s.prepare).key1 = s.key1 := rfl
@[simp] theorem State.prepare_key2 : (s.prepare).key2 = s.key2 := rfl
@[simp] theorem State.prepare_xdata0 : (s.prepare).xdata0 = s.xdata0 := rfl
@[simp] theorem State.prepare_xdata1 : (s.prepare).xdata1 = s.xdata1 := rfl
@[simp] theorem State.prepare_dbgAddr : (s.prepare).dbgAddr = s.dbgAddr := rfl
@[simp] theorem State.prepare_pm : (s.prepare).pm = s.pm := rfl
@[simp] theorem State.prepare_plen : (s.prepare).plen = Vector.replicate 8 0 := rfl
@[simp] theorem State.prepare_ppos : (s.prepare).ppos = Vector.replicate 8 0 := rfl
@[simp] theorem State.prepare_blk : (s.prepare).blk = s.blk := rfl
@[simp] theorem State.prepare_ipos : (s.prepare).ipos = s.ipos := rfl
@[simp] theorem State.prepare_opos : (s.prepare).opos = s.opos := rfl
@[simp] theorem State.prepare_wipes : (s.prepare).wipes = s.wipes := rfl
@[simp] theorem State.prepare_ib : (s.prepare).ib = s.ib := rfl
@[simp] theorem State.prepare_ob : (s.prepare).ob = s.ob := rfl
@[simp] theorem State.prepare_progEv : (s.prepare).progEv = s.progEv := rfl
@[simp] theorem State.prepare_rel : (s.prepare).rel = s.rel := rfl
@[simp] theorem State.prepare_residue : (s.prepare).residue = s.residue := rfl
@[simp] theorem State.prepare_rdata : (s.prepare).rdata = s.rdata := rfl
@[simp] theorem State.prepare_obData : (s.prepare).obData = s.obData := rfl
@[simp] theorem State.prepare_params : (s.prepare).params = s.params := rfl
@[simp] theorem State.prepare_oraclePins : (s.prepare).oraclePins = s.oraclePins := rfl
@[simp] theorem State.prepare_epoch : (s.prepare).epoch = s.epoch := rfl
@[simp] theorem State.prepare_inputs : (s.prepare).inputs = s.inputs := rfl

/-! ### `State.clearCore` -/

@[simp] theorem State.clearCore_lifecycle (q : Seq) : (s.clearCore q).lifecycle = s.lifecycle := rfl
@[simp] theorem State.clearCore_done (q : Seq) : (s.clearCore q).done = s.done := rfl
@[simp] theorem State.clearCore_ovr (q : Seq) : (s.clearCore q).ovr = s.ovr := rfl
@[simp] theorem State.clearCore_err (q : Seq) : (s.clearCore q).err = s.err := rfl
@[simp] theorem State.clearCore_seq (q : Seq) : (s.clearCore q).seq = s.seq := rfl
@[simp] theorem State.clearCore_ctl (q : Seq) : (s.clearCore q).ctl = s.ctl := rfl
@[simp] theorem State.clearCore_inLen (q : Seq) : (s.clearCore q).inLen = s.inLen := rfl
@[simp] theorem State.clearCore_outLen (q : Seq) : (s.clearCore q).outLen = 0#32 := rfl
@[simp] theorem State.clearCore_planeLen (q : Seq) : (s.clearCore q).planeLen = 0#32 := rfl
@[simp] theorem State.clearCore_n (q : Seq) : (s.clearCore q).n = 0 := rfl
@[simp] theorem State.clearCore_hdr (q : Seq) : (s.clearCore q).hdr = Header.zero := rfl
@[simp] theorem State.clearCore_progress (q : Seq) : (s.clearCore q).progress = Progress.zero := rfl
@[simp] theorem State.clearCore_wipeSeed (q : Seq) : (s.clearCore q).wipeSeed = s.wipeSeed := rfl
@[simp] theorem State.clearCore_planeProv (q : Seq) : (s.clearCore q).planeProv = s.planeProv := rfl
@[simp] theorem State.clearCore_key1Len (q : Seq) : (s.clearCore q).key1Len = 0#32 := rfl
@[simp] theorem State.clearCore_key2Len (q : Seq) : (s.clearCore q).key2Len = 0#32 := rfl
@[simp] theorem State.clearCore_key1 (q : Seq) : (s.clearCore q).key1 = List.replicate s.params.keyMax 0#8 := rfl
@[simp] theorem State.clearCore_key2 (q : Seq) : (s.clearCore q).key2 = List.replicate s.params.keyMax 0#8 := rfl
@[simp] theorem State.clearCore_xdata0 (q : Seq) : (s.clearCore q).xdata0 = 0#32 := rfl
@[simp] theorem State.clearCore_xdata1 (q : Seq) : (s.clearCore q).xdata1 = 0#32 := rfl
@[simp] theorem State.clearCore_dbgAddr (q : Seq) : (s.clearCore q).dbgAddr = s.dbgAddr := rfl
@[simp] theorem State.clearCore_pm (q : Seq) : (s.clearCore q).pm = wiped q.ctl.wipeRandom s.wipeSeed s.wipes := rfl
@[simp] theorem State.clearCore_plen (q : Seq) : (s.clearCore q).plen = Vector.replicate 8 0 := rfl
@[simp] theorem State.clearCore_ppos (q : Seq) : (s.clearCore q).ppos = Vector.replicate 8 0 := rfl
@[simp] theorem State.clearCore_blk (q : Seq) : (s.clearCore q).blk = Vector.replicate 8 0#8 := rfl
@[simp] theorem State.clearCore_ipos (q : Seq) : (s.clearCore q).ipos = s.ipos := rfl
@[simp] theorem State.clearCore_opos (q : Seq) : (s.clearCore q).opos = s.opos := rfl
@[simp] theorem State.clearCore_wipes (q : Seq) : (s.clearCore q).wipes = s.wipes + 1 := rfl
@[simp] theorem State.clearCore_ib (q : Seq) : (s.clearCore q).ib = s.ib := rfl
@[simp] theorem State.clearCore_ob (q : Seq) : (s.clearCore q).ob = s.ob := rfl
@[simp] theorem State.clearCore_progEv (q : Seq) : (s.clearCore q).progEv = s.progEv := rfl
@[simp] theorem State.clearCore_rel (q : Seq) : (s.clearCore q).rel = s.rel := rfl
@[simp] theorem State.clearCore_residue (q : Seq) : (s.clearCore q).residue = false := rfl
@[simp] theorem State.clearCore_rdata (q : Seq) : (s.clearCore q).rdata = s.rdata := rfl
@[simp] theorem State.clearCore_obData (q : Seq) : (s.clearCore q).obData = s.obData := rfl
@[simp] theorem State.clearCore_params (q : Seq) : (s.clearCore q).params = s.params := rfl
@[simp] theorem State.clearCore_oraclePins (q : Seq) : (s.clearCore q).oraclePins = s.oraclePins := rfl
@[simp] theorem State.clearCore_epoch (q : Seq) : (s.clearCore q).epoch = s.epoch := rfl
@[simp] theorem State.clearCore_inputs (q : Seq) : (s.clearCore q).inputs = s.inputs := rfl

/-! ### `State.release` -/

@[simp] theorem State.release_lifecycle : (s.release).lifecycle = s.lifecycle := rfl
@[simp] theorem State.release_done : (s.release).done = s.done := rfl
@[simp] theorem State.release_ovr : (s.release).ovr = s.ovr := rfl
@[simp] theorem State.release_err : (s.release).err = s.err := rfl
@[simp] theorem State.release_seq : (s.release).seq = s.seq := rfl
@[simp] theorem State.release_ctl : (s.release).ctl = s.ctl := rfl
@[simp] theorem State.release_inLen : (s.release).inLen = s.inLen := rfl
@[simp] theorem State.release_outLen : (s.release).outLen = s.outLen := rfl
@[simp] theorem State.release_planeLen : (s.release).planeLen = s.planeLen := rfl
@[simp] theorem State.release_n : (s.release).n = s.n := rfl
@[simp] theorem State.release_hdr : (s.release).hdr = s.hdr := rfl
@[simp] theorem State.release_progress : (s.release).progress = s.progress := rfl
@[simp] theorem State.release_wipeSeed : (s.release).wipeSeed = s.wipeSeed := rfl
@[simp] theorem State.release_planeProv : (s.release).planeProv = 0#8 := rfl
@[simp] theorem State.release_key1Len : (s.release).key1Len = s.key1Len := rfl
@[simp] theorem State.release_key2Len : (s.release).key2Len = s.key2Len := rfl
@[simp] theorem State.release_key1 : (s.release).key1 = s.key1 := rfl
@[simp] theorem State.release_key2 : (s.release).key2 = s.key2 := rfl
@[simp] theorem State.release_xdata0 : (s.release).xdata0 = s.xdata0 := rfl
@[simp] theorem State.release_xdata1 : (s.release).xdata1 = s.xdata1 := rfl
@[simp] theorem State.release_dbgAddr : (s.release).dbgAddr = s.dbgAddr := rfl
@[simp] theorem State.release_pm : (s.release).pm = s.pm := rfl
@[simp] theorem State.release_plen : (s.release).plen = s.plen := rfl
@[simp] theorem State.release_ppos : (s.release).ppos = s.ppos := rfl
@[simp] theorem State.release_blk : (s.release).blk = s.blk := rfl
@[simp] theorem State.release_ipos : (s.release).ipos = s.ipos := rfl
@[simp] theorem State.release_opos : (s.release).opos = s.opos := rfl
@[simp] theorem State.release_wipes : (s.release).wipes = s.wipes := rfl
@[simp] theorem State.release_ib : (s.release).ib = s.ib := rfl
@[simp] theorem State.release_ob : (s.release).ob = s.ob := rfl
@[simp] theorem State.release_progEv : (s.release).progEv = s.progEv := rfl
@[simp] theorem State.release_rel : (s.release).rel = s.rel + 1 := rfl
@[simp] theorem State.release_residue : (s.release).residue = s.residue := rfl
@[simp] theorem State.release_rdata : (s.release).rdata = s.rdata := rfl
@[simp] theorem State.release_obData : (s.release).obData = s.obData := rfl
@[simp] theorem State.release_params : (s.release).params = s.params := rfl
@[simp] theorem State.release_oraclePins : (s.release).oraclePins = s.oraclePins := rfl
@[simp] theorem State.release_epoch : (s.release).epoch = s.epoch := rfl
@[simp] theorem State.release_inputs : (s.release).inputs = s.inputs := rfl

end Sys2Proof.Machine
end

