-- ==== Sys2Proof/Laws/Store.lean ====
section
/-! SUPPORT. The memories: a read after a write, and every operation keeps the canonical form. -/

namespace Sys2Proof.Machine

theorem cellAt_cellPut (cs : List Host.Cell) (a b : Nat) (v : Byte) :
    cellAt (cellPut cs a v) b = if b = a then some v else cellAt cs b := by
  induction cs with
  | nil => by_cases h : b = a <;> simp [cellPut, cellAt, h, Ne.symm]
  | cons c cs ih =>
    unfold cellPut
    split
    · by_cases h : b = a
      · simp [cellAt, h]
      · simp [cellAt, h, Ne.symm h]
    · split
      · rename_i h1 h2
        by_cases h : b = a
        · simp [cellAt, h]
        · simp [cellAt, h, Ne.symm h, ← h2]
      · rename_i h1 h2
        by_cases h : c.1 = b
        · have : b ≠ a := by omega
          simp [cellAt, h, this]
        · simp [cellAt, h, ih]

theorem cellAt_cellErase (cs : List Host.Cell) (a b : Nat) :
    cellAt (cellErase cs a) b = if b = a then none else cellAt cs b := by
  induction cs with
  | nil => simp [cellErase, cellAt]
  | cons c cs ih =>
    unfold cellErase at *
    by_cases h : c.1 = a
    · by_cases hb : b = a
      · simpa [List.filter_cons, h, hb] using ih
      · simpa [List.filter_cons, h, hb, cellAt, Ne.symm hb] using ih
    · by_cases hc : c.1 = b
      · have : b ≠ a := by omega
        simp [cellAt, hc, this]
      · simp [h, cellAt, hc, ih]

theorem Fill.byte_of_fixed {f : Fill} {v : Byte} (h : f.fixed = some v) (a : Nat) : f.byte a = v := by
  cases f <;> simp_all [Fill.fixed, Fill.byte]

theorem Store.write_fill (m : Store) (a : Nat) (v : Byte) : (m.write a v).fill = m.fill := by
  unfold Store.write; split <;> rfl

/-- A read after a write gives the value written, and every other byte is left alone. -/
theorem Store.read_write (m : Store) (a b : Nat) (v : Byte) :
    (m.write a v).read b = if b = a then v else m.read b := by
  unfold Store.write
  split
  · rename_i h
    by_cases hb : b = a
    · simp [Store.read, cellAt_cellErase, hb, Fill.byte_of_fixed h]
    · simp [Store.read, cellAt_cellErase, hb]
  · by_cases hb : b = a
    · simp [Store.read, cellAt_cellPut, hb]
    · simp [Store.read, cellAt_cellPut, hb]

theorem Store.read_write_same (m : Store) (a : Nat) (v : Byte) : (m.write a v).read a = v := by
  simp [Store.read_write]

theorem Store.read_write_other (m : Store) {a b : Nat} (v : Byte) (h : b ≠ a) : (m.write a v).read b = m.read b := by
  simp [Store.read_write, h]

theorem mem_cellPut {cs : List Host.Cell} {a : Nat} {v : Byte} {c : Host.Cell} (h : c ∈ cellPut cs a v) :
    c = (a, v) ∨ c ∈ cs := by
  induction cs with
  | nil => simpa [cellPut] using h
  | cons d ds ih =>
    unfold cellPut at h
    split at h
    · simpa using h
    · split at h
      · rcases List.mem_cons.1 h with h | h
        · exact .inl h
        · exact .inr (List.mem_cons_of_mem _ h)
      · rcases List.mem_cons.1 h with h | h
        · exact .inr (by simp [h])
        · exact (ih h).imp id (List.mem_cons_of_mem _)

/-- Every cell of a memory just written is the one written or was there before. -/
theorem Store.mem_cells_write {m : Store} {a : Nat} {v : Byte} {c : Host.Cell} (h : c ∈ (m.write a v).cells) :
    c = (a, v) ∨ c ∈ m.cells := by
  unfold Store.write at h
  split at h
  · exact .inr (List.mem_filter.1 h).1
  · exact mem_cellPut h

theorem cellPut_rising {cs : List Host.Cell} (a : Nat) (v : Byte) (h : cs.Pairwise (fun c d => c.1 < d.1)) :
    (cellPut cs a v).Pairwise (fun c d => c.1 < d.1) := by
  induction cs with
  | nil => simp [cellPut]
  | cons c cs ih =>
    have hc := List.pairwise_cons.1 h
    unfold cellPut
    split
    · rename_i hlt
      refine List.pairwise_cons.2 ⟨fun d hd => ?_, h⟩
      rcases List.mem_cons.1 hd with rfl | hd
      · exact hlt
      · exact lt_trans hlt (hc.1 d hd)
    · split
      · rename_i _ heq
        exact List.pairwise_cons.2 ⟨fun d hd => by simpa [heq] using hc.1 d hd, hc.2⟩
      · refine List.pairwise_cons.2 ⟨fun d hd => ?_, ih hc.2⟩
        rcases mem_cellPut hd with rfl | hd
        · show c.1 < a; omega
        · exact hc.1 d hd

/-- A write keeps the canonical form. -/
theorem Store.wf_write {m : Store} (h : m.wf) (a : Nat) (v : Byte) : (m.write a v).wf := by
  unfold Store.write
  split
  · exact ⟨h.1.filter _, fun c hc => h.2 c (List.mem_filter.1 hc).1⟩
  · rename_i hne
    refine ⟨cellPut_rising a v h.1, fun c hc => ?_⟩
    rcases mem_cellPut hc with rfl | hc
    · exact hne
    · exact h.2 c hc

theorem Store.wf_writeAll {m : Store} (h : m.wf) (cs : List Host.Cell) : (m.writeAll cs).wf := by
  unfold Store.writeAll
  induction cs generalizing m with
  | nil => exact h
  | cons c cs ih => exact ih (Store.wf_write h c.1 c.2)

/-- A fresh background has nothing listed, so it is canonical. -/
theorem Store.wf_nil (f : Fill) : Store.wf ⟨[], f⟩ := ⟨List.Pairwise.nil, by simp⟩

theorem wiped_wf (random : Bool) (seed : Word) (w : Nat) : (wiped random seed w).wf := Store.wf_nil _

/-- After a zero wipe every byte reads 0 (R84). -/
theorem wiped_zero_read (seed : Word) (w a : Nat) : (wiped false seed w).read a = 0#8 := rfl

theorem Store.writeAll_nil (m : Store) : m.writeAll [] = m := rfl

theorem Store.writeAll_cons (m : Store) (c : Host.Cell) (cs : List Host.Cell) :
    m.writeAll (c :: cs) = (m.write c.1 c.2).writeAll cs := rfl

theorem Store.writeAll_append (m : Store) (cs ds : List Host.Cell) :
    m.writeAll (cs ++ ds) = (m.writeAll cs).writeAll ds := by simp [Store.writeAll]

/-- Bytes outside the cells written are left alone. -/
theorem Store.read_writeAll_other {m : Store} {cs : List Host.Cell} {b : Nat} (h : ∀ c ∈ cs, c.1 ≠ b) :
    (m.writeAll cs).read b = m.read b := by
  induction cs generalizing m with
  | nil => rfl
  | cons c cs ih =>
    rw [Store.writeAll_cons, ih fun d hd => h d (List.mem_cons_of_mem _ hd)]
    exact Store.read_write_other _ _ (Ne.symm (h c List.mem_cons_self))

/-- With distinct addresses, each cell written reads back. -/
theorem Store.read_writeAll_mem {m : Store} {cs : List Host.Cell} {c : Host.Cell} (hc : c ∈ cs)
    (hd : (cs.map (·.1)).Nodup) : (m.writeAll cs).read c.1 = c.2 := by
  induction cs generalizing m with
  | nil => simp at hc
  | cons d ds ih =>
    simp only [List.map_cons, List.nodup_cons] at hd
    rw [Store.writeAll_cons]
    rcases List.mem_cons.1 hc with rfl | hc
    · rw [Store.read_writeAll_other, Store.read_write_same]
      intro e he heq
      exact hd.1 (heq ▸ List.mem_map_of_mem he)
    · exact ih hc hd.2

theorem Store.mem_cells_writeAll {m : Store} {cs : List Host.Cell} {c : Host.Cell}
    (h : c ∈ (m.writeAll cs).cells) : c ∈ cs ∨ c ∈ m.cells := by
  induction cs generalizing m with
  | nil => exact .inr h
  | cons d ds ih =>
    rw [Store.writeAll_cons] at h
    rcases ih h with h | h
    · exact .inl (List.mem_cons_of_mem _ h)
    · rcases Store.mem_cells_write h with rfl | h
      · exact .inl (by simp)
      · exact .inr h

/-- The keys of two plane bytes differ when the offsets are below 2^29 (R32). -/
theorem pmKey_inj {k k' o o' : Nat} (ho : o < 2 ^ 29) (ho' : o' < 2 ^ 29) (h : pmKey k o = pmKey k' o') :
    k = k' ∧ o = o' := by
  unfold pmKey at h; omega

end Sys2Proof.Machine
end

