-- ==== Sys2Proof/Laws/Pass.lean ====
section
/-! SUPPORT. The steps the two passes share: what each leaves outside the pass, and what NextToken, a report and
the end of a pass can do. -/

namespace Sys2Proof.Machine

/-! ### Vectors of 8 entries -/

theorem get_set8 {α : Type} (v : Vector α 8) (i k : Fin 8) (x : α) :
    (v.set i.val x).get k = if k = i then x else v.get k := by
  rw [Vector.get_eq_getElem, Vector.getElem_set]
  by_cases h : k = i
  · simp [h]
  · rw [if_neg fun e => h (Fin.ext e.symm), if_neg h, Vector.get_eq_getElem]

theorem get_replicate8 {α : Type} (x : α) (k : Fin 8) : (Vector.replicate 8 x).get k = x := by
  simp [Vector.get_eq_getElem]

theorem ext_get8 {α : Type} {v w : Vector α 8} (h : ∀ k, v.get k = w.get k) : v = w :=
  Vector.ext fun i hi => h ⟨i, hi⟩

theorem ofFn_get8 {α : Type} (v : Vector α 8) : (Vector.ofFn fun k => v.get k) = v :=
  ext_get8 fun k => by simp

/-! ### Loops of a pass -/

/-- A loop whose every turn goes on keeps its invariant to the end. -/
theorem foldlM_range_ok {σ : Type} (f : σ → Nat → Run σ) (I : Nat → σ → Prop) (m : Nat)
    (hstep : ∀ b < m, ∀ s, I b s → ∃ t, f s b = .ok t ∧ I (b + 1) t) {s : σ} (h0 : I 0 s) :
    ∃ t, (List.range m).foldlM f s = .ok t ∧ I m t := by
  induction m with
  | zero => exact ⟨s, rfl, h0⟩
  | succ m ih =>
    obtain ⟨t, ht, hI⟩ := ih fun b hb => hstep b (Nat.lt_succ_of_lt hb)
    obtain ⟨u, hu, hJ⟩ := hstep m (Nat.lt_succ_self m) t hI
    refine ⟨u, ?_, hJ⟩
    rw [List.range_succ, List.foldlM_append, ht]
    show List.foldlM f t [m] = _
    rw [List.foldlM_cons, hu]
    rfl

/-- A loop that goes on for `b0` turns and then raises, raises what that turn raises. -/
theorem foldlM_range_error {σ : Type} (f : σ → Nat → Run σ) (I : Nat → σ → Prop) {m b0 : Nat} (hb : b0 < m)
    (hstep : ∀ b < b0, ∀ s, I b s → ∃ t, f s b = .ok t ∧ I (b + 1) t) {s : σ} (h0 : I 0 s) {P : Raise → Prop}
    (herr : ∀ t, I b0 t → ∃ e, f t b0 = .error e ∧ P e) : ∃ e, (List.range m).foldlM f s = .error e ∧ P e := by
  obtain ⟨t, ht, hI⟩ := foldlM_range_ok f I b0 hstep h0
  obtain ⟨e, he, hP⟩ := herr t hI
  refine ⟨e, ?_, hP⟩
  obtain ⟨d, rfl⟩ : ∃ d, m = b0 + 1 + d := ⟨m - (b0 + 1), by omega⟩
  have hsplit : List.range (b0 + 1 + d) = List.range b0 ++ (b0 :: (List.range d).map (b0 + 1 + ·)) := by
    rw [List.range_add, List.range_succ, List.append_assoc]; rfl
  rw [hsplit, List.foldlM_append, ht]
  show List.foldlM f t (b0 :: _) = _
  rw [List.foldlM_cons, he]
  rfl

/-- A loop over the 8 planes, or the 8 slots, whose every turn goes on keeps its invariant to the end. -/
theorem foldlM_fin8_ok {σ : Type} (f : σ → Fin 8 → Run σ) (I : Nat → σ → Prop)
    (hstep : ∀ (k : Fin 8) s, I k.val s → ∃ t, f s k = .ok t ∧ I (k.val + 1) t) {s : σ} (h0 : I 0 s) :
    ∃ t, (List.finRange 8).foldlM f s = .ok t ∧ I 8 t := by
  have hfin : List.finRange 8 = [0, 1, 2, 3, 4, 5, 6, 7] := by decide
  obtain ⟨s1, e1, h1⟩ := hstep 0 s h0
  obtain ⟨s2, e2, h2⟩ := hstep 1 s1 h1
  obtain ⟨s3, e3, h3⟩ := hstep 2 s2 h2
  obtain ⟨s4, e4, h4⟩ := hstep 3 s3 h3
  obtain ⟨s5, e5, h5⟩ := hstep 4 s4 h4
  obtain ⟨s6, e6, h6⟩ := hstep 5 s5 h5
  obtain ⟨s7, e7, h7⟩ := hstep 6 s6 h6
  obtain ⟨s8, e8, h8⟩ := hstep 7 s7 h7
  refine ⟨s8, ?_, h8⟩
  simp only [hfin, List.foldlM_cons, List.foldlM_nil, e1, e2, e3, e4, e5, e6, e7, e8, bind, Except.bind, pure,
    Except.pure]

/-- Such a loop that goes on up to plane `k0` and then raises, raises what that turn raises. -/
theorem foldlM_fin8_error {σ : Type} (f : σ → Fin 8 → Run σ) (I : Nat → σ → Prop) (k0 : Fin 8)
    (hstep : ∀ k : Fin 8, k < k0 → ∀ s, I k.val s → ∃ t, f s k = .ok t ∧ I (k.val + 1) t) {s : σ} (h0 : I 0 s)
    {P : Raise → Prop} (herr : ∀ t, I k0.val t → ∃ e, f t k0 = .error e ∧ P e) :
    ∃ e, (List.finRange 8).foldlM f s = .error e ∧ P e := by
  have hfin : List.finRange 8 = (List.range 8).map (Fin.ofNat 8) := by decide
  have hval : ∀ k : Fin 8, Fin.ofNat 8 k.val = k := by decide
  rw [hfin, List.foldlM_map]
  refine foldlM_range_error (fun s b => f s (Fin.ofNat 8 b)) I (b0 := k0.val) k0.isLt (fun b hb s hs => ?_) h0
    (fun t ht => by rw [hval]; exact herr t ht)
  have hk : Fin.ofNat 8 b = ⟨b, by omega⟩ := hval ⟨b, by omega⟩
  simpa only [hk] using hstep ⟨b, by omega⟩ hb s hs

/-- The same for a loop that cannot raise. -/
theorem foldl_fin8 {σ : Type} (f : σ → Fin 8 → σ) (I : Nat → σ → Prop)
    (hstep : ∀ (k : Fin 8) s, I k.val s → I (k.val + 1) (f s k)) {s : σ} (h0 : I 0 s) :
    I 8 ((List.finRange 8).foldl f s) := by
  have hfin : List.finRange 8 = [0, 1, 2, 3, 4, 5, 6, 7] := by decide
  rw [hfin]
  exact hstep 7 _ (hstep 6 _ (hstep 5 _ (hstep 4 _ (hstep 3 _ (hstep 2 _ (hstep 1 _ (hstep 0 _ h0)))))))

/-! ### Outside the pass -/

/-- A state that agrees with another outside the pass is the other with what a pass writes changed; `congrArg` of any
other field gives that field. -/
theorem State.eq_of_outsidePass {s t : State} (h : t.outsidePass = s.outsidePass) :
    t = { s with
      ob := t.ob, pm := t.pm, plen := t.plen, ppos := t.ppos, blk := t.blk, ipos := t.ipos, opos := t.opos, n := t.n,
      outLen := t.outLen, planeLen := t.planeLen, hdr := t.hdr, progress := t.progress, progEv := t.progEv } := by
  obtain ⟨⟩ := s
  obtain ⟨⟩ := t
  simp only [State.outsidePass, State.mk.injEq] at h ⊢
  tauto

/-- Two states that agree outside the pass have the same keys and the same oracle. -/
theorem State.oracleWord_congr {s t : State} (h : t.outsidePass = s.outsidePass) (n : Nat) :
    t.oracleWord n = s.oracleWord n := by
  have h1 := congrArg State.key1 h
  have h2 := congrArg State.key2 h
  have h3 := congrArg State.key1Len h
  have h4 := congrArg State.key2Len h
  have h5 := congrArg State.oraclePins h
  change t.key1 = s.key1 at h1
  change t.key2 = s.key2 at h2
  change t.key1Len = s.key1Len at h3
  change t.key2Len = s.key2Len at h4
  change t.oraclePins = s.oraclePins at h5
  simp only [State.oracleWord, State.keyBytes1, State.keyBytes2, h1, h2, h3, h4, h5]

theorem State.tokenAt_congr {s t : State} (h : t.outsidePass = s.outsidePass) (n : Nat) :
    t.tokenAt n = s.tokenAt n := by
  simp only [State.tokenAt, State.oracleWord_congr h]

theorem State.writePM_outsidePass (s : State) (k o : Nat) (v : Byte) :
    (s.writePM k o v).outsidePass = s.outsidePass := rfl

theorem State.emitOB_outsidePass (s : State) (v : Byte) : (s.emitOB v).outsidePass = s.outsidePass := rfl

theorem State.appendPlane_outsidePass (s : State) (k : Fin 8) (v : Byte) :
    (s.appendPlane k v).outsidePass = s.outsidePass := rfl

/-- A report is an emission or nothing (R102). -/
theorem State.report_cases (s : State) (pe : Bool) (phase : Phase) (c U : Nat) :
    s.report pe phase c U = s ∨ ∃ r, r.phase = phase ∧ s.report pe phase c U = s.emit r := by
  unfold State.report
  split
  · split
    · exact .inr ⟨_, rfl, rfl⟩
    · split
      · exact .inr ⟨_, rfl, rfl⟩
      · exact .inl rfl
  · exact .inl rfl

/-- A report changes PROGRESS and the PROG_EV log, nothing else (R102). -/
theorem State.report_eq (s : State) (pe : Bool) (phase : Phase) (c U : Nat) :
    s.report pe phase c U =
      { s with progress := (s.report pe phase c U).progress, progEv := (s.report pe phase c U).progEv } := by
  rcases s.report_cases pe phase c U with h | ⟨r, -, h⟩
  · rw [h]
  · rw [h]; rfl

/-- With no progress sink nothing is reported (R102). -/
theorem State.report_disabled (s : State) (phase : Phase) (c U : Nat) : s.report false phase c U = s := rfl

/-- The last report of a phase is 100 percent and not intermediate (R102). -/
theorem State.report_last (s : State) (phase : Phase) (U : Nat) :
    s.report true phase U U = s.emit ⟨100#7, false, phase⟩ := by
  unfold State.report
  by_cases h : U = 0
  · simp [h]
  · have : 100 * U / U = 100 := Nat.mul_div_cancel _ (Nat.pos_of_ne_zero h)
    simp [h, this]

theorem State.report_outsidePass (s : State) (pe : Bool) (phase : Phase) (c U : Nat) :
    (s.report pe phase c U).outsidePass = s.outsidePass := by
  rw [State.report_eq]; rfl

/-- Every field that a report leaves, in one line for simp: use `rw [State.report_eq]` for the others. -/
theorem State.report_fields (s : State) (pe : Bool) (phase : Phase) (c U : Nat) :
    (s.report pe phase c U).pm = s.pm ∧ (s.report pe phase c U).ob = s.ob ∧ (s.report pe phase c U).plen = s.plen ∧
    (s.report pe phase c U).ppos = s.ppos ∧ (s.report pe phase c U).blk = s.blk ∧
    (s.report pe phase c U).ipos = s.ipos ∧ (s.report pe phase c U).opos = s.opos ∧
    (s.report pe phase c U).n = s.n := by
  rcases s.report_cases pe phase c U with h | ⟨r, -, h⟩ <;> simp [h]

/-- NextToken (R75, R76): a valid token and n advanced, or BAD_TOKEN. -/
theorem State.nextToken_eq (s : State) :
    s.nextToken =
      if tokenValid (s.tokenAt s.n) then .ok (s.tokenAt s.n, { s with n := s.n + 1 })
      else .error ⟨.badToken, s.progEv⟩ := rfl

/-- The entries of a valid token are distinct (R59). -/
theorem tokenValid_injective {t : Token} (h : tokenValid t = true) : Function.Injective t.get := by
  have hn : t.toList.Nodup := of_decide_eq_true h
  intro i j hij
  have hi : t.toList[i.val]'(by simp) = t.toList[j.val]'(by simp) := by
    simpa [Vector.get_eq_getElem] using hij
  exact Fin.ext ((List.Nodup.getElem_inj_iff hn).1 hi)

/-- A valid token reaches every plane (R59). -/
theorem tokenValid_surjective {t : Token} (h : tokenValid t = true) : Function.Surjective t.get :=
  Finite.surjective_of_injective (tokenValid_injective h)

/-! ### Writing a run of bytes to OB -/

/-- The cells of a run of bytes from an address up. -/
def runCells : Nat → List Byte → List Host.Cell
  | _, [] => []
  | a, v :: vs => (a, v) :: runCells (a + 1) vs

/-- Emitting bytes one after another to OB (R43). -/
theorem State.emitAll_eq (vs : List Byte) (s : State) :
    vs.foldl (fun s v => s.emitOB v) s =
      { s with ob := s.ob.writeAll (runCells s.opos vs), opos := s.opos + vs.length } := by
  induction vs generalizing s with
  | nil => rfl
  | cons v vs ih =>
    rw [List.foldl_cons, ih]
    simp only [State.emitOB, runCells, Store.writeAll_cons, List.length_cons, Nat.add_assoc, Nat.add_comm 1]

theorem mem_runCells {a : Nat} {vs : List Byte} {c : Host.Cell} (h : c ∈ runCells a vs) :
    a ≤ c.1 ∧ c.1 < a + vs.length := by
  induction vs generalizing a with
  | nil => simp [runCells] at h
  | cons v vs ih =>
    rcases List.mem_cons.1 h with rfl | h
    · simp
    · have := ih h
      simp only [List.length_cons]
      omega

/-- A run of bytes written from address `a` reads back, and nothing else changes. -/
theorem Store.read_writeRun (m : Store) (vs : List Byte) (a b : Nat) :
    (m.writeAll (runCells a vs)).read b = if a ≤ b ∧ b < a + vs.length then vs.getD (b - a) 0#8 else m.read b := by
  induction vs generalizing m a with
  | nil => simp [runCells, Store.writeAll]
  | cons v vs ih =>
    rw [runCells, Store.writeAll_cons, ih, Store.read_write]
    simp only [List.length_cons]
    rcases lt_trichotomy b a with h | h | h
    · rw [if_neg (by omega), if_neg (by omega), if_neg (by omega)]
    · subst h
      rw [if_neg (by omega), if_pos rfl, if_pos (by omega)]
      simp
    · by_cases hb : b < a + 1 + vs.length
      · rw [if_pos (by omega), if_pos (by omega)]
        obtain ⟨d, rfl⟩ : ∃ d, b = a + 1 + d := ⟨b - (a + 1), by omega⟩
        have h1 : a + 1 + d - (a + 1) = d := by omega
        have h2 : a + 1 + d - a = d + 1 := by omega
        rw [h1, h2, List.getD_cons_succ]
      · rw [if_neg (by omega), if_neg (by omega), if_neg (by omega)]

end Sys2Proof.Machine
end

