-- ==== Sys2Proof/Laws/Split.lean ====
section
/-! SUPPORT. The SPLIT pass: what routing one block does, what the block loop has done after each block, and what
the concatenation does. -/

namespace Sys2Proof.Machine

/-! ### Routing -/

/-- Routing a run of transposed bytes to distinct planes (R77). -/
theorem State.routeList_eq (tok : Token) (t : Block) (l : List (Fin 8)) (hl : (l.map tok.get).Nodup) (s : State) :
    l.foldl (fun s j => s.appendPlane (tok.get j) (t.get j)) s =
      { s with
        pm := s.pm.writeAll (l.map fun j => (pmKey (tok.get j).val (s.plen.get (tok.get j)), t.get j))
        plen := Vector.ofFn fun k => if k ∈ l.map tok.get then s.plen.get k + 1 else s.plen.get k } := by
  induction l generalizing s with
  | nil =>
    simp only [List.foldl_nil, List.map_nil, Store.writeAll_nil, List.not_mem_nil, if_false]
    rw [ofFn_get8]
  | cons j l ih =>
    simp only [List.map_cons, List.nodup_cons] at hl
    rw [List.foldl_cons, ih hl.2]
    have hget : ∀ k, (s.appendPlane (tok.get j) (t.get j)).plen.get k =
        if k = tok.get j then s.plen.get k + 1 else s.plen.get k := by
      intro k
      rw [State.appendPlane_plen, get_set8]
      by_cases h : k = tok.get j
      · rw [if_pos h, if_pos h, h]
      · rw [if_neg h, if_neg h]
    have hne : ∀ i ∈ l, tok.get i ≠ tok.get j := fun i hi e => hl.1 (e ▸ List.mem_map_of_mem hi)
    have hcells : (l.map fun i => (pmKey (tok.get i).val ((s.appendPlane (tok.get j) (t.get j)).plen.get (tok.get i)), t.get i))
        = l.map fun i => (pmKey (tok.get i).val (s.plen.get (tok.get i)), t.get i) := by
      refine List.map_congr_left fun i hi => ?_
      rw [hget, if_neg (hne i hi)]
    rw [hcells]
    have hplen : (Vector.ofFn fun k : Fin 8 =>
        if k ∈ l.map tok.get then (s.appendPlane (tok.get j) (t.get j)).plen.get k + 1
        else (s.appendPlane (tok.get j) (t.get j)).plen.get k)
        = Vector.ofFn fun k => if k ∈ (j :: l).map tok.get then s.plen.get k + 1 else s.plen.get k := by
      congr 1
      funext k
      rw [hget]
      by_cases hk : k = tok.get j
      · have : k ∉ l.map tok.get := hk ▸ hl.1
        simp [hk, hl.1]
      · simp [hk]
    rw [hplen]
    rfl

/-- The plane cells that block `B` writes (R77, R98): transposed byte `j` at offset `B` of plane `tok[j]`. -/
def blockCells (tok : Token) (t : Block) (B : Nat) : List Host.Cell :=
  (List.finRange 8).map fun j => (pmKey (tok.get j).val B, t.get j)

/-- Routing a block when every plane has length `B` (R77): one byte to each plane, at offset `B`. -/
theorem State.route_eq {tok : Token} (hv : tokenValid tok = true) (t : Block) {s : State} {B : Nat}
    (hp : s.plen = Vector.replicate 8 B) :
    s.route tok t =
      { s with pm := s.pm.writeAll (blockCells tok t B), plen := Vector.replicate 8 (B + 1) } := by
  have hinj := tokenValid_injective hv
  have hnd : ((List.finRange 8).map tok.get).Nodup := (List.nodup_finRange 8).map hinj
  have hget : ∀ k, s.plen.get k = B := fun k => by rw [hp, get_replicate8]
  rw [State.route, State.routeList_eq tok t _ hnd]
  have hmem : ∀ k, k ∈ (List.finRange 8).map tok.get := fun k =>
    List.mem_map.2 ((tokenValid_surjective hv k).imp fun j h => ⟨List.mem_finRange j, h⟩)
  congr 1
  · simp only [hget, blockCells]
  · refine ext_get8 fun k => ?_
    rw [Vector.get_ofFn, if_pos (hmem k), hget, get_replicate8]

/-- `EmitBlock()` with a valid token (R98). -/
theorem State.emitBlock_valid {s : State} {B : Nat} (hv : tokenValid (s.tokenAt s.n) = true)
    (hp : s.plen = Vector.replicate 8 B) :
    s.emitBlock = .ok { s with
      n := s.n + 1
      pm := s.pm.writeAll (blockCells (s.tokenAt s.n) (transpose s.blk) B)
      plen := Vector.replicate 8 (B + 1) } := by
  unfold State.emitBlock
  rw [State.nextToken_eq, if_pos hv]
  simp only
  rw [State.route_eq (s := { s with n := s.n + 1 }) hv _ hp]

/-- `EmitBlock()` with an invalid token raises BAD_TOKEN (R76). -/
theorem State.emitBlock_invalid {s : State} (hv : tokenValid (s.tokenAt s.n) = false) :
    s.emitBlock = .error ⟨.badToken, s.progEv⟩ := by
  unfold State.emitBlock
  rw [State.nextToken_eq, if_neg (by simp [hv])]

/-! ### What the block loop has done -/

/-- The state of a SPLIT begun in `s0` once `B` blocks have been emitted, the header (if any) included. -/
structure SplitAt (s0 : State) (pe : Bool) (ib : List Byte) (filler : Nat → Byte) (L B : Nat) (s : State) : Prop where
  outside : s.outsidePass = s0.outsidePass
  n : s.n = s0.n + B
  plen : s.plen = Vector.replicate 8 B
  ppos : s.ppos = Vector.replicate 8 0
  ipos : s.ipos = if B = 0 then 0 else splitReadThrough L (B - 1)
  routed : ∀ b < B, ∀ j : Fin 8,
    s.readPM ((s0.tokenAt (s0.n + b)).get j).val b = (transpose (splitBlockOf ib filler L b)).get j
  kept : ∀ a, (∀ k < 8, ∀ o < B, a ≠ pmKey k o) → s.pm.read a = s0.pm.read a
  pmWf : s0.pm.wf → s.pm.wf
  pmCells : ∀ c ∈ s.pm.cells, c ∈ s0.pm.cells ∨ ∃ k o, k < 8 ∧ o < B ∧ c.1 = pmKey k o
  silent : pe = false → s.progress = s0.progress ∧ s.progEv = s0.progEv

/-- A report changes nothing that `SplitAt` speaks of, when it is enabled. -/
theorem SplitAt.report {s0 s : State} {pe : Bool} {ib : List Byte} {filler : Nat → Byte} {L B : Nat}
    (h : SplitAt s0 pe ib filler L B s) (phase : Phase) (c U : Nat) :
    SplitAt s0 pe ib filler L B (s.report pe phase c U) := by
  obtain ⟨hpm, -, hplen, hppos, -, hipos, -, hn⟩ := s.report_fields pe phase c U
  exact
    { outside := (s.report_outsidePass pe phase c U).trans h.outside
      n := hn.trans h.n
      plen := hplen.trans h.plen
      ppos := hppos.trans h.ppos
      ipos := hipos.trans h.ipos
      routed := fun b hb j => by
        rw [State.readPM, hpm]; exact h.routed b hb j
      kept := fun a ha => by rw [hpm]; exact h.kept a ha
      pmWf := fun h0 => by rw [hpm]; exact h.pmWf h0
      pmCells := fun c hc => by rw [hpm] at hc; exact h.pmCells c hc
      silent := fun hpe => by subst hpe; exact h.silent rfl }

/-- Emitting block `B`: `s1` is the state after its assembly (R98). -/
theorem SplitAt.emit {s0 s s1 : State} {pe : Bool} {ib : List Byte} {filler : Nat → Byte} {L B : Nat}
    (h : SplitAt s0 pe ib filler L B s) (hB : B < 2 ^ 29) (hv : tokenValid (s0.tokenAt (s0.n + B)) = true)
    (ho : s1.outsidePass = s.outsidePass) (hn : s1.n = s.n) (hplen : s1.plen = s.plen) (hppos : s1.ppos = s.ppos)
    (hpm : s1.pm = s.pm) (hp : s1.progress = s.progress ∧ s1.progEv = s.progEv)
    (hblk : s1.blk = splitBlockOf ib filler L B) (hipos : s1.ipos = splitReadThrough L B) :
    ∃ t, s1.emitBlock = .ok t ∧ SplitAt s0 pe ib filler L (B + 1) t ∧ t.ob = s1.ob ∧ t.opos = s1.opos := by
  have htok : s1.tokenAt s1.n = s0.tokenAt (s0.n + B) := by
    rw [State.tokenAt_congr (ho.trans h.outside), hn, h.n]
  refine ⟨_, State.emitBlock_valid (B := B) (htok ▸ hv) (hplen.trans h.plen), ?_, rfl, rfl⟩
  rw [htok, hblk]
  have hcells : ∀ c ∈ blockCells (s0.tokenAt (s0.n + B)) (transpose (splitBlockOf ib filler L B)) B,
      ∃ j : Fin 8, c = (pmKey ((s0.tokenAt (s0.n + B)).get j).val B, (transpose (splitBlockOf ib filler L B)).get j) := by
    intro c hc
    obtain ⟨j, -, rfl⟩ := List.mem_map.1 hc
    exact ⟨j, rfl⟩
  exact
    { outside := ho.trans h.outside
      n := by show s1.n + 1 = _; rw [hn, h.n]; omega
      plen := rfl
      ppos := hppos.trans h.ppos
      ipos := by simpa using hipos
      routed := by
        intro b hb j
        show (s1.pm.writeAll _).read _ = _
        rcases Nat.lt_succ_iff_lt_or_eq.1 hb with hlt | rfl
        · rw [Store.read_writeAll_other, hpm]
          · exact h.routed b hlt j
          · intro c hc heq
            obtain ⟨i, rfl⟩ := hcells c hc
            have := (pmKey_inj hB (by omega) heq).2
            omega
        · refine Store.read_writeAll_mem
            (c := (pmKey ((s0.tokenAt (s0.n + b)).get j).val b, (transpose (splitBlockOf ib filler L b)).get j))
            (List.mem_map.2 ⟨j, List.mem_finRange j, rfl⟩) ?_
          simp only [blockCells, List.map_map]
          refine (List.nodup_finRange 8).map fun i k hik => ?_
          have := (pmKey_inj hB hB hik).1
          exact tokenValid_injective hv (Fin.ext this)
      kept := by
        intro a ha
        show (s1.pm.writeAll _).read _ = _
        rw [Store.read_writeAll_other, hpm]
        · exact h.kept a fun k hk o ho => ha k hk o (by omega)
        · intro c hc heq
          obtain ⟨i, rfl⟩ := hcells c hc
          exact ha _ (Fin.is_lt _) B (by omega) heq.symm
      pmWf := fun h0 => Store.wf_writeAll (hpm ▸ h.pmWf h0) _
      pmCells := by
        intro c hc
        rcases Store.mem_cells_writeAll hc with hc | hc
        · obtain ⟨i, rfl⟩ := hcells c hc
          exact .inr ⟨_, B, Fin.is_lt _, Nat.lt_succ_self B, rfl⟩
        · rw [hpm] at hc
          exact (h.pmCells c hc).imp id fun ⟨k, o, hk, ho, e⟩ => ⟨k, o, hk, by omega, e⟩
      silent := fun hpe => ⟨hp.1.trans (h.silent hpe).1, hp.2.trans (h.silent hpe).2⟩ }

/-! ### Assembly -/

/-- Assembly of a block that IB delivers (R96, R97). -/
theorem State.assemble_ok {s : State} {ib : List Byte} {count : Nat} (filler : Nat → Byte)
    (h : s.ipos + count ≤ ib.length) :
    s.assemble ib filler count = .ok { s with
      blk := Vector.ofFn fun slot => if slot.val < count then ib.getD (s.ipos + slot.val) 0#8 else filler slot.val
      ipos := s.ipos + count } := if_pos h

/-- Assembly past the end of IB raises TRUNCATED_READ (R42). -/
theorem State.assemble_error {s : State} {ib : List Byte} {count : Nat} (filler : Nat → Byte)
    (h : ib.length < s.ipos + count) : s.assemble ib filler count = .error ⟨.truncatedRead, s.progEv⟩ :=
  if_neg (by omega)

/-- The block assembled first, when there is a remainder (R96). -/
theorem remainderBlock_eq {ib : List Byte} {filler : Nat → Byte} {L : Nat} (h : L % 8 ≠ 0) :
    (Vector.ofFn fun slot : Fin 8 => if slot.val < L % 8 then ib.getD (0 + slot.val) 0#8 else filler slot.val) =
      splitBlockOf ib filler L 0 := by
  refine ext_get8 fun k => ?_
  simp [splitBlockOf, h]

/-- A full block assembled where the earlier blocks stopped reading (R97). -/
theorem fullBlock_eq {ib : List Byte} {filler : Nat → Byte} {L B : Nat} (hB : (splitSize L).header ≤ B) :
    (Vector.ofFn fun slot : Fin 8 =>
      if slot.val < 8 then ib.getD ((if B = 0 then 0 else splitReadThrough L (B - 1)) + slot.val) 0#8 else 0#8) =
      splitBlockOf ib filler L B := by
  refine ext_get8 fun k => ?_
  simp only [Vector.get_ofFn, splitBlockOf, splitReadThrough, if_pos k.isLt]
  simp only [splitSize] at hB
  by_cases hr : L % 8 = 0
  · by_cases h0 : B = 0
    · simp [hr, h0]
    · have : B - 1 + 1 = B := by omega
      simp [hr, h0, this]
  · have h0 : B ≠ 0 := by simp [hr] at hB; omega
    simp [hr, h0]

/-- The blocks read on from where the earlier ones stopped (R97). -/
theorem readThrough_step {L B : Nat} (hB : (splitSize L).header ≤ B) :
    (if B = 0 then 0 else splitReadThrough L (B - 1)) + 8 = splitReadThrough L B := by
  simp only [splitSize] at hB
  unfold splitReadThrough
  split_ifs at * <;> omega

/-- One full block of step 2 (R97, R98). -/
theorem SplitAt.splitBlock {s0 s : State} {pe : Bool} {ib : List Byte} {filler : Nat → Byte} {L b : Nat}
    (h : SplitAt s0 pe ib filler L ((splitSize L).header + b) s) (hB : (splitSize L).header + b < 2 ^ 29)
    (hv : tokenValid (s0.tokenAt (s0.n + ((splitSize L).header + b))) = true)
    (hib : splitReadThrough L ((splitSize L).header + b) ≤ ib.length) :
    ∃ t, s.splitBlock pe (splitSize L) ib b = .ok t ∧
      SplitAt s0 pe ib filler L ((splitSize L).header + (b + 1)) t ∧ t.ob = s.ob ∧ t.opos = s.opos := by
  have hle : (splitSize L).header ≤ (splitSize L).header + b := Nat.le_add_right _ _
  have hip : s.ipos + 8 = splitReadThrough L ((splitSize L).header + b) := by
    rw [h.ipos]; exact readThrough_step hle
  unfold State.splitBlock
  rw [State.assemble_ok _ (by omega)]
  obtain ⟨t, ht, hS, hob, hop⟩ := h.emit (s1 := { s with
      blk := Vector.ofFn fun slot : Fin 8 => if slot.val < 8 then ib.getD (s.ipos + slot.val) 0#8 else 0#8
      ipos := s.ipos + 8 }) hB hv rfl rfl rfl rfl rfl ⟨rfl, rfl⟩ (by rw [h.ipos]; exact fullBlock_eq hle) hip
  refine ⟨_, ?_, hS.report .route ((splitSize L).header + b + 1) (splitSize L).planes, ?_, ?_⟩
  · show (State.emitBlock _ >>= _) = _
    rw [ht]; rfl
  · exact (State.report_fields _ _ _ _ _).2.1.trans hob
  · exact (State.report_fields _ _ _ _ _).2.2.2.2.2.2.1.trans hop

/-- Step 1 (R94 to R96) from the start of a pass: the header byte and the remainder block, if any. -/
theorem splitRemainder_ok {s0 : State} {pe : Bool} {ib : List Byte} {filler : Nat → Byte} {L : Nat} (h : Byte)
    (hv : L % 8 ≠ 0 → tokenValid (s0.tokenAt s0.n) = true) (hib : L % 8 ≤ ib.length) :
    ∃ t, State.splitRemainder pe (splitSize L) ib h filler (s0.startPass 0) = .ok t ∧
      SplitAt s0 pe ib filler L (splitSize L).header t ∧
      t.ob = (if L % 8 = 0 then s0.ob else s0.ob.write 0 h) ∧ t.opos = (splitSize L).header := by
  have hstart : SplitAt s0 pe ib filler L 0 (s0.startPass 0) :=
    { outside := rfl
      n := rfl
      plen := rfl
      ppos := rfl
      ipos := rfl
      routed := fun b hb => absurd hb (Nat.not_lt_zero b)
      kept := fun _ _ => rfl
      pmWf := fun h0 => h0
      pmCells := fun c hc => .inl hc
      silent := fun _ => ⟨rfl, rfl⟩ }
  unfold State.splitRemainder
  by_cases hr : L % 8 = 0
  · have hz : (splitSize L).rem = 0 := hr
    have hh : (splitSize L).header = 0 := by simp [splitSize, hr]
    rw [if_pos hz, hh, if_pos hr]
    exact ⟨_, rfl, hstart, rfl, rfl⟩
  · have hz : (splitSize L).rem ≠ 0 := hr
    have hh : (splitSize L).header = 1 := by simp [splitSize, hr]
    rw [if_neg hz, hh, if_neg hr]
    have hzr : (splitSize L).rem = L % 8 := rfl
    rw [State.assemble_ok filler (by simpa [hzr] using hib)]
    obtain ⟨t, ht, hS, hob, hop⟩ := hstart.emit (s1 := { ((s0.startPass 0).emitOB h) with
        blk := Vector.ofFn fun slot : Fin 8 =>
          if slot.val < (splitSize L).rem then ib.getD (0 + slot.val) 0#8 else filler slot.val
        ipos := 0 + (splitSize L).rem }) (by norm_num) (by simpa using hv hr) rfl rfl rfl rfl rfl ⟨rfl, rfl⟩
        (remainderBlock_eq hr) (by simp [splitReadThrough, hr, hzr])
    refine ⟨_, ?_, hS.report .route 1 (splitSize L).planes, ?_, ?_⟩
    · show (State.emitBlock _ >>= _) = _
      rw [show ({ ((s0.startPass 0).emitOB h) with
        blk := Vector.ofFn fun slot : Fin 8 =>
          if slot.val < (splitSize L).rem then ib.getD (((s0.startPass 0).emitOB h).ipos + slot.val) 0#8 else filler slot.val
        ipos := ((s0.startPass 0).emitOB h).ipos + (splitSize L).rem } : State).emitBlock = .ok t from ht]
      rfl
    · exact (State.report_fields _ _ _ _ _).2.1.trans hob
    · exact (State.report_fields _ _ _ _ _).2.2.2.2.2.2.1.trans hop

/-! ### Concatenation -/

/-- Copying a plane's bytes emits them one after another (R99). -/
theorem copyPlane_eq (k : Nat) (l : List Nat) (s : State) :
    l.foldl (fun s o => s.emitOB (s.readPM k o)) s = (l.map (s.readPM k)).foldl (fun s v => s.emitOB v) s := by
  induction l generalizing s with
  | nil => rfl
  | cons o l ih => rw [List.foldl_cons, ih]; rfl

/-- The state after `k` planes have been concatenated onto OB from offset `H`, from state `s1` (R99). -/
structure ConcatAt (s1 : State) (pe : Bool) (H P k : Nat) (s : State) : Prop where
  outside : s.outsidePass = s1.outsidePass
  same : s.pm = s1.pm ∧ s.plen = s1.plen ∧ s.ppos = s1.ppos ∧ s.n = s1.n
  opos : s.opos = H + k * P
  copied : ∀ k' < k, ∀ o < P, s.ob.read (H + k' * P + o) = s1.readPM k' o
  kept : ∀ a, a < H ∨ H + k * P ≤ a → s.ob.read a = s1.ob.read a
  obWf : s1.ob.wf → s.ob.wf
  obCells : ∀ c ∈ s.ob.cells, c ∈ s1.ob.cells ∨ c.1 < H + k * P
  silent : pe = false → s.progress = s1.progress ∧ s.progEv = s1.progEv

/-- Concatenating one more plane (R99). -/
theorem ConcatAt.concatPlane {s1 s : State} {pe : Bool} {z : PassSize} {H : Nat} (k : Fin 8)
    (h : ConcatAt s1 pe H z.planes k.val s) : ConcatAt s1 pe H z.planes (k.val + 1) (s.concatPlane pe z k) := by
  have hpm : s.readPM k.val = s1.readPM k.val := by
    funext o; rw [State.readPM, State.readPM, h.same.1]
  have hlen : ((List.range z.planes).map (s.readPM k.val)).length = z.planes := by simp
  unfold State.concatPlane
  rw [copyPlane_eq, State.emitAll_eq, hlen]
  generalize hu : ({ s with
    ob := s.ob.writeAll (runCells s.opos ((List.range z.planes).map (s.readPM k.val)))
    opos := s.opos + z.planes } : State) = u
  have hub : u.ob = s.ob.writeAll (runCells s.opos ((List.range z.planes).map (s.readPM k.val))) := by rw [← hu]
  have huo : u.opos = s.opos + z.planes := by rw [← hu]
  have hup : u.progress = s.progress ∧ u.progEv = s.progEv := by rw [← hu]; exact ⟨rfl, rfl⟩
  have hout : u.outsidePass = s1.outsidePass := by rw [← hu]; exact h.outside
  have hus : u.pm = s1.pm ∧ u.plen = s1.plen ∧ u.ppos = s1.ppos ∧ u.n = s1.n := by rw [← hu]; exact h.same
  obtain ⟨hpm', hob, hplen, hppos, -, -, hop, hn⟩ := u.report_fields pe .concat (k.val + 1) 8
  have hmul : (k.val + 1) * z.planes = k.val * z.planes + z.planes := Nat.succ_mul _ _
  refine ⟨(u.report_outsidePass _ _ _ _).trans hout, ?_, ?_, ?_, ?_, ?_, ?_, ?_⟩
  · exact ⟨hpm'.trans hus.1, hplen.trans hus.2.1, hppos.trans hus.2.2.1, hn.trans hus.2.2.2⟩
  · rw [hop, huo, h.opos, hmul]; omega
  · intro k' hk' o ho
    rw [hob, hub, Store.read_writeRun, hlen, h.opos]
    rcases Nat.lt_succ_iff_lt_or_eq.1 hk' with hlt | rfl
    · have : k' * z.planes + z.planes ≤ k.val * z.planes := by
        rw [← Nat.succ_mul]; exact Nat.mul_le_mul_right _ hlt
      rw [if_neg (by omega)]
      exact h.copied k' hlt o ho
    · rw [if_pos (by omega)]
      have : H + k.val * z.planes + o - (H + k.val * z.planes) = o := by omega
      rw [this, List.getD_eq_getElem?_getD, List.getElem?_map, List.getElem?_range ho, hpm]
      rfl
  · intro a ha
    rw [hmul] at ha
    rw [hob, hub, Store.read_writeRun, hlen, h.opos, if_neg (by omega)]
    exact h.kept a (by omega)
  · intro h0
    rw [hob, hub]
    exact Store.wf_writeAll (h.obWf h0) _
  · intro c hc
    rw [hob, hub] at hc
    rw [hmul]
    rcases Store.mem_cells_writeAll hc with hc | hc
    · have := mem_runCells hc
      rw [hlen, h.opos] at this
      exact .inr (by omega)
    · exact (h.obCells c hc).imp id fun hlt => by omega
  · intro hpe
    subst hpe
    exact ⟨hup.1.trans (h.silent rfl).1, hup.2.trans (h.silent rfl).2⟩

/-! ### The whole pass -/

/-- The counts of a SPLIT of `L` bytes (R93). -/
theorem splitSize_counts (L : Nat) :
    (splitSize L).rem = L % 8 ∧ (splitSize L).header = (if L % 8 = 0 then 0 else 1) ∧
    (splitSize L).planes = L / 8 + (splitSize L).header ∧
    (splitSize L).out = (splitSize L).header + 8 * (splitSize L).planes ∧
    (splitSize L).tokens = (splitSize L).planes := by
  refine ⟨rfl, ?_, rfl, rfl, rfl⟩
  simp only [splitSize]; split_ifs <;> simp_all

/-- A pass of at most 2^32 - 1 bytes has at most 2^29 blocks (R7, C12). -/
theorem splitSize_planes_le {L : Nat} (hL : L < 2 ^ 32) : (splitSize L).planes ≤ 2 ^ 29 := by
  obtain ⟨-, hh, hp, -, -⟩ := splitSize_counts L
  split_ifs at hh <;> omega

/-- A block of the pass lies within its input (R97). -/
theorem readThrough_le {L b : Nat} (hb : b < (splitSize L).planes) : splitReadThrough L b ≤ L := by
  obtain ⟨-, hh, hp, -, -⟩ := splitSize_counts L
  unfold splitReadThrough
  split_ifs at * <;> omega

/-- What a successful SPLIT pass of `L` bytes begun in `s0` has done (R93 to R102). -/
structure SplitDone (s0 : State) (pe : Bool) (ib : List Byte) (noise : Byte) (filler : Nat → Byte) (L : Nat)
    (t : State) : Prop where
  outside : t.outsidePass = s0.outsidePass
  n : t.n = s0.n + (splitSize L).planes
  plen : t.plen = Vector.replicate 8 (splitSize L).planes
  quiet : t.blk = Vector.replicate 8 0#8 ∧ t.ipos = 0 ∧ t.opos = 0 ∧ t.ppos = Vector.replicate 8 0
  outLen : t.outLen = BitVec.ofNat 32 (splitSize L).out
  planeLen : t.planeLen = BitVec.ofNat 32 (splitSize L).planes
  hdr : t.hdr = passHdr (splitSize L) (headerByte noise (L % 8))
  routed : ∀ b < (splitSize L).planes, ∀ j : Fin 8,
    t.readPM ((s0.tokenAt (s0.n + b)).get j).val b = (transpose (splitBlockOf ib filler L b)).get j
  keptPM : ∀ a, (∀ k < 8, ∀ o < (splitSize L).planes, a ≠ pmKey k o) → t.pm.read a = s0.pm.read a
  headerOut : L % 8 ≠ 0 → t.ob.read 0 = headerByte noise (L % 8)
  planesOut : ∀ k < 8, ∀ o < (splitSize L).planes,
    t.ob.read ((splitSize L).header + k * (splitSize L).planes + o) = t.readPM k o
  keptOB : ∀ a, (splitSize L).out ≤ a → t.ob.read a = s0.ob.read a
  memories : (s0.pm.wf → t.pm.wf) ∧ (s0.ob.wf → t.ob.wf)
  pmCells : ∀ c ∈ t.pm.cells, c ∈ s0.pm.cells ∨ ∃ k o, k < 8 ∧ o < (splitSize L).planes ∧ c.1 = pmKey k o
  obCells : ∀ c ∈ t.ob.cells, c ∈ s0.ob.cells ∨ c.1 < (splitSize L).out
  progress : t.progress = if pe then ⟨100#7, false, .concat⟩ else s0.progress
  silent : pe = false → t.progEv = s0.progEv

/-- The SPLIT pass runs to its end when it fits, IB delivers its bytes and its tokens are permutations (R94). -/
theorem splitPass_ok {s0 : State} (pe : Bool) {ib : List Byte} (noise : Byte) (filler : Nat → Byte) {L : Nat}
    (hL : L < 2 ^ 32) (hfit : (splitSize L).tooBig s0.params = false) (hib : L ≤ ib.length)
    (hv : s0.tokensValid s0.n (splitSize L).planes) :
    ∃ t, s0.splitPass pe (splitSize L) ib noise filler = .ok t ∧ SplitDone s0 pe ib noise filler L t := by
  obtain ⟨hrem, hh, hp, hout, -⟩ := splitSize_counts L
  have hP := splitSize_planes_le hL
  unfold State.splitPass
  rw [if_neg (by simp [hfit])]
  obtain ⟨s1, e1, h1, hob1, hop1⟩ := splitRemainder_ok (s0 := s0) (pe := pe) (ib := ib) (filler := filler) (L := L)
    (headerByte noise (splitSize L).rem)
    (fun hr => by
      have : 0 < (splitSize L).planes := by rw [hp, hh, if_neg hr]; omega
      simpa [Nat.add_zero] using hv 0 this)
    (le_trans (Nat.mod_le L 8) hib)
  obtain ⟨s2, e2, h2, hob2, hop2⟩ := foldlM_range_ok (State.splitBlock pe (splitSize L) ib)
    (fun b s => SplitAt s0 pe ib filler L ((splitSize L).header + b) s ∧ s.ob = s1.ob ∧ s.opos = s1.opos)
    ((splitSize L).planes - (splitSize L).header)
    (fun b hb s hs => by
      have hlt : (splitSize L).header + b < (splitSize L).planes := by omega
      obtain ⟨t, ht, hS, ho, hop⟩ := hs.1.splitBlock (by omega) (hv _ hlt) (le_trans (readThrough_le hlt) hib)
      exact ⟨t, ht, hS, ho.trans hs.2.1, hop.trans hs.2.2⟩)
    (s := s1) ⟨h1, rfl, rfl⟩
  have hplanes : (splitSize L).header + ((splitSize L).planes - (splitSize L).header) = (splitSize L).planes := by
    omega
  rw [hplanes] at h2
  generalize hs3 : (if (splitSize L).planes = 0 then s2.report pe .route 0 0 else s2) = s3
  have h3 : SplitAt s0 pe ib filler L (splitSize L).planes s3 := by
    rw [← hs3]; split
    · exact h2.report _ _ _
    · exact h2
  have hob3 : s3.ob = s2.ob := by
    rw [← hs3]; split
    · exact (State.report_fields _ _ _ _ _).2.1
    · rfl
  have hop3 : s3.opos = s2.opos := by
    rw [← hs3]; split
    · exact (State.report_fields _ _ _ _ _).2.2.2.2.2.2.1
    · rfl
  have h4 := foldl_fin8 (State.concatPlane pe (splitSize L))
    (ConcatAt s3 pe (splitSize L).header (splitSize L).planes) (fun k s h => h.concatPlane k) (s := s3)
    { outside := rfl
      same := ⟨rfl, rfl, rfl, rfl⟩
      opos := by rw [hop3, hop2, hop1]; omega
      copied := fun k hk => absurd hk (Nat.not_lt_zero k)
      kept := fun _ _ => rfl
      obWf := fun h0 => h0
      obCells := fun c hc => .inl hc
      silent := fun _ => ⟨rfl, rfl⟩ }
  generalize hs4 : (List.finRange 8).foldl (State.concatPlane pe (splitSize L)) s3 = s4 at h4
  have hprog : pe = true → s4.progress = ⟨100#7, false, .concat⟩ := by
    intro hpe
    have hfin : List.finRange 8 = [0, 1, 2, 3, 4, 5, 6] ++ [7] := by decide
    rw [← hs4, hfin, List.foldl_append, List.foldl_cons, List.foldl_nil, State.concatPlane, hpe]
    show (State.report true .concat 8 8 _).progress = _
    rw [State.report_last]; rfl
  refine ⟨(s4.passResults (splitSize L) (headerByte noise (splitSize L).rem)).endOfPass, ?_, ?_⟩
  · rw [e1]
    show ((List.range _).foldlM (State.splitBlock pe (splitSize L) ib) s1 >>= _) = _
    rw [e2]
    show Except.ok _ = _
    rw [State.concatenate, hs3, hs4]
  · have hpm : ∀ k o, s4.readPM k o = s3.readPM k o := fun k o => by rw [State.readPM, State.readPM, h4.same.1]
    have hopos : s4.opos = (splitSize L).out := by rw [h4.opos, hout]
    exact
      { outside := h4.outside.trans h3.outside
        n := h4.same.2.2.2.trans h3.n
        plen := h4.same.2.1.trans h3.plen
        quiet := ⟨rfl, rfl, rfl, rfl⟩
        outLen := by show BitVec.ofNat 32 s4.opos = _; rw [hopos]
        planeLen := rfl
        hdr := rfl
        routed := fun b hb j => (hpm _ _).trans (h3.routed b hb j)
        keptPM := fun a ha => by
          show s4.pm.read a = _
          rw [h4.same.1]; exact h3.kept a ha
        headerOut := by
          intro hr
          show s4.ob.read 0 = _
          rw [h4.kept 0 (.inl (by rw [hh, if_neg hr]; omega)), hob3, hob2, hob1, if_neg hr, Store.read_write_same, hrem]
        planesOut := fun k hk o ho => by
          show s4.ob.read _ = s4.readPM k o
          rw [h4.copied k hk o ho, hpm]
        keptOB := by
          intro a ha
          show s4.ob.read a = _
          rw [h4.kept a (.inr (by omega)), hob3, hob2, hob1]
          split
          · rfl
          · rename_i hr
            refine Store.read_write_other _ _ ?_
            rw [hout, hh, if_neg hr] at ha
            omega
        memories := by
          refine ⟨fun h0 => ?_, fun h0 => h4.obWf ?_⟩
          · show s4.pm.wf
            rw [h4.same.1]; exact h3.pmWf h0
          · rw [hob3, hob2, hob1]
            split
            · exact h0
            · exact Store.wf_write h0 _ _
        pmCells := fun c hc => by
          change c ∈ s4.pm.cells at hc
          rw [h4.same.1] at hc
          exact h3.pmCells c hc
        obCells := by
          intro c hc
          rcases h4.obCells c hc with hc | hc
          · rw [hob3, hob2, hob1] at hc
            split at hc
            · exact .inl hc
            · rename_i hr
              rcases Store.mem_cells_write hc with rfl | hc
              · right
                show 0 < _
                rw [hout, hh, if_neg hr]; omega
              · exact .inl hc
          · exact .inr (by omega)
        progress := by
          show s4.progress = _
          cases pe
          · exact (h4.silent rfl).1.trans (h3.silent rfl).1
          · exact hprog rfl
        silent := fun hpe => (h4.silent hpe).2.trans (h3.silent hpe).2 }

/-! ### How the pass can end -/

/-- A full block that IB does not deliver raises TRUNCATED_READ, before its token (R137). -/
theorem SplitAt.splitBlock_truncated {s0 s : State} {pe : Bool} {ib : List Byte} {filler : Nat → Byte} {L b : Nat}
    (h : SplitAt s0 pe ib filler L ((splitSize L).header + b) s)
    (hib : ib.length < splitReadThrough L ((splitSize L).header + b)) :
    s.splitBlock pe (splitSize L) ib b = .error ⟨.truncatedRead, s.progEv⟩ := by
  have hip : s.ipos + 8 = splitReadThrough L ((splitSize L).header + b) := by
    rw [h.ipos]; exact readThrough_step (Nat.le_add_right _ _)
  unfold State.splitBlock
  rw [State.assemble_error _ (by omega)]
  rfl

/-- A full block that is delivered but whose token is no permutation raises BAD_TOKEN (R76). -/
theorem SplitAt.splitBlock_badToken {s0 s : State} {pe : Bool} {ib : List Byte} {filler : Nat → Byte} {L b : Nat}
    (h : SplitAt s0 pe ib filler L ((splitSize L).header + b) s)
    (hv : tokenValid (s0.tokenAt (s0.n + ((splitSize L).header + b))) = false)
    (hib : splitReadThrough L ((splitSize L).header + b) ≤ ib.length) :
    s.splitBlock pe (splitSize L) ib b = .error ⟨.badToken, s.progEv⟩ := by
  have hip : s.ipos + 8 = splitReadThrough L ((splitSize L).header + b) := by
    rw [h.ipos]; exact readThrough_step (Nat.le_add_right _ _)
  unfold State.splitBlock
  rw [State.assemble_ok _ (by omega)]
  generalize hu : ({ s with
    blk := Vector.ofFn fun slot : Fin 8 => if slot.val < 8 then ib.getD (s.ipos + slot.val) 0#8 else 0#8
    ipos := s.ipos + 8 } : State) = u
  have htok : u.tokenAt u.n = s0.tokenAt (s0.n + ((splitSize L).header + b)) := by
    rw [← hu]
    show State.tokenAt _ s.n = _
    rw [h.n]
    exact State.tokenAt_congr h.outside _
  show (u.emitBlock >>= _) = _
  rw [State.emitBlock_invalid (htok ▸ hv), ← hu]
  rfl

/-- Step 1 when the remainder bytes are not delivered (R42), or when its token is no permutation (R76). -/
theorem splitRemainder_error {s0 : State} {pe : Bool} {ib : List Byte} {filler : Nat → Byte} {L : Nat} (h : Byte)
    (hr : L % 8 ≠ 0) :
    (ib.length < L % 8 →
      State.splitRemainder pe (splitSize L) ib h filler (s0.startPass 0) = .error ⟨.truncatedRead, s0.progEv⟩) ∧
    (L % 8 ≤ ib.length → tokenValid (s0.tokenAt s0.n) = false →
      State.splitRemainder pe (splitSize L) ib h filler (s0.startPass 0) = .error ⟨.badToken, s0.progEv⟩) := by
  have hz : (splitSize L).rem ≠ 0 := hr
  have hzr : (splitSize L).rem = L % 8 := rfl
  unfold State.splitRemainder
  rw [if_neg hz]
  constructor
  · intro hlt
    rw [State.assemble_error filler (by show _ < 0 + _; rw [hzr]; omega)]
    rfl
  · intro hle hv
    rw [State.assemble_ok filler (by show 0 + _ ≤ _; rw [hzr]; omega)]
    generalize hu : ({ ((s0.startPass 0).emitOB h) with
      blk := Vector.ofFn fun slot : Fin 8 => if slot.val < (splitSize L).rem then
        ib.getD (((s0.startPass 0).emitOB h).ipos + slot.val) 0#8 else filler slot.val
      ipos := ((s0.startPass 0).emitOB h).ipos + (splitSize L).rem } : State) = u
    have htok : u.tokenAt u.n = s0.tokenAt s0.n := by rw [← hu]; rfl
    show (u.emitBlock >>= _) = _
    rw [State.emitBlock_invalid (htok ▸ hv), ← hu]
    rfl

/-- The blocks of a SPLIT up to, not including, block `B0` are delivered and have permutations as tokens. -/
def splitRunsTo (s0 : State) (ib : List Byte) (L B0 : Nat) : Prop :=
  ∀ b < B0, splitReadThrough L b ≤ ib.length ∧ tokenValid (s0.tokenAt (s0.n + b)) = true

/-- The first block that fails decides the error of the pass (R136, R137). -/
theorem splitPass_fails {s0 : State} (pe : Bool) {ib : List Byte} (noise : Byte) (filler : Nat → Byte) {L B0 : Nat}
    (hL : L < 2 ^ 32) (hfit : (splitSize L).tooBig s0.params = false) (hB : B0 < (splitSize L).planes)
    (hrun : splitRunsTo s0 ib L B0) :
    (ib.length < splitReadThrough L B0 →
      ∃ ev, s0.splitPass pe (splitSize L) ib noise filler = .error ⟨.truncatedRead, ev⟩) ∧
    (splitReadThrough L B0 ≤ ib.length → tokenValid (s0.tokenAt (s0.n + B0)) = false →
      ∃ ev, s0.splitPass pe (splitSize L) ib noise filler = .error ⟨.badToken, ev⟩) := by
  obtain ⟨hrem, hh, hp, -, -⟩ := splitSize_counts L
  have hP := splitSize_planes_le hL
  have hunfold : ∀ r, State.splitRemainder pe (splitSize L) ib (headerByte noise (splitSize L).rem) filler
      (s0.startPass 0) = r → s0.splitPass pe (splitSize L) ib noise filler = (r >>= fun s =>
        (List.range ((splitSize L).planes - (splitSize L).header)).foldlM (State.splitBlock pe (splitSize L) ib) s >>=
        fun s => .ok ((s.concatenate pe (splitSize L)).passResults (splitSize L)
          (headerByte noise (splitSize L).rem)).endOfPass) := by
    intro r hr
    unfold State.splitPass
    rw [if_neg (by simp [hfit]), hr]
  by_cases hfirst : L % 8 ≠ 0 ∧ B0 = 0
  · obtain ⟨hr, rfl⟩ := hfirst
    have hrt : splitReadThrough L 0 = L % 8 := by simp [splitReadThrough, hr]
    obtain ⟨ht, hb⟩ := splitRemainder_error (s0 := s0) (pe := pe) (ib := ib) (filler := filler)
      (headerByte noise (splitSize L).rem) hr
    rw [hrt]
    exact ⟨fun h => ⟨_, hunfold _ (ht h)⟩, fun h hv => ⟨_, hunfold _ (hb h hv)⟩⟩
  · have hle : (splitSize L).header ≤ B0 := by
      rw [hh]; split_ifs with hr
      · omega
      · have : B0 ≠ 0 := fun e => hfirst ⟨hr, e⟩
        omega
    have hr0 : L % 8 ≤ ib.length ∨ L % 8 = 0 := by
      by_cases hr : L % 8 = 0
      · exact .inr hr
      · have h0 : 0 < B0 := Nat.pos_of_ne_zero fun e => hfirst ⟨hr, e⟩
        have := (hrun 0 h0).1
        simp only [splitReadThrough, if_neg hr] at this
        exact .inl (by omega)
    obtain ⟨s1, e1, h1, -, -⟩ := splitRemainder_ok (s0 := s0) (pe := pe) (ib := ib) (filler := filler) (L := L)
      (headerByte noise (splitSize L).rem)
      (fun hr => by
        have h0 : 0 < B0 := Nat.pos_of_ne_zero fun e => hfirst ⟨hr, e⟩
        simpa using (hrun 0 h0).2)
      (by omega)
    have hloop : ∀ {P : Raise → Prop},
        (∀ t, SplitAt s0 pe ib filler L ((splitSize L).header + (B0 - (splitSize L).header)) t →
          ∃ e, t.splitBlock pe (splitSize L) ib (B0 - (splitSize L).header) = .error e ∧ P e) →
        ∃ e, s0.splitPass pe (splitSize L) ib noise filler = .error e ∧ P e := by
      intro P herr
      obtain ⟨e, he, hPe⟩ := foldlM_range_error (State.splitBlock pe (splitSize L) ib)
        (fun b s => SplitAt s0 pe ib filler L ((splitSize L).header + b) s)
        (m := (splitSize L).planes - (splitSize L).header) (b0 := B0 - (splitSize L).header) (by omega)
        (fun b hb s hs => by
          have hlt : (splitSize L).header + b < B0 := by omega
          obtain ⟨t, ht, hS, -, -⟩ := hs.splitBlock (by omega) (hrun _ hlt).2 (hrun _ hlt).1
          exact ⟨t, ht, hS⟩)
        (s := s1) h1 herr
      refine ⟨e, ?_, hPe⟩
      rw [hunfold _ e1]
      show ((List.range _).foldlM (State.splitBlock pe (splitSize L) ib) s1 >>= _) = _
      rw [he]
      rfl
    have hB0 : (splitSize L).header + (B0 - (splitSize L).header) = B0 := by omega
    constructor
    · intro hlt
      obtain ⟨e, he, hc⟩ := hloop (P := fun e => e.code = .truncatedRead) fun t ht =>
        ⟨_, ht.splitBlock_truncated (by rw [hB0]; exact hlt), rfl⟩
      exact ⟨e.events, by rw [he, ← hc]⟩
    · intro hle' hv
      obtain ⟨e, he, hc⟩ := hloop (P := fun e => e.code = .badToken) fun t ht =>
        ⟨_, ht.splitBlock_badToken (by rw [hB0]; exact hv) (by rw [hB0]; exact hle'), rfl⟩
      exact ⟨e.events, by rw [he, ← hc]⟩

/-- Everything the SPLIT pass of `L` bytes can do (R94, R137): CAPACITY; the end; or the error of its first failing
block, TRUNCATED_READ when IB does not deliver the block, else BAD_TOKEN. -/
theorem splitPass_cases {s0 : State} (pe : Bool) (ib : List Byte) (noise : Byte) (filler : Nat → Byte) {L : Nat}
    (hL : L < 2 ^ 32) :
    ((splitSize L).tooBig s0.params = true ∧
      s0.splitPass pe (splitSize L) ib noise filler = .error ⟨.capacity, s0.progEv⟩) ∨
    ((splitSize L).tooBig s0.params = false ∧ splitRunsTo s0 ib L (splitSize L).planes ∧
      ∃ t, s0.splitPass pe (splitSize L) ib noise filler = .ok t ∧ SplitDone s0 pe ib noise filler L t) ∨
    ((splitSize L).tooBig s0.params = false ∧ ∃ B0 < (splitSize L).planes, splitRunsTo s0 ib L B0 ∧
      ((ib.length < splitReadThrough L B0 ∧
        ∃ ev, s0.splitPass pe (splitSize L) ib noise filler = .error ⟨.truncatedRead, ev⟩) ∨
       (splitReadThrough L B0 ≤ ib.length ∧ tokenValid (s0.tokenAt (s0.n + B0)) = false ∧
        ∃ ev, s0.splitPass pe (splitSize L) ib noise filler = .error ⟨.badToken, ev⟩))) := by
  cases hfit : (splitSize L).tooBig s0.params
  · right
    by_cases hall : splitRunsTo s0 ib L (splitSize L).planes
    · left
      refine ⟨rfl, hall, splitPass_ok pe noise filler hL hfit ?_ fun b hb => (hall b hb).2⟩
      obtain ⟨-, hh, hp, -, -⟩ := splitSize_counts L
      by_cases h0 : (splitSize L).planes = 0
      · split_ifs at hh <;> omega
      · have := (hall ((splitSize L).planes - 1) (by omega)).1
        unfold splitReadThrough at this
        split_ifs at * <;> omega
    · right
      refine ⟨rfl, ?_⟩
      classical
      have hex : ∃ b, b < (splitSize L).planes ∧
          ¬(splitReadThrough L b ≤ ib.length ∧ tokenValid (s0.tokenAt (s0.n + b)) = true) := by
        by_contra hno
        exact hall fun b hb => by
          by_contra hc
          exact hno ⟨b, hb, hc⟩
      obtain ⟨hB, hbad⟩ := Nat.find_spec hex
      have hrun : splitRunsTo s0 ib L (Nat.find hex) := fun b hb => by
        by_contra hc
        exact Nat.find_min hex hb ⟨by omega, hc⟩
      obtain ⟨ht, hb⟩ := splitPass_fails pe noise filler hL hfit hB hrun
      refine ⟨_, hB, hrun, ?_⟩
      by_cases hlt : ib.length < splitReadThrough L (Nat.find hex)
      · exact .inl ⟨hlt, ht hlt⟩
      · have hle : splitReadThrough L (Nat.find hex) ≤ ib.length := by omega
        have hv : tokenValid (s0.tokenAt (s0.n + Nat.find hex)) = false := by
          cases hv : tokenValid (s0.tokenAt (s0.n + Nat.find hex))
          · rfl
          · exact absurd ⟨hle, hv⟩ hbad
        exact .inr ⟨hle, hv, hb hle hv⟩
  · left
    refine ⟨rfl, ?_⟩
    unfold State.splitPass
    rw [if_pos hfit]
    rfl

end Sys2Proof.Machine
end

