-- ==== Sys2Proof/Laws/Unsplit.lean ====
section
/-! SUPPORT. The UNSPLIT pass: what the demultiplexer has done after each plane, what gathering and recovering one
block does, and what the whole pass does. -/

namespace Sys2Proof.Machine

/-! ### Demultiplexing -/

/-- The state of an UNSPLIT begun in `s0` once `k` planes of `P` bytes have been filled from IB (R106). -/
structure DemuxAt (s0 : State) (pe : Bool) (ib : List Byte) (H P k : Nat) (s : State) : Prop where
  outside : s.outsidePass = s0.outsidePass
  n : s.n = s0.n
  ob : s.ob = s0.ob
  opos : s.opos = 0
  ppos : s.ppos = Vector.replicate 8 0
  ipos : s.ipos = H + k * P
  plen : ∀ i : Fin 8, i.val < k → s.plen.get i = P
  filled : ∀ k' < k, ∀ o < P, s.readPM k' o = ib.getD (H + k' * P + o) 0#8
  kept : ∀ a, (∀ k < 8, ∀ o < P, a ≠ pmKey k o) → s.pm.read a = s0.pm.read a
  pmWf : s0.pm.wf → s.pm.wf
  pmCells : ∀ c ∈ s.pm.cells, c ∈ s0.pm.cells ∨ ∃ k o, k < 8 ∧ o < P ∧ c.1 = pmKey k o
  silent : pe = false → s.progress = s0.progress ∧ s.progEv = s0.progEv

/-- Inside plane `k`, after `o` bytes, from the state `s1` at its start. -/
structure PlaneAt (s1 : State) (ib : List Byte) (k o : Nat) (s : State) : Prop where
  same : s = { s1 with pm := s.pm, ipos := s.ipos }
  ipos : s.ipos = s1.ipos + o
  filled : ∀ o' < o, s.readPM k o' = ib.getD (s1.ipos + o') 0#8
  kept : ∀ a, (∀ o' < o, a ≠ pmKey k o') → s.pm.read a = s1.pm.read a
  pmWf : s1.pm.wf → s.pm.wf
  pmCells : ∀ c ∈ s.pm.cells, c ∈ s1.pm.cells ∨ ∃ o', o' < o ∧ c.1 = pmKey k o'

/-- One byte of IB into plane `k` (R106). -/
theorem PlaneAt.demuxByte {s1 s : State} {ib : List Byte} {k : Fin 8} {o : Nat} (h : PlaneAt s1 ib k.val o s)
    (ho : o < 2 ^ 29) (hib : s1.ipos + o < ib.length) :
    ∃ t, s.demuxByte ib k o = .ok t ∧ PlaneAt s1 ib k.val (o + 1) t := by
  have hlt : s.ipos < ib.length := by rw [h.ipos]; exact hib
  unfold State.demuxByte
  rw [List.getElem?_eq_getElem hlt]
  refine ⟨_, rfl, ?_⟩
  have hval : ib[s.ipos] = ib.getD (s1.ipos + o) 0#8 := by
    rw [List.getD_eq_getElem?_getD, ← h.ipos, List.getElem?_eq_getElem hlt]; rfl
  refine ⟨?_, ?_, ?_, ?_, fun h0 => Store.wf_write (h.pmWf h0) _ _, fun c hc => ?_⟩
  · have hs := h.same
    generalize s.pm = pm at *
    generalize s.ipos = ip at *
    rw [hs]; rfl
  · show s.ipos + 1 = _
    rw [h.ipos]; omega
  · intro o' ho'
    show (s.pm.write _ _).read _ = _
    rw [Store.read_write]
    rcases Nat.lt_succ_iff_lt_or_eq.1 ho' with hlt' | rfl
    · rw [if_neg]
      · exact h.filled o' hlt'
      · intro e
        have := (pmKey_inj (by omega) ho e).2
        omega
    · rw [if_pos rfl, hval]
  · intro a ha
    show (s.pm.write _ _).read _ = _
    rw [Store.read_write_other _ _ (ha o (by omega))]
    exact h.kept a fun o' ho' => ha o' (by omega)
  · rcases Store.mem_cells_write hc with rfl | hc
    · exact .inr ⟨o, Nat.lt_succ_self o, rfl⟩
    · exact (h.pmCells c hc).imp id fun ⟨o', ho', e⟩ => ⟨o', by omega, e⟩

/-- Filling plane `k` (R104, R106). -/
theorem DemuxAt.demuxPlane {s0 s : State} {pe : Bool} {ib : List Byte} {z : PassSize} {H : Nat} (k : Fin 8)
    (h : DemuxAt s0 pe ib H z.planes k.val s) (hP : z.planes ≤ 2 ^ 29) (hib : H + (k.val * z.planes + z.planes) ≤ ib.length) :
    ∃ t, s.demuxPlane pe z ib k = .ok t ∧ DemuxAt s0 pe ib H z.planes (k.val + 1) t := by
  have hk : k.val * z.planes + z.planes ≤ 8 * z.planes := by
    rw [← Nat.succ_mul]; exact Nat.mul_le_mul_right _ k.isLt
  obtain ⟨u, e, hu⟩ := foldlM_range_ok (State.demuxByte ib k) (PlaneAt s ib k.val) z.planes
    (fun o ho t ht => ht.demuxByte (by omega) (by rw [h.ipos]; omega)) (s := s)
    ⟨rfl, rfl, fun o ho => absurd ho (Nat.not_lt_zero o), fun _ _ => rfl, fun h0 => h0, fun c hc => .inl hc⟩
  unfold State.demuxPlane
  rw [e]
  generalize hv : ({ u with plen := u.plen.set k.val z.planes } : State) = v
  obtain ⟨hpm, hob, hplen, hppos, -, hipos, hopos, hn⟩ := v.report_fields pe .demux (k.val + 1) 8
  have hsame := hu.same
  have hvs : v = { s with pm := u.pm, ipos := u.ipos, plen := s.plen.set k.val z.planes } := by
    rw [← hv]
    generalize u.pm = pm at *
    generalize u.ipos = ip at *
    rw [hsame]
  have hmul : (k.val + 1) * z.planes = k.val * z.planes + z.planes := Nat.succ_mul _ _
  refine ⟨v.report pe .demux (k.val + 1) 8, by rw [← hv]; rfl, ?_⟩
  exact
    { outside := by rw [State.report_outsidePass, hvs]; exact h.outside
      n := by rw [hn, hvs]; exact h.n
      ob := by rw [hob, hvs]; exact h.ob
      opos := by rw [hopos, hvs]; exact h.opos
      ppos := by rw [hppos, hvs]; exact h.ppos
      ipos := by rw [hipos, hvs]; show u.ipos = _; rw [hu.ipos, h.ipos]; omega
      plen := by
        intro i hi
        rw [hplen, hvs]
        show (s.plen.set k.val z.planes).get i = _
        rw [get_set8]
        split
        · rfl
        · rename_i hne
          exact h.plen i (by have : i.val ≠ k.val := fun e => hne (Fin.ext e); omega)
      filled := by
        intro k' hk' o ho
        rw [State.readPM, hpm, hvs]
        show u.pm.read _ = _
        rcases Nat.lt_succ_iff_lt_or_eq.1 hk' with hlt | rfl
        · rw [hu.kept]
          · exact h.filled k' hlt o ho
          · intro o' ho' e
            have := (pmKey_inj (by omega) (by omega) e).1
            omega
        · have := hu.filled o ho
          rw [h.ipos] at this
          exact this
      kept := by
        intro a ha
        rw [hpm, hvs]
        show u.pm.read _ = _
        rw [hu.kept a fun o ho => ha k.val k.isLt o ho]
        exact h.kept a ha
      pmWf := fun h0 => by
        rw [hpm, hvs]
        exact hu.pmWf (h.pmWf h0)
      pmCells := by
        intro c hc
        rw [hpm, hvs] at hc
        rcases hu.pmCells c hc with hc | ⟨o, ho, e⟩
        · exact h.pmCells c hc
        · exact .inr ⟨k.val, o, k.isLt, ho, e⟩
      silent := by
        intro hpe
        subst hpe
        rw [State.report_disabled, hvs]
        exact h.silent rfl }

/-! ### Gathering and recovering a block -/

/-- The state while block `B` is gathered from `s1`, once slots `0 .. j-1` are filled (R78). -/
structure GatherAt (s1 : State) (tok : Token) (B j : Nat) (s : State) : Prop where
  same : s = { s1 with blk := s.blk, ppos := s.ppos }
  blk : ∀ i : Fin 8, i.val < j → s.blk.get i = s1.readPM (tok.get i).val B
  moved : ∀ i : Fin 8, i.val < j → s.ppos.get (tok.get i) = B + 1
  waiting : ∀ i : Fin 8, j ≤ i.val → s.ppos.get (tok.get i) = B

/-- One gathered byte (R78). -/
theorem GatherAt.gatherByte {s1 s : State} {tok : Token} {B : Nat} (hv : tokenValid tok = true) (j : Fin 8)
    (h : GatherAt s1 tok B j.val s) (hlen : ∀ k, B < s1.plen.get k) :
    ∃ t, s.gatherByte tok j = .ok t ∧ GatherAt s1 tok B (j.val + 1) t := by
  have hw : s.ppos.get (tok.get j) = B := h.waiting j (le_refl _)
  have hpl : s.plen = s1.plen := by rw [h.same]
  have hpm : s.pm = s1.pm := by rw [h.same]
  unfold State.gatherByte
  rw [if_neg (by rw [hpl, hw]; exact Nat.not_le.2 (hlen _)), hw]
  refine ⟨_, rfl, ?_⟩
  have hne : ∀ i : Fin 8, i ≠ j → tok.get i ≠ tok.get j := fun i hi e => hi (tokenValid_injective hv e)
  refine ⟨?_, ?_, ?_, ?_⟩
  · have hs := h.same
    generalize s.blk = bl at *
    generalize s.ppos = pp at *
    rw [hs]
  · intro i hi
    show (s.blk.set j.val _).get i = _
    rw [get_set8]
    split
    · rename_i e
      rw [e, State.readPM, State.readPM, hpm]
    · rename_i e
      exact h.blk i (by have : i.val ≠ j.val := fun e' => e (Fin.ext e'); omega)
  · intro i hi
    show (s.ppos.set (tok.get j).val _).get (tok.get i) = _
    rw [get_set8]
    split
    · rfl
    · rename_i e
      have : i ≠ j := fun e' => e (by rw [e'])
      exact h.moved i (by have : i.val ≠ j.val := fun e' => this (Fin.ext e'); omega)
  · intro i hi
    show (s.ppos.set (tok.get j).val _).get (tok.get i) = _
    rw [get_set8, if_neg (hne i (fun e => by rw [e] at hi; omega))]
    exact h.waiting i (by omega)

/-- `Gather(tok)` with a valid token, when every plane's position is `B` and a byte is left in each (R78, R108). -/
theorem gather_ok {s : State} {tok : Token} {B : Nat} (hv : tokenValid tok = true)
    (hpos : s.ppos = Vector.replicate 8 B) (hlen : ∀ k, B < s.plen.get k) :
    (List.finRange 8).foldlM (State.gatherByte tok) s = .ok { s with
      blk := Vector.ofFn fun j => s.readPM (tok.get j).val B
      ppos := Vector.replicate 8 (B + 1) } := by
  obtain ⟨t, e, ht⟩ := foldlM_fin8_ok (State.gatherByte tok) (GatherAt s tok B)
    (fun j u hu => hu.gatherByte hv j hlen) (s := s)
    ⟨rfl, fun i hi => absurd hi (Nat.not_lt_zero _), fun i hi => absurd hi (Nat.not_lt_zero _),
      fun i _ => by rw [hpos, get_replicate8]⟩
  rw [e]
  have hb : t.blk = Vector.ofFn fun j => s.readPM (tok.get j).val B :=
    ext_get8 fun j => by rw [ht.blk j j.isLt, Vector.get_ofFn]
  have hp : t.ppos = Vector.replicate 8 (B + 1) := ext_get8 fun k => by
    obtain ⟨i, rfl⟩ := tokenValid_surjective hv k
    rw [ht.moved i i.isLt, get_replicate8]
  rw [ht.same, hb, hp]

/-- The state of an UNSPLIT, demultiplexed as `s1` left it, once `B` blocks have been recovered (R107, R108). -/
structure RecoverAt (s0 s1 : State) (pe : Bool) (ib : List Byte) (z : PassSize) (B : Nat) (s : State) : Prop where
  outside : s.outsidePass = s0.outsidePass
  n : s.n = s0.n + B
  pm : s.pm = s1.pm
  plen : s.plen = Vector.replicate 8 z.planes
  ppos : s.ppos = Vector.replicate 8 B
  opos : s.opos = recoverOffset z.rem B
  recovered : ∀ b < B, ∀ i : Fin 8, i.val < recoverCount z.rem b →
    s.ob.read (recoverOffset z.rem b + i.val) =
      (transpose (gatheredBlock ib z.header z.planes b (s0.tokenAt (s0.n + b)))).get i
  kept : ∀ a, recoverOffset z.rem B ≤ a → s.ob.read a = s0.ob.read a
  obWf : s0.ob.wf → s.ob.wf
  obCells : ∀ c ∈ s.ob.cells, c ∈ s0.ob.cells ∨ c.1 < recoverOffset z.rem B
  silent : pe = false → s.progress = s0.progress ∧ s.progEv = s0.progEv

/-- Blocks are recovered one after another (R107, R108). -/
theorem recoverOffset_succ {rem : Nat} (B : Nat) :
    recoverOffset rem (B + 1) = recoverOffset rem B + recoverCount rem B := by
  unfold recoverOffset recoverCount
  by_cases hr : rem = 0
  · simp [hr]; omega
  · by_cases hB : B = 0
    · simp [hr, hB]
    · simp [hr, hB]; omega

theorem recoverCount_le {rem : Nat} (hr : rem < 8) (B : Nat) : recoverCount rem B ≤ 8 := by
  unfold recoverCount; split <;> omega

theorem recoverOffset_mono {rem b B : Nat} (h : b < B) : recoverOffset rem b + recoverCount rem b ≤ recoverOffset rem B := by
  induction B with
  | zero => omega
  | succ B ih =>
    rw [recoverOffset_succ B]
    rcases Nat.lt_succ_iff_lt_or_eq.1 h with hlt | rfl
    · have := ih hlt; omega
    · exact le_refl _

/-- Recovering a block with a valid token, a byte left in each plane (R107, R108). -/
theorem State.recoverBlock_eq {s : State} {B : Nat} (pe : Bool) (z : PassSize) (count c : Nat)
    (hv : tokenValid (s.tokenAt s.n) = true) (hpos : s.ppos = Vector.replicate 8 B) (hlen : ∀ k, B < s.plen.get k) :
    s.recoverBlock pe z count c = .ok (State.report pe .recon c z.planes
      (((transpose (Vector.ofFn fun j => s.readPM ((s.tokenAt s.n).get j).val B)).toList.take count).foldl
        (fun s v => s.emitOB v)
        { s with
          n := s.n + 1
          blk := Vector.ofFn fun j => s.readPM ((s.tokenAt s.n).get j).val B
          ppos := Vector.replicate 8 (B + 1) })) := by
  unfold State.recoverBlock
  rw [State.nextToken_eq, if_pos hv]
  show ((List.finRange 8).foldlM (State.gatherByte (s.tokenAt s.n)) { s with n := s.n + 1 } >>= _) = _
  rw [gather_ok (s := { s with n := s.n + 1 }) hv hpos hlen]
  rfl

/-- An invalid token raises BAD_TOKEN before anything is gathered (R76, R137). -/
theorem State.recoverBlock_badToken {s : State} (pe : Bool) (z : PassSize) (count c : Nat)
    (hv : tokenValid (s.tokenAt s.n) = false) : s.recoverBlock pe z count c = .error ⟨.badToken, s.progEv⟩ := by
  unfold State.recoverBlock
  rw [State.nextToken_eq, if_neg (by simp [hv])]
  rfl

/-- Recovering block `B` (R107, R108). -/
theorem RecoverAt.recoverBlock {s0 s1 s : State} {pe : Bool} {ib : List Byte} {z : PassSize} {B : Nat}
    (h : RecoverAt s0 s1 pe ib z B s) (hr : z.rem < 8) (hB : B < z.planes)
    (hfill : ∀ k < 8, ∀ o < z.planes, s1.readPM k o = ib.getD (z.header + k * z.planes + o) 0#8)
    (hv : tokenValid (s0.tokenAt (s0.n + B)) = true) (c : Nat) :
    ∃ t, s.recoverBlock pe z (recoverCount z.rem B) c = .ok t ∧ RecoverAt s0 s1 pe ib z (B + 1) t ∧
      (pe = true → c = z.planes → t.progress = ⟨100#7, false, .recon⟩) := by
  have htok : s.tokenAt s.n = s0.tokenAt (s0.n + B) := by rw [State.tokenAt_congr h.outside, h.n]
  have hlen : ∀ k, B < s.plen.get k := fun k => by rw [h.plen, get_replicate8]; exact hB
  have hg : (Vector.ofFn fun j => s.readPM ((s0.tokenAt (s0.n + B)).get j).val B) =
      gatheredBlock ib z.header z.planes B (s0.tokenAt (s0.n + B)) := by
    refine ext_get8 fun j => ?_
    rw [gatheredBlock, Vector.get_ofFn, Vector.get_ofFn, State.readPM, h.pm]
    exact hfill _ (Fin.is_lt _) B hB
  refine ⟨_, State.recoverBlock_eq pe z _ c (htok ▸ hv) h.ppos hlen, ?_⟩
  rw [htok, hg, State.emitAll_eq]
  generalize hvs : (transpose (gatheredBlock ib z.header z.planes B (s0.tokenAt (s0.n + B)))).toList.take
    (recoverCount z.rem B) = vs
  have hvlen : vs.length = recoverCount z.rem B := by
    rw [← hvs, List.length_take]; simpa using recoverCount_le hr B
  generalize hu : ({ s with
    n := s.n + 1
    blk := gatheredBlock ib z.header z.planes B (s0.tokenAt (s0.n + B))
    ppos := Vector.replicate 8 (B + 1)
    ob := s.ob.writeAll (runCells s.opos vs)
    opos := s.opos + vs.length } : State) = u
  have hue : ({ ({ s with
    n := s.n + 1
    blk := gatheredBlock ib z.header z.planes B (s0.tokenAt (s0.n + B))
    ppos := Vector.replicate 8 (B + 1) } : State) with
    ob := s.ob.writeAll (runCells s.opos vs)
    opos := s.opos + vs.length } : State) = u := hu
  obtain ⟨hpm, hob, hplen, hppos, -, -, hopos, hn⟩ := u.report_fields pe .recon c z.planes
  have hsucc := recoverOffset_succ (rem := z.rem) B
  refine ⟨?_, fun hpe hc => by rw [hpe, hc, State.report_last]; rfl⟩
  exact
    { outside := by
        show (State.report pe .recon c z.planes u).outsidePass = _
        rw [State.report_outsidePass, ← hu]; exact h.outside
      n := by
        show (State.report pe .recon c z.planes u).n = _
        rw [hn, ← hu]; show s.n + 1 = _; rw [h.n]; omega
      pm := by
        show (State.report pe .recon c z.planes u).pm = _
        rw [hpm, ← hu]; exact h.pm
      plen := by
        show (State.report pe .recon c z.planes u).plen = _
        rw [hplen, ← hu]; exact h.plen
      ppos := by
        show (State.report pe .recon c z.planes u).ppos = _
        rw [hppos, ← hu]
      opos := by
        show (State.report pe .recon c z.planes u).opos = _
        rw [hopos, ← hu]; show s.opos + vs.length = _; rw [h.opos, hvlen, hsucc]
      recovered := by
        intro b hb i hi
        show (State.report pe .recon c z.planes u).ob.read _ = _
        rw [hob, ← hu]
        show (s.ob.writeAll _).read _ = _
        rw [Store.read_writeRun, hvlen, h.opos]
        rcases Nat.lt_succ_iff_lt_or_eq.1 hb with hlt | rfl
        · have := recoverOffset_mono (rem := z.rem) hlt
          rw [if_neg (by omega)]
          exact h.recovered b hlt i hi
        · rw [if_pos (by omega)]
          have : recoverOffset z.rem b + i.val - recoverOffset z.rem b = i.val := by omega
          rw [this, ← hvs, List.getD_eq_getElem?_getD, List.getElem?_take, if_pos hi]
          simp [Vector.get_eq_getElem]
      kept := by
        intro a ha
        show (State.report pe .recon c z.planes u).ob.read _ = _
        rw [hob, ← hu]
        show (s.ob.writeAll _).read _ = _
        rw [Store.read_writeRun, hvlen, h.opos, if_neg (by omega)]
        exact h.kept a (by omega)
      obWf := by
        intro h0
        show (State.report pe .recon c z.planes u).ob.wf
        rw [hob, ← hu]
        exact Store.wf_writeAll (h.obWf h0) _
      obCells := by
        intro d hd
        change d ∈ (State.report pe .recon c z.planes u).ob.cells at hd
        rw [hob, ← hu] at hd
        rcases Store.mem_cells_writeAll hd with hd | hd
        · have := mem_runCells hd
          rw [hvlen, h.opos] at this
          exact .inr (by omega)
        · exact (h.obCells d hd).imp id fun hlt => by omega
      silent := by
        intro hpe
        subst hpe
        show (State.report false .recon c z.planes u).progress = _ ∧ (State.report false .recon c z.planes u).progEv = _
        rw [State.report_disabled, ← hu]
        exact h.silent rfl }

/-! ### The whole pass -/

/-- The counts of an UNSPLIT (R103, R105). -/
theorem unsplitSize_counts (T rem : Nat) :
    (unsplitSize T rem).rem = rem ∧ (unsplitSize T rem).header = unsplitHeader T ∧
    (unsplitSize T rem).planes = (T - unsplitHeader T) / 8 ∧
    (unsplitSize T rem).out = recoverOffset rem (unsplitSize T rem).planes := by
  refine ⟨rfl, rfl, rfl, ?_⟩
  simp only [unsplitSize, recoverOffset]
  split_ifs <;> simp_all

theorem unsplitHeader_le (T : Nat) : unsplitHeader T ≤ 1 ∧ unsplitHeader T ≤ T := by
  unfold unsplitHeader; split <;> omega

/-- A stream of at most 2^32 - 1 bytes has planes of at most 2^29 bytes (R7, C12). -/
theorem unsplitSize_planes_le {T : Nat} (rem : Nat) (hT : T < 2 ^ 32) : (unsplitSize T rem).planes ≤ 2 ^ 29 := by
  show (T - unsplitHeader T) / 8 ≤ 2 ^ 29
  omega

/-- What a successful UNSPLIT pass over a stream `ib` has done (R105 to R110). -/
structure UnsplitDone (s0 : State) (pe : Bool) (ib : List Byte) (z : PassSize) (h : Byte) (t : State) : Prop where
  outside : t.outsidePass = s0.outsidePass
  n : t.n = s0.n + z.planes
  plen : t.plen = Vector.replicate 8 z.planes
  quiet : t.blk = Vector.replicate 8 0#8 ∧ t.ipos = 0 ∧ t.opos = 0 ∧ t.ppos = Vector.replicate 8 0
  outLen : t.outLen = BitVec.ofNat 32 z.out
  planeLen : t.planeLen = BitVec.ofNat 32 z.planes
  hdr : t.hdr = passHdr z h
  filled : ∀ k < 8, ∀ o < z.planes, t.readPM k o = ib.getD (z.header + k * z.planes + o) 0#8
  keptPM : ∀ a, (∀ k < 8, ∀ o < z.planes, a ≠ pmKey k o) → t.pm.read a = s0.pm.read a
  recovered : ∀ b < z.planes, ∀ i : Fin 8, i.val < recoverCount z.rem b →
    t.ob.read (recoverOffset z.rem b + i.val) =
      (transpose (gatheredBlock ib z.header z.planes b (s0.tokenAt (s0.n + b)))).get i
  keptOB : ∀ a, z.out ≤ a → t.ob.read a = s0.ob.read a
  memories : (s0.pm.wf → t.pm.wf) ∧ (s0.ob.wf → t.ob.wf)
  pmCells : ∀ c ∈ t.pm.cells, c ∈ s0.pm.cells ∨ ∃ k o, k < 8 ∧ o < z.planes ∧ c.1 = pmKey k o
  obCells : ∀ c ∈ t.ob.cells, c ∈ s0.ob.cells ∨ c.1 < z.out
  progress : t.progress = if pe then ⟨100#7, false, .recon⟩ else s0.progress
  silent : pe = false → t.progEv = s0.progEv

/-- The start of the pass, before any plane is filled. -/
theorem startPass_demuxAt (s0 : State) (pe : Bool) (ib : List Byte) (H P : Nat) :
    DemuxAt s0 pe ib H P 0 (s0.startPass H) :=
  { outside := rfl
    n := rfl
    ob := rfl
    opos := rfl
    ppos := rfl
    ipos := by simp
    plen := fun i hi => absurd hi (Nat.not_lt_zero _)
    filled := fun k hk => absurd hk (Nat.not_lt_zero k)
    kept := fun _ _ => rfl
    pmWf := fun h0 => h0
    pmCells := fun c hc => .inl hc
    silent := fun _ => ⟨rfl, rfl⟩ }

/-- The demultiplexer fills the 8 planes when IB delivers the stream (R106). -/
theorem demux_ok {s0 : State} (pe : Bool) {ib : List Byte} {z : PassSize} (hP : z.planes ≤ 2 ^ 29)
    (hib : z.header + 8 * z.planes ≤ ib.length) :
    ∃ t, (List.finRange 8).foldlM (State.demuxPlane pe z ib) (s0.startPass z.header) = .ok t ∧
      DemuxAt s0 pe ib z.header z.planes 8 t :=
  foldlM_fin8_ok (State.demuxPlane pe z ib) (DemuxAt s0 pe ib z.header z.planes)
    (fun k _ hs => hs.demuxPlane k hP (by
      have := Nat.mul_le_mul_right z.planes (Nat.succ_le_of_lt k.isLt)
      rw [Nat.succ_mul] at this
      omega)) (startPass_demuxAt s0 pe ib z.header z.planes)

/-- From filled planes, recovery begins at block 0. -/
theorem DemuxAt.recoverAt {s0 s : State} {pe : Bool} {ib : List Byte} {z : PassSize}
    (h : DemuxAt s0 pe ib z.header z.planes 8 s) : RecoverAt s0 s pe ib z 0 s :=
  { outside := h.outside
    n := h.n
    pm := rfl
    plen := ext_get8 fun k => by rw [h.plen k k.isLt, get_replicate8]
    ppos := h.ppos
    opos := by rw [h.opos]; unfold recoverOffset; simp
    recovered := fun b hb => absurd hb (Nat.not_lt_zero b)
    kept := fun _ _ => by rw [h.ob]
    obWf := fun h0 => h.ob ▸ h0
    obCells := fun c hc => .inl (h.ob ▸ hc)
    silent := h.silent }

/-- Steps 3 and 4 recover every block when the tokens are permutations (R107, R108). -/
theorem recover_ok {s0 s1 : State} (pe : Bool) {ib : List Byte} {z : PassSize} (hr : z.rem < 8)
    (hne : z.rem ≠ 0 → z.planes ≠ 0) (h : DemuxAt s0 pe ib z.header z.planes 8 s1)
    (hv : s0.tokensValid s0.n z.planes) :
    ∃ t u, s1.recoverRemainder pe z = .ok t ∧ t.recoverBlocks pe z = .ok u ∧
      RecoverAt s0 s1 pe ib z z.planes u ∧ (pe = true → z.planes ≠ 0 → u.progress = ⟨100#7, false, .recon⟩) := by
  have hstep : ∀ B < z.planes, ∀ s, RecoverAt s0 s1 pe ib z B s → ∃ t,
      s.recoverBlock pe z (recoverCount z.rem B) (B + 1) = .ok t ∧ RecoverAt s0 s1 pe ib z (B + 1) t ∧
      (pe = true → B + 1 = z.planes → t.progress = ⟨100#7, false, .recon⟩) :=
    fun B hB s hs => hs.recoverBlock hr hB (fun k hk o ho => h.filled k hk o ho) (hv B hB) (B + 1)
  by_cases hz : z.rem = 0
  · refine ⟨s1, ?_⟩
    obtain ⟨u, e, hu, hp⟩ := foldlM_range_ok
      (fun s b => s.recoverBlock pe z 8 ((if z.rem = 0 then 0 else 1) + b + 1))
      (fun B s => RecoverAt s0 s1 pe ib z B s ∧
        (pe = true → B ≠ 0 → B = z.planes → s.progress = ⟨100#7, false, .recon⟩))
      (z.planes - (if z.rem = 0 then 0 else 1))
      (fun b hb s hs => by
        rw [if_pos hz] at hb ⊢
        obtain ⟨t, et, ht, hp⟩ := hstep b (by omega) s hs.1
        refine ⟨t, ?_, ht, fun hpe _ hB => hp hpe hB⟩
        rw [← et, Nat.zero_add]
        congr 1
        simp [recoverCount, hz]) (s := s1) ⟨h.recoverAt, fun _ h0 => absurd rfl h0⟩
    rw [show z.planes - (if z.rem = 0 then 0 else 1) = z.planes by rw [if_pos hz]; rfl] at hu hp
    exact ⟨u, by rw [State.recoverRemainder, if_pos hz], e, hu, fun hpe h0 => hp hpe h0 rfl⟩
  · have hpos : 0 < z.planes := Nat.pos_of_ne_zero (hne hz)
    obtain ⟨t, et, ht, hpt⟩ := hstep 0 hpos s1 h.recoverAt
    have hc0 : recoverCount z.rem 0 = z.rem := by simp [recoverCount, hz]
    rw [hc0] at et
    obtain ⟨u, e, hu, hp⟩ := foldlM_range_ok
      (fun s b => s.recoverBlock pe z 8 ((if z.rem = 0 then 0 else 1) + b + 1))
      (fun b s => RecoverAt s0 s1 pe ib z (1 + b) s ∧
        (pe = true → 1 + b = z.planes → s.progress = ⟨100#7, false, .recon⟩))
      (z.planes - (if z.rem = 0 then 0 else 1))
      (fun b hb s hs => by
        rw [if_neg hz] at hb ⊢
        obtain ⟨t, et, ht, hp⟩ := hstep (1 + b) (by omega) s hs.1
        refine ⟨t, ?_, by rwa [Nat.add_assoc] at ht, fun hpe hB => hp hpe (by omega)⟩
        rw [← et]
        congr 1
        simp [recoverCount]) (s := t) ⟨ht, fun hpe hB => hpt hpe (by omega)⟩
    rw [show 1 + (z.planes - (if z.rem = 0 then 0 else 1)) = z.planes by rw [if_neg hz]; omega] at hu hp
    exact ⟨t, u, by rw [State.recoverRemainder, if_neg hz]; exact et, e, hu, fun hpe _ => hp hpe rfl⟩

/-- The UNSPLIT pass runs to its end when it fits, IB delivers the stream, there is a block to take a remainder
from, and its tokens are permutations (R104). -/
theorem unsplitPass_ok {s0 : State} (pe : Bool) {ib : List Byte} {z : PassSize} (h : Byte) (hP : z.planes ≤ 2 ^ 29)
    (hr : z.rem < 8) (hout : z.out = recoverOffset z.rem z.planes) (hfit : z.tooBig s0.params = false)
    (hne : z.rem ≠ 0 → z.planes ≠ 0) (hib : z.header + 8 * z.planes ≤ ib.length)
    (hv : s0.tokensValid s0.n z.planes) :
    ∃ t, s0.unsplitPass pe z ib h = .ok t ∧ UnsplitDone s0 pe ib z h t := by
  obtain ⟨s1, e1, h1⟩ := demux_ok (s0 := s0) pe hP hib
  obtain ⟨s2, s3, e2, e3, h3, hp3⟩ := recover_ok pe hr hne h1 hv
  refine ⟨((s3.reportNoBlocks pe z).passResults z h).endOfPass, ?_, ?_⟩
  · unfold State.unsplitPass
    rw [if_neg (by simp [hfit]), e1]
    show (State.recoverRemainder pe z s1 >>= _) = _
    rw [e2]
    show (State.recoverBlocks pe z s2 >>= _) = _
    rw [e3]
    rfl
  · have h4 : ∀ u, u = s3.reportNoBlocks pe z → u.outsidePass = s0.outsidePass ∧ u.n = s3.n ∧ u.plen = s3.plen ∧
        u.opos = s3.opos ∧ u.pm = s3.pm ∧ u.ob = s3.ob ∧
        (u.progress = if pe then ⟨100#7, false, .recon⟩ else s0.progress) ∧ (pe = false → u.progEv = s0.progEv) := by
      rintro u rfl
      unfold State.reportNoBlocks
      split
      · rename_i h0
        obtain ⟨hpm, hob, hplen, -, -, -, hopos, hn⟩ := s3.report_fields pe .recon 0 0
        refine ⟨(s3.report_outsidePass pe .recon 0 0).trans h3.outside, hn, hplen, hopos, hpm, hob, ?_, ?_⟩
        · cases pe
          · exact (h3.silent rfl).1
          · rw [State.report_last]; rfl
        · intro hpe
          subst hpe
          exact (h3.silent rfl).2
      · rename_i h0
        refine ⟨h3.outside, rfl, rfl, rfl, rfl, rfl, ?_, fun hpe => (h3.silent hpe).2⟩
        cases pe
        · exact (h3.silent rfl).1
        · refine hp3 rfl fun hz => ?_
          by_cases hr0 : z.rem = 0
          · exact h0 ⟨hz, hr0⟩
          · exact hne hr0 hz
    obtain ⟨ho, hn, hplen, hopos, hpm, hob, hprog, hsil⟩ := h4 _ rfl
    generalize s3.reportNoBlocks pe z = u at *
    exact
      { outside := ho
        n := hn.trans h3.n
        plen := hplen.trans h3.plen
        quiet := ⟨rfl, rfl, rfl, rfl⟩
        outLen := by
          show BitVec.ofNat 32 u.opos = _
          rw [hopos, h3.opos, hout]
        planeLen := rfl
        hdr := rfl
        filled := fun k hk o ho => by
          show u.pm.read _ = _
          rw [hpm, h3.pm]; exact h1.filled k hk o ho
        keptPM := fun a ha => by
          show u.pm.read _ = _
          rw [hpm, h3.pm]; exact h1.kept a ha
        recovered := fun b hb i hi => by
          show u.ob.read _ = _
          rw [hob]; exact h3.recovered b hb i hi
        keptOB := fun a ha => by
          show u.ob.read _ = _
          rw [hob]; exact h3.kept a (hout ▸ ha)
        memories := by
          refine ⟨fun h0 => ?_, fun h0 => ?_⟩
          · show u.pm.wf
            rw [hpm, h3.pm]; exact h1.pmWf h0
          · show u.ob.wf
            rw [hob]; exact h3.obWf h0
        pmCells := fun c hc => by
          change c ∈ u.pm.cells at hc
          rw [hpm, h3.pm] at hc
          exact h1.pmCells c hc
        obCells := fun c hc => by
          change c ∈ u.ob.cells at hc
          rw [hob] at hc
          exact (h3.obCells c hc).imp id fun hlt => hout ▸ hlt
        progress := hprog
        silent := hsil }

/-! ### How the pass can end -/

/-- A stream that IB does not deliver raises TRUNCATED_READ in the demultiplexer (R106). -/
theorem demux_truncated {s0 : State} (pe : Bool) {ib : List Byte} {z : PassSize} (hP : z.planes ≤ 2 ^ 29)
    (hib : ib.length < z.header + 8 * z.planes) (hh : z.header ≤ ib.length) :
    ∃ ev, (List.finRange 8).foldlM (State.demuxPlane pe z ib) (s0.startPass z.header) =
      .error ⟨.truncatedRead, ev⟩ := by
  have hpos : 0 < z.planes := by
    by_contra h
    have : z.planes = 0 := by omega
    rw [this] at hib
    omega
  obtain ⟨d, hd⟩ : ∃ d, ib.length = z.header + d := ⟨ib.length - z.header, by omega⟩
  have hdm := Nat.div_add_mod d z.planes
  have hmod := Nat.mod_lt d hpos
  have hk : d / z.planes < 8 := Nat.div_lt_of_lt_mul (by rw [Nat.mul_comm]; omega)
  generalize ho : d % z.planes = o at *
  generalize hq : d / z.planes = q at *
  rw [Nat.mul_comm] at hdm
  obtain ⟨e, he, hc⟩ := foldlM_fin8_error (State.demuxPlane pe z ib) (DemuxAt s0 pe ib z.header z.planes) ⟨q, hk⟩
    (fun k hlt s hs => hs.demuxPlane k hP (by
      have := Nat.mul_le_mul_right z.planes (Nat.succ_le_of_lt (show k.val < q from hlt))
      rw [Nat.succ_mul] at this
      omega))
    (s := s0.startPass z.header) (startPass_demuxAt s0 pe ib z.header z.planes)
    (P := fun e => e.code = .truncatedRead)
    (fun t ht => by
      obtain ⟨e, he, hc⟩ := foldlM_range_error (State.demuxByte ib ⟨q, hk⟩) (PlaneAt t ib q) hmod
        (fun b hb s hs => PlaneAt.demuxByte (k := ⟨q, hk⟩) hs (by omega) (by rw [ht.ipos]; show _ + q * _ + _ < _; omega))
        (s := t)
        ⟨rfl, rfl, fun o ho => absurd ho (Nat.not_lt_zero o), fun _ _ => rfl, fun h0 => h0, fun c hc => .inl hc⟩
        (P := fun e => e.code = .truncatedRead)
        (fun u hu => by
          have hn : ib[u.ipos]? = none := List.getElem?_eq_none (by rw [hu.ipos, ht.ipos]; show _ ≤ _ + q * _ + _; omega)
          unfold State.demuxByte
          rw [hn]
          exact ⟨_, rfl, rfl⟩)
      refine ⟨e, ?_, hc⟩
      unfold State.demuxPlane
      rw [he]
      rfl)
  exact ⟨e.events, by rw [he, ← hc]⟩

/-- The first token that is no permutation stops the recovery with BAD_TOKEN (R76). -/
theorem recover_badToken {s0 s1 : State} (pe : Bool) {ib : List Byte} {z : PassSize} {B0 : Nat} (hr : z.rem < 8)
    (h : DemuxAt s0 pe ib z.header z.planes 8 s1) (hB : B0 < z.planes)
    (hv : s0.tokensValid s0.n B0) (hbad : tokenValid (s0.tokenAt (s0.n + B0)) = false) :
    ∃ ev, (State.recoverRemainder pe z s1 >>= State.recoverBlocks pe z) = .error ⟨.badToken, ev⟩ := by
  have hstep : ∀ B < B0, ∀ s, RecoverAt s0 s1 pe ib z B s → ∃ t,
      s.recoverBlock pe z (recoverCount z.rem B) (B + 1) = .ok t ∧ RecoverAt s0 s1 pe ib z (B + 1) t :=
    fun B hB' s hs => by
      obtain ⟨t, e, ht, -⟩ := hs.recoverBlock hr (by omega) (fun k hk o ho => h.filled k hk o ho) (hv B hB') (B + 1)
      exact ⟨t, e, ht⟩
  have hstop : ∀ s count c, RecoverAt s0 s1 pe ib z B0 s →
      s.recoverBlock pe z count c = .error ⟨.badToken, s.progEv⟩ := fun s count c hs =>
    State.recoverBlock_badToken pe z count c (by rw [State.tokenAt_congr hs.outside, hs.n]; exact hbad)
  by_cases hz : z.rem = 0
  · rw [State.recoverRemainder, if_pos hz]
    obtain ⟨e, he, hc⟩ := foldlM_range_error (fun s b => s.recoverBlock pe z 8 ((if z.rem = 0 then 0 else 1) + b + 1))
      (RecoverAt s0 s1 pe ib z) (m := z.planes - (if z.rem = 0 then 0 else 1)) (b0 := B0)
      (by rw [if_pos hz]; omega)
      (fun b hb s hs => by
        obtain ⟨t, et, ht⟩ := hstep b hb s hs
        refine ⟨t, ?_, ht⟩
        rw [← et, if_pos hz, Nat.zero_add]
        congr 1
        simp [recoverCount, hz])
      (s := s1) h.recoverAt (P := fun e => e.code = .badToken)
      (fun t ht => ⟨_, hstop t _ _ ht, rfl⟩)
    exact ⟨e.events, he.trans (by rw [← hc])⟩
  · have hc0 : recoverCount z.rem 0 = z.rem := by simp [recoverCount, hz]
    rw [State.recoverRemainder, if_neg hz]
    by_cases h0 : B0 = 0
    · subst h0
      rw [hstop s1 _ _ h.recoverAt]
      exact ⟨_, rfl⟩
    · obtain ⟨t, et, ht⟩ := hstep 0 (by omega) s1 h.recoverAt
      rw [hc0] at et
      rw [et]
      show ∃ ev, State.recoverBlocks pe z t = _
      obtain ⟨e, he, hc⟩ := foldlM_range_error
        (fun s b => s.recoverBlock pe z 8 ((if z.rem = 0 then 0 else 1) + b + 1))
        (fun b s => RecoverAt s0 s1 pe ib z (1 + b) s) (m := z.planes - (if z.rem = 0 then 0 else 1)) (b0 := B0 - 1)
        (by rw [if_neg hz]; omega)
        (fun b hb s hs => by
          obtain ⟨t, et, ht⟩ := hstep (1 + b) (by omega) s hs
          refine ⟨t, ?_, by rwa [Nat.add_assoc] at ht⟩
          rw [← et, if_neg hz]
          congr 1
          simp [recoverCount])
        (s := t) ht (P := fun e => e.code = .badToken)
        (fun t ht => ⟨_, hstop t _ _ (by rwa [show 1 + (B0 - 1) = B0 by omega] at ht), rfl⟩)
      exact ⟨e.events, he.trans (by rw [← hc])⟩

/-- A header remainder on a stream without planes takes a token and finds no byte to gather (R107). -/
theorem recover_noPlanes {s0 s1 : State} (pe : Bool) {ib : List Byte} {z : PassSize} (hr : z.rem ≠ 0)
    (h0 : z.planes = 0) (h : DemuxAt s0 pe ib z.header z.planes 8 s1) :
    (tokenValid (s0.tokenAt s0.n) = false → ∃ ev, s1.recoverRemainder pe z = .error ⟨.badToken, ev⟩) ∧
    (tokenValid (s0.tokenAt s0.n) = true → ∃ ev, s1.recoverRemainder pe z = .error ⟨.truncatedRead, ev⟩) := by
  have htok : s1.tokenAt s1.n = s0.tokenAt s0.n := by rw [State.tokenAt_congr h.outside, h.n]
  have hg : ∀ tok, State.gatherByte tok { s1 with n := s1.n + 1 } 0 = .error ⟨.truncatedRead, s1.progEv⟩ := by
    intro tok
    have hp : s1.plen.get (tok.get 0) = 0 := by rw [h.plen _ (Fin.is_lt _), h0]
    unfold State.gatherByte
    exact if_pos (by show s1.plen.get _ ≤ _; rw [hp]; exact Nat.zero_le _)
  rw [State.recoverRemainder, if_neg hr]
  refine ⟨fun hv => ⟨_, State.recoverBlock_badToken pe z _ _ (htok ▸ hv)⟩, fun hv => ⟨s1.progEv, ?_⟩⟩
  unfold State.recoverBlock
  rw [State.nextToken_eq, if_pos (htok ▸ hv)]
  show ((List.finRange 8).foldlM (State.gatherByte _) { s1 with n := s1.n + 1 } >>= _) = _
  rw [show List.finRange 8 = [0, 1, 2, 3, 4, 5, 6, 7] by decide, List.foldlM_cons, hg]
  rfl

/-- Everything the UNSPLIT pass can do once its header is read (R104): CAPACITY; TRUNCATED_READ for a stream IB does
not deliver; the end; BAD_TOKEN at the first token that is no permutation; or, for a header remainder without
planes, BAD_TOKEN or TRUNCATED_READ at the first token. -/
theorem unsplitPass_cases {s0 : State} (pe : Bool) {ib : List Byte} {z : PassSize} (h : Byte) (hP : z.planes ≤ 2 ^ 29)
    (hr : z.rem < 8) (hout : z.out = recoverOffset z.rem z.planes) (hh : z.header ≤ ib.length) :
    (z.tooBig s0.params = true ∧ s0.unsplitPass pe z ib h = .error ⟨.capacity, s0.progEv⟩) ∨
    (z.tooBig s0.params = false ∧ ib.length < z.header + 8 * z.planes ∧
      ∃ ev, s0.unsplitPass pe z ib h = .error ⟨.truncatedRead, ev⟩) ∨
    (z.tooBig s0.params = false ∧ z.header + 8 * z.planes ≤ ib.length ∧
      (((z.rem ≠ 0 → z.planes ≠ 0) ∧ s0.tokensValid s0.n z.planes ∧
          ∃ t, s0.unsplitPass pe z ib h = .ok t ∧ UnsplitDone s0 pe ib z h t) ∨
       (∃ B0 < z.planes, s0.tokensValid s0.n B0 ∧ tokenValid (s0.tokenAt (s0.n + B0)) = false ∧
          ∃ ev, s0.unsplitPass pe z ib h = .error ⟨.badToken, ev⟩) ∨
       (z.rem ≠ 0 ∧ z.planes = 0 ∧ tokenValid (s0.tokenAt s0.n) = false ∧
          ∃ ev, s0.unsplitPass pe z ib h = .error ⟨.badToken, ev⟩) ∨
       (z.rem ≠ 0 ∧ z.planes = 0 ∧ tokenValid (s0.tokenAt s0.n) = true ∧
          ∃ ev, s0.unsplitPass pe z ib h = .error ⟨.truncatedRead, ev⟩))) := by
  cases hfit : z.tooBig s0.params
  · right
    have hunfold : s0.unsplitPass pe z ib h =
        ((List.finRange 8).foldlM (State.demuxPlane pe z ib) (s0.startPass z.header) >>= fun s =>
          (State.recoverRemainder pe z s >>= State.recoverBlocks pe z) >>= fun s =>
          .ok ((s.reportNoBlocks pe z).passResults z h).endOfPass) := by
      unfold State.unsplitPass
      rw [if_neg (by simp [hfit])]
      simp only [bind_assoc]
    by_cases hib : z.header + 8 * z.planes ≤ ib.length
    · right
      refine ⟨rfl, hib, ?_⟩
      obtain ⟨s1, e1, h1⟩ := demux_ok (s0 := s0) pe hP hib
      by_cases hne : z.rem ≠ 0 ∧ z.planes = 0
      · right; right
        obtain ⟨hb, ht⟩ := recover_noPlanes pe hne.1 hne.2 h1
        cases hv : tokenValid (s0.tokenAt s0.n)
        · left
          obtain ⟨ev, he⟩ := hb hv
          exact ⟨hne.1, hne.2, rfl, ev, by rw [hunfold, e1]; show ((State.recoverRemainder pe z s1 >>= _) >>= _) = _; rw [he]; rfl⟩
        · right
          obtain ⟨ev, he⟩ := ht hv
          exact ⟨hne.1, hne.2, rfl, ev, by rw [hunfold, e1]; show ((State.recoverRemainder pe z s1 >>= _) >>= _) = _; rw [he]; rfl⟩
      · have hne' : z.rem ≠ 0 → z.planes ≠ 0 := fun a b => hne ⟨a, b⟩
        by_cases hall : s0.tokensValid s0.n z.planes
        · exact .inl ⟨hne', hall, unsplitPass_ok pe h hP hr hout hfit hne' hib hall⟩
        · right; left
          classical
          have hex : ∃ b, b < z.planes ∧ ¬ tokenValid (s0.tokenAt (s0.n + b)) = true := by
            by_contra hno
            exact hall fun b hb => by
              by_contra hc
              exact hno ⟨b, hb, hc⟩
          obtain ⟨hB, hbad⟩ := Nat.find_spec hex
          have hrun : s0.tokensValid s0.n (Nat.find hex) := fun b hb => by
            by_contra hc
            exact Nat.find_min hex hb ⟨by omega, hc⟩
          have hbad' : tokenValid (s0.tokenAt (s0.n + Nat.find hex)) = false := by simpa using hbad
          obtain ⟨ev, he⟩ := recover_badToken pe hr h1 hB hrun hbad'
          exact ⟨_, hB, hrun, hbad', ev, by
            rw [hunfold, e1]
            show ((State.recoverRemainder pe z s1 >>= State.recoverBlocks pe z) >>= _) = _
            rw [he]; rfl⟩
    · left
      obtain ⟨ev, he⟩ := demux_truncated (s0 := s0) pe hP (by omega) hh
      exact ⟨rfl, by omega, ev, by rw [hunfold, he]; rfl⟩
  · left
    refine ⟨rfl, ?_⟩
    unfold State.unsplitPass
    rw [if_pos hfit]
    rfl

end Sys2Proof.Machine
end

