-- ==== Sys2Proof/Laws/Exec.lean ====
section
/-! SUPPORT. What each command can do, said once: the state check, the input delivered, how a pass ends, and the
cases of SPLIT and UNSPLIT. -/

namespace Sys2Proof.Machine

/-! ### Acceptance and the state check -/

theorem State.latch_idle {s : State} (h : s.seq = none) (w : Word) :
    s.latch w = ⟨w, s.inLen, s.ctl, false, [], []⟩ := by
  unfold State.latch; rw [h]

theorem State.accept_checkError (s : State) (w : Word) (e : ErrCode) :
    (s.accept w).checkError e = { s with seq := none, done := true, err := e } := rfl

theorem State.deliveredIB_quiet {s : State} {q : Seq} (h : q.ibOld = []) : s.deliveredIB q = s.ib := by
  unfold State.deliveredIB; rw [h]

/-- A command accepted while BUSY = 0 gets IB as it stands (R22, R37). -/
theorem State.deliveredIB_idle {s : State} (h : s.seq = none) (w : Word) :
    (s.accept w).deliveredIB (s.latch w) = s.ib := by
  rw [State.deliveredIB_quiet (by rw [State.latch_idle h])]; rfl

theorem Lifecycle.notReady_none {st : Lifecycle} : st.notReady = none ↔ st = .ready := by
  cases st <;> simp [Lifecycle.notReady]

/-- The error of the state check (R92, R103, R79). -/
theorem Lifecycle.notReady_some {st : Lifecycle} {e : ErrCode} (h : st.notReady = some e) :
    (st = .uninit ∧ e = .notInitialized) ∨ ((st = .closed ∨ st = .failed) ∧ e = .invalidState) := by
  cases st <;> simp [Lifecycle.notReady] at h <;> simp [h]

/-! ### The output race (R154) -/

/-- A byte of OB once the races are settled: the host's where it raced the pass and the draw says so, else the
pass's. -/
theorem settleOB_exact (q : Seq) (epoch out : Nat) (before after : Store) (a : Nat) :
    (settleOB q epoch out before after).read a =
      if a ∈ q.obRaced ∧ a < out ∧ Config.raceOB epoch a = true then before.read a else after.read a := by
  unfold settleOB
  generalize q.obRaced = l
  induction l generalizing after with
  | nil => simp
  | cons b l ih =>
    rw [List.foldl_cons, ih]
    by_cases hb : b < out ∧ Config.raceOB epoch b = true
    · rw [if_pos hb, Store.read_write]
      by_cases e : a = b
      · subst e; simp [hb]
      · simp [e]
    · rw [if_neg hb]
      by_cases e : a = b
      · subst e; simp [hb]
      · simp [e]

theorem settleOB_quiet {q : Seq} (h : q.obRaced = []) (epoch out : Nat) (before after : Store) :
    settleOB q epoch out before after = after := by
  unfold settleOB; rw [h]; rfl

theorem settleOB_wf {q : Seq} {epoch out : Nat} {before after : Store} (h : after.wf) :
    (settleOB q epoch out before after).wf := by
  unfold settleOB
  generalize q.obRaced = l
  induction l generalizing after with
  | nil => exact h
  | cons b l ih =>
    rw [List.foldl_cons]
    split
    · exact ih (Store.wf_write h _ _)
    · exact ih h

theorem settleOB_cells {q : Seq} {epoch out : Nat} {before after : Store} {c : Host.Cell}
    (h : c ∈ (settleOB q epoch out before after).cells) : c ∈ after.cells ∨ c.1 < out := by
  unfold settleOB at h
  generalize q.obRaced = l at h
  induction l generalizing after with
  | nil => exact .inl h
  | cons b l ih =>
    rw [List.foldl_cons] at h
    split at h
    · rename_i hb
      rcases ih h with h | h
      · rcases Store.mem_cells_write h with rfl | h
        · exact .inr hb.1
        · exact .inl h
      · exact .inr h
    · exact ih h

/-! ### Pass errors (R134) -/

/-- The OB cells a pass error draws. -/
theorem failedOB_cells {out cap e : Nat} {c : Host.Cell}
    (h : c ∈ (List.range (min out cap)).map fun a => (a, Config.failedOB e a)) : c.1 < out ∧ c.1 < cap := by
  obtain ⟨a, ha, rfl⟩ := List.mem_map.1 h
  have := List.mem_range.1 ha
  show a < out ∧ a < cap
  omega

/-- The PM cells a pass error draws. -/
theorem failedPM_cells {planes cap e : Nat} {c : Host.Cell}
    (h : c ∈ (List.range 8).flatMap fun k =>
      (List.range (min planes cap)).map fun o => (pmKey k o, Config.failedPM e (pmKey k o))) :
    ∃ k o, k < 8 ∧ o < planes ∧ o < cap ∧ c.1 = pmKey k o := by
  obtain ⟨k, hk, h⟩ := List.mem_flatMap.1 h
  obtain ⟨o, ho, rfl⟩ := List.mem_map.1 h
  have := List.mem_range.1 ho
  exact ⟨k, o, List.mem_range.1 hk, by omega, by omega, rfl⟩

/-- What a pass error leaves (R134), at the end of a pass begun in `a`. -/
structure PassFailed (a : State) (code : ErrCode) (z : PassSize) (t : State) : Prop where
  outside : t.outsidePass =
    { a with
      lifecycle := .failed, seq := none, done := true, err := code, residue := true,
      epoch := a.epoch + 1 }.outsidePass
  quiet : t.blk = Vector.replicate 8 0#8 ∧ t.ipos = 0 ∧ t.opos = 0 ∧ t.ppos = Vector.replicate 8 0
  keptOB : ∀ b, z.out ≤ b → t.ob.read b = a.ob.read b
  keptPM : ∀ b, (∀ k < 8, ∀ o < z.planes, b ≠ pmKey k o) → t.pm.read b = a.pm.read b
  plen : ∀ k, t.plen.get k ≤ a.params.planeCap
  n : a.n ≤ t.n ∧ t.n ≤ a.n + z.tokens
  memories : (a.pm.wf → t.pm.wf) ∧ (a.ob.wf → t.ob.wf)
  pmCells : ∀ c ∈ t.pm.cells, c ∈ a.pm.cells ∨ ∃ k o, k < 8 ∧ o < a.params.planeCap ∧ c.1 = pmKey k o
  obCells : ∀ c ∈ t.ob.cells, c ∈ a.ob.cells ∨ c.1 < a.params.outCap
  percent : t.progress.percent.toNat ≤ 100

theorem State.passError_failed (a : State) (code : ErrCode) (z : PassSize) (events : List Progress) :
    PassFailed a code z (a.passError code z events) where
  outside := rfl
  quiet := ⟨rfl, rfl, rfl, rfl⟩
  keptOB b hb := Store.read_writeAll_other fun c hc e => by
    have := (failedOB_cells hc).1
    omega
  keptPM b hb := Store.read_writeAll_other fun c hc e => by
    obtain ⟨k, o, hk, ho, -, hc⟩ := failedPM_cells hc
    exact hb k hk o ho (e ▸ hc)
  plen k := by
    show (Vector.ofFn _).get k ≤ _
    rw [Vector.get_ofFn]
    exact Nat.lt_succ_iff.1 (Nat.mod_lt _ (Nat.succ_pos _))
  n := by
    refine ⟨Nat.le_add_right _ _, Nat.add_le_add_left (Nat.lt_succ_iff.1 (Nat.mod_lt _ (Nat.succ_pos _))) _⟩
  memories := ⟨fun h => Store.wf_writeAll h _, fun h => Store.wf_writeAll h _⟩
  pmCells c hc := by
    rcases Store.mem_cells_writeAll hc with h | h
    · obtain ⟨k, o, hk, -, ho, e⟩ := failedPM_cells h
      exact .inr ⟨k, o, hk, ho, e⟩
    · exact .inl h
  obCells c hc := by
    rcases Store.mem_cells_writeAll hc with h | h
    · exact .inr (failedOB_cells h).2
    · exact .inl h
  percent := by
    show (BitVec.ofNat 7 _).toNat ≤ 100
    rw [BitVec.toNat_ofNat]
    have := Nat.mod_lt (Config.failedPercent a.epoch) (show 101 > 0 by omega)
    omega

/-! ### The cases of SPLIT and UNSPLIT -/

/-- The end of a pass that ran to its end as `u`. -/
def State.passEnd (q : Seq) (z : PassSize) (a u : State) : State :=
  State.complete .noError .ready
    { u with ob := settleOB q a.epoch z.out a.ob u.ob, residue := true, epoch := a.epoch + 1 }

theorem State.finishPass_ok (q : Seq) (z : PassSize) (a u : State) :
    a.finishPass q z (.ok u) = State.passEnd q z a u := rfl

theorem State.finishPass_error (q : Seq) (z : PassSize) (a : State) (e : Raise) :
    a.finishPass q z (.error e) = a.passError e.code z e.events := rfl

/-- A pass error's code (R134). -/
def ErrCode.ofPass (e : ErrCode) : Prop := e = .truncatedRead ∨ e = .badToken ∨ e = .capacity

theorem PassSize.tooBig_false {z : PassSize} {p : Params} :
    z.tooBig p = false ↔ z.planes ≤ p.planeCap ∧ z.out ≤ p.outCap := by
  unfold PassSize.tooBig
  simp

theorem PassSize.tooBig_true {z : PassSize} {p : Params} :
    z.tooBig p = true ↔ p.planeCap < z.planes ∨ p.outCap < z.out := by
  unfold PassSize.tooBig
  simp

/-- SPLIT in READY, before its pass is looked into (R94). -/
theorem execSplit_ready {s : State} (h : s.lifecycle = .ready) :
    exec .split s =
      .next (State.finishPass (s.latch (encode .split)) (splitSize (s.latch (encode .split)).inLen.toNat)
        ((s.accept (encode .split)).splitPass (s.latch (encode .split)).ctl.progEn
          (splitSize (s.latch (encode .split)).inLen.toNat)
          ((s.accept (encode .split)).deliveredIB (s.latch (encode .split)))
          (s.accept (encode .split)).drawNoise (s.accept (encode .split)).drawFiller)
        (s.accept (encode .split))) := by
  show execSplit s = _
  simp only [execSplit, State.accept_lifecycle, h, Lifecycle.notReady]

/-- Everything SPLIT can do (R92, R94, R134). -/
theorem execSplit_cases (s : State) :
    ∃ t, exec .split s = .next t ∧
      ((∃ e, s.lifecycle.notReady = some e ∧ t = { s with seq := none, done := true, err := e }) ∨
       (s.lifecycle = .ready ∧ (splitSize (s.latch (encode .split)).inLen.toNat).tooBig s.params = false ∧
        splitRunsTo s ((s.accept (encode .split)).deliveredIB (s.latch (encode .split)))
          (s.latch (encode .split)).inLen.toNat (splitSize (s.latch (encode .split)).inLen.toNat).planes ∧
        ∃ u, SplitDone (s.accept (encode .split)) (s.latch (encode .split)).ctl.progEn
            ((s.accept (encode .split)).deliveredIB (s.latch (encode .split))) s.drawNoise s.drawFiller
            (s.latch (encode .split)).inLen.toNat u ∧
          t = State.passEnd (s.latch (encode .split)) (splitSize (s.latch (encode .split)).inLen.toNat)
            (s.accept (encode .split)) u) ∨
       (s.lifecycle = .ready ∧ ∃ code, code.ofPass ∧
        PassFailed (s.accept (encode .split)) code (splitSize (s.latch (encode .split)).inLen.toNat) t)) := by
  cases hr : s.lifecycle.notReady with
  | some e =>
    refine ⟨_, ?_, .inl ⟨e, rfl, rfl⟩⟩
    show execSplit s = _
    simp only [execSplit, State.accept_lifecycle, hr]
    rfl
  | none =>
    have h := Lifecycle.notReady_none.1 hr
    refine ⟨_, execSplit_ready h, .inr ?_⟩
    rcases splitPass_cases (s0 := s.accept (encode .split)) (s.latch (encode .split)).ctl.progEn
      ((s.accept (encode .split)).deliveredIB (s.latch (encode .split))) (s.accept (encode .split)).drawNoise
      (s.accept (encode .split)).drawFiller (s.latch (encode .split)).inLen.isLt with
      ⟨-, he⟩ | ⟨hfit, hrun, u, hu, hd⟩ | ⟨-, B, -, -, ⟨-, ev, he⟩ | ⟨-, -, ev, he⟩⟩
    · rw [he]; exact .inr ⟨h, .capacity, .inr (.inr rfl), State.passError_failed _ _ _ _⟩
    · rw [hu]; exact .inl ⟨h, hfit, hrun, u, hd, rfl⟩
    · rw [he]; exact .inr ⟨h, .truncatedRead, .inl rfl, State.passError_failed _ _ _ _⟩
    · rw [he]; exact .inr ⟨h, .badToken, .inr (.inl rfl), State.passError_failed _ _ _ _⟩

theorem headerRem_lt (h : Byte) : headerRem h < 8 := by
  unfold headerRem
  rw [BitVec.toNat_and]
  exact Nat.lt_succ_of_le Nat.and_le_right

/-- The header byte read, and what IB then holds (R105). -/
theorem unsplitHeaderByte_some {T : Nat} {ib : List Byte} {h : Byte} (e : unsplitHeaderByte T ib = some h) :
    unsplitHeader T ≤ ib.length ∧ (unsplitHeader T = 1 → ib[0]? = some h) ∧ (unsplitHeader T = 0 → h = 0#8) := by
  have hle := (unsplitHeader_le T).1
  unfold unsplitHeaderByte at e
  split at e
  · rename_i h1
    refine ⟨?_, fun _ => e, fun h0 => by omega⟩
    rw [h1]
    have := (List.getElem?_eq_some_iff.1 e).1
    omega
  · rename_i h1
    exact ⟨by omega, fun h' => absurd h' h1, fun _ => (Option.some.inj e).symm⟩

/-- UNSPLIT in READY, its header missing (R104). -/
theorem execUnsplit_noHeader {s : State} (h : s.lifecycle = .ready)
    (hh : unsplitHeaderByte (s.latch (encode .unsplit)).inLen.toNat
      ((s.accept (encode .unsplit)).deliveredIB (s.latch (encode .unsplit))) = none) :
    exec .unsplit s = .next ((s.accept (encode .unsplit)).passError .truncatedRead
      (unsplitSize (s.latch (encode .unsplit)).inLen.toNat 0) s.progEv) := by
  show execUnsplit s = _
  simp only [execUnsplit, State.accept_lifecycle, h, Lifecycle.notReady, hh]
  rfl

/-- UNSPLIT in READY, its header read (R104). -/
theorem execUnsplit_header {s : State} {b : Byte} (h : s.lifecycle = .ready)
    (hh : unsplitHeaderByte (s.latch (encode .unsplit)).inLen.toNat
      ((s.accept (encode .unsplit)).deliveredIB (s.latch (encode .unsplit))) = some b) :
    exec .unsplit s = .next (State.finishPass (s.latch (encode .unsplit))
      (unsplitSize (s.latch (encode .unsplit)).inLen.toNat (headerRem b))
      ((s.accept (encode .unsplit)).unsplitPass (s.latch (encode .unsplit)).ctl.progEn
        (unsplitSize (s.latch (encode .unsplit)).inLen.toNat (headerRem b))
        ((s.accept (encode .unsplit)).deliveredIB (s.latch (encode .unsplit))) b)
      (s.accept (encode .unsplit))) := by
  show execUnsplit s = _
  simp only [execUnsplit, State.accept_lifecycle, h, Lifecycle.notReady, hh]

/-- Everything UNSPLIT can do (R103, R104, R134). -/
theorem execUnsplit_cases (s : State) :
    ∃ t, exec .unsplit s = .next t ∧
      ((∃ e, s.lifecycle.notReady = some e ∧ t = { s with seq := none, done := true, err := e }) ∨
       (s.lifecycle = .ready ∧ ∃ b,
        unsplitHeaderByte (s.latch (encode .unsplit)).inLen.toNat
          ((s.accept (encode .unsplit)).deliveredIB (s.latch (encode .unsplit))) = some b ∧
        (unsplitSize (s.latch (encode .unsplit)).inLen.toNat (headerRem b)).tooBig s.params = false ∧
        s.tokensValid s.n (unsplitSize (s.latch (encode .unsplit)).inLen.toNat (headerRem b)).planes ∧
        ∃ u, UnsplitDone (s.accept (encode .unsplit)) (s.latch (encode .unsplit)).ctl.progEn
            ((s.accept (encode .unsplit)).deliveredIB (s.latch (encode .unsplit)))
            (unsplitSize (s.latch (encode .unsplit)).inLen.toNat (headerRem b)) b u ∧
          t = State.passEnd (s.latch (encode .unsplit))
            (unsplitSize (s.latch (encode .unsplit)).inLen.toNat (headerRem b)) (s.accept (encode .unsplit)) u) ∨
       (s.lifecycle = .ready ∧ ∃ code, code.ofPass ∧
        PassFailed (s.accept (encode .unsplit)) code
          (unsplitSize (s.latch (encode .unsplit)).inLen.toNat
            (match unsplitHeaderByte (s.latch (encode .unsplit)).inLen.toNat
                ((s.accept (encode .unsplit)).deliveredIB (s.latch (encode .unsplit))) with
              | some b => headerRem b
              | none => 0)) t)) := by
  cases hr : s.lifecycle.notReady with
  | some e =>
    refine ⟨_, ?_, .inl ⟨e, rfl, rfl⟩⟩
    show execUnsplit s = _
    simp only [execUnsplit, State.accept_lifecycle, hr]
    rfl
  | none =>
    have h := Lifecycle.notReady_none.1 hr
    cases hh : unsplitHeaderByte (s.latch (encode .unsplit)).inLen.toNat
      ((s.accept (encode .unsplit)).deliveredIB (s.latch (encode .unsplit))) with
    | none =>
      exact ⟨_, execUnsplit_noHeader h hh, .inr (.inr ⟨h, .truncatedRead, .inl rfl, State.passError_failed _ _ _ _⟩)⟩
    | some b =>
      refine ⟨_, execUnsplit_header h hh, .inr ?_⟩
      obtain ⟨hrem, hhd, hpl, hout⟩ := unsplitSize_counts (s.latch (encode .unsplit)).inLen.toNat (headerRem b)
      rcases unsplitPass_cases (s0 := s.accept (encode .unsplit)) (s.latch (encode .unsplit)).ctl.progEn
        (ib := (s.accept (encode .unsplit)).deliveredIB (s.latch (encode .unsplit))) b
        (unsplitSize_planes_le (headerRem b) (s.latch (encode .unsplit)).inLen.isLt)
        (by rw [hrem]; exact headerRem_lt b) (by rw [hrem]; exact hout)
        (by rw [hhd]; exact (unsplitHeaderByte_some hh).1) with
        ⟨-, he⟩ | ⟨-, -, ev, he⟩ | ⟨hfit, -, ⟨-, hv, u, hu, hd⟩ | ⟨B, -, -, -, ev, he⟩ | ⟨-, -, -, ev, he⟩ | ⟨-, -, -, ev, he⟩⟩
      · rw [he]; exact .inr ⟨h, .capacity, .inr (.inr rfl), State.passError_failed _ _ _ _⟩
      · rw [he]; exact .inr ⟨h, .truncatedRead, .inl rfl, State.passError_failed _ _ _ _⟩
      · rw [hu]; exact .inl ⟨h, b, rfl, hfit, hv, u, hd, rfl⟩
      · rw [he]; exact .inr ⟨h, .badToken, .inr (.inl rfl), State.passError_failed _ _ _ _⟩
      · rw [he]; exact .inr ⟨h, .badToken, .inr (.inl rfl), State.passError_failed _ _ _ _⟩
      · rw [he]; exact .inr ⟨h, .truncatedRead, .inl rfl, State.passError_failed _ _ _ _⟩

/-- A SPLIT that meets the conditions of `SplitRuns` runs its pass to the end (R94). -/
theorem exec_split_runs {s : State} (h : SplitRuns s) :
    ∃ u, SplitDone (s.accept (encode .split)) s.ctl.progEn s.ib s.drawNoise s.drawFiller s.inLen.toNat u ∧
      exec .split s = .next (State.complete .noError .ready { u with residue := true, epoch := s.epoch + 1 }) := by
  obtain ⟨u, e, hu⟩ := splitPass_ok (s0 := s.accept (encode .split)) s.ctl.progEn s.drawNoise s.drawFiller
    s.inLen.isLt (PassSize.tooBig_false.2 ⟨h.planes, h.output⟩) h.input h.tokens
  refine ⟨u, hu, ?_⟩
  rw [execSplit_ready h.ready, State.deliveredIB_idle h.idle, State.latch_idle h.idle]
  show Host.Outcome.next (State.finishPass _ _ (State.splitPass s.ctl.progEn (splitSize s.inLen.toNat) s.ib
    s.drawNoise s.drawFiller (s.accept (encode .split))) _) = _
  rw [e, State.finishPass_ok, State.passEnd, settleOB_quiet rfl]
  rfl

/-- An UNSPLIT that meets the conditions of `UnsplitRuns` runs its pass to the end (R104). -/
theorem exec_unsplit_runs {s : State} {b : Byte} (h : UnsplitRuns s b) :
    ∃ u, UnsplitDone (s.accept (encode .unsplit)) s.ctl.progEn s.ib (unsplitSize s.inLen.toNat (headerRem b)) b u ∧
      exec .unsplit s = .next (State.complete .noError .ready { u with residue := true, epoch := s.epoch + 1 }) := by
  obtain ⟨hrem, hhd, hpl, hout⟩ := unsplitSize_counts s.inLen.toNat (headerRem b)
  obtain ⟨u, e, hu⟩ := unsplitPass_ok (s0 := s.accept (encode .unsplit)) s.ctl.progEn (ib := s.ib)
    (z := unsplitSize s.inLen.toNat (headerRem b)) b (unsplitSize_planes_le _ s.inLen.isLt)
    (by rw [hrem]; exact headerRem_lt b) (by rw [hrem]; exact hout)
    (PassSize.tooBig_false.2 ⟨h.planes, h.output⟩) (by rw [hrem]; exact h.block) (by rw [hhd]; exact h.input) h.tokens
  refine ⟨u, hu, ?_⟩
  have hd : unsplitHeaderByte (s.latch (encode .unsplit)).inLen.toNat
      ((s.accept (encode .unsplit)).deliveredIB (s.latch (encode .unsplit))) = some b := by
    rw [State.deliveredIB_idle h.idle, State.latch_idle h.idle]; exact h.header
  rw [execUnsplit_header h.ready hd, State.deliveredIB_idle h.idle, State.latch_idle h.idle]
  show Host.Outcome.next (State.finishPass _ _ (State.unsplitPass s.ctl.progEn
    (unsplitSize s.inLen.toNat (headerRem b)) s.ib b (s.accept (encode .unsplit))) _) = _
  rw [e, State.finishPass_ok, State.passEnd, settleOB_quiet rfl]
  rfl

end Sys2Proof.Machine
end

