-- ==== Sys2Proof/Laws/PerInstr.lean ====
section
/-! SUPPORT. One lemma per command: its word is legal and decodes to it (R56, R57). -/

namespace Sys2Proof.Laws

/-- The command is well formed, its word is legal, and the word decodes to the command. -/
def EncodeDecode.Statement (i : Instr) : Prop :=
  i.wf = true ∧ wordWf (encode i) = true ∧ decode (encode i) = .ok i

theorem EncodeDecode.init : EncodeDecode.Statement .init := by unfold EncodeDecode.Statement; decide
theorem EncodeDecode.split : EncodeDecode.Statement .split := by unfold EncodeDecode.Statement; decide
theorem EncodeDecode.unsplit : EncodeDecode.Statement .unsplit := by unfold EncodeDecode.Statement; decide
theorem EncodeDecode.clear : EncodeDecode.Statement .clear := by unfold EncodeDecode.Statement; decide
theorem EncodeDecode.clearAndClose : EncodeDecode.Statement .clearAndClose := by
  unfold EncodeDecode.Statement; decide
theorem EncodeDecode.reseed : EncodeDecode.Statement .reseed := by unfold EncodeDecode.Statement; decide
theorem EncodeDecode.transpose : EncodeDecode.Statement .transpose := by unfold EncodeDecode.Statement; decide

end Sys2Proof.Laws
end

