-- ==== Sys2Proof/Laws/Progress.lean ====
section
/-! SUPPORT. The progress reports of a pass that runs to its end (R102, R110): which PROG_EV pulses it gives. -/

namespace Sys2Proof.Machine

/-- The PROG_EV pulse of one call of Report, if any (R102). -/
def reportOf (pe : Bool) (phase : Phase) (c U : Nat) : List Progress :=
  if pe then
    if U = 0 then [⟨100#7, false, phase⟩]
    else if c = U ∨ 100 * c / U ≠ 100 * (c - 1) / U then [⟨BitVec.ofNat 7 (100 * c / U), decide (c < U), phase⟩]
    else []
  else []

/-- A report adds its pulse to the log (R102). -/
theorem State.report_progEv (s : State) (pe : Bool) (phase : Phase) (c U : Nat) :
    (s.report pe phase c U).progEv = s.progEv ++ reportOf pe phase c U := by
  unfold State.report reportOf
  split_ifs <;> simp

/-! ### Parts that go on -/

/-- A run of two parts that goes on went on in each. -/
theorem Run.of_bind {α β : Type} {x : Run α} {f : α → Run β} {b : β} (h : x >>= f = .ok b) :
    ∃ a, x = .ok a ∧ f a = .ok b := by
  cases x with
  | error e => cases h
  | ok a => exact ⟨a, rfl, h⟩

/-- A loop whose every turn that goes on leaves a field leaves it. -/
theorem foldlM_keeps {σ α β : Type} (f : σ → α → Run σ) (get : σ → β) (l : List α)
    (hstep : ∀ a ∈ l, ∀ s t, f s a = .ok t → get t = get s) {s t : σ} (h : l.foldlM f s = .ok t) : get t = get s := by
  induction l generalizing s with
  | nil => cases h; rfl
  | cons a l ih =>
    rw [List.foldlM_cons] at h
    obtain ⟨u, hu, h⟩ := Run.of_bind h
    exact (ih (fun b hb => hstep b (List.mem_cons_of_mem _ hb)) h).trans (hstep a List.mem_cons_self s u hu)

/-! ### Loops that log -/

/-- A loop whose every turn adds to a log adds what the turns add, in order. -/
theorem foldlM_log {σ α β : Type} (f : σ → α → Run σ) (log : σ → List β) (g : α → List β) (l : List α)
    (hstep : ∀ a ∈ l, ∀ s t, f s a = .ok t → log t = log s ++ g a) {s t : σ} (h : l.foldlM f s = .ok t) :
    log t = log s ++ l.flatMap g := by
  induction l generalizing s with
  | nil => cases h; simp
  | cons a l ih =>
    rw [List.foldlM_cons] at h
    obtain ⟨u, hu, h⟩ := Run.of_bind h
    rw [ih (fun b hb => hstep b (List.mem_cons_of_mem _ hb)) h, hstep a List.mem_cons_self s u hu,
      List.flatMap_cons, List.append_assoc]

/-- The same for a loop that cannot raise. -/
theorem foldl_log {σ α β : Type} (f : σ → α → σ) (log : σ → List β) (g : α → List β) (l : List α)
    (hstep : ∀ a s, log (f s a) = log s ++ g a) (s : σ) : log (l.foldl f s) = log s ++ l.flatMap g := by
  induction l generalizing s with
  | nil => simp
  | cons a l ih => rw [List.foldl_cons, ih, hstep, List.flatMap_cons, List.append_assoc]

/-- A loop whose turns leave a field leaves it. -/
theorem foldl_keeps {σ α β : Type} (f : σ → α → σ) (get : σ → β) (l : List α)
    (hstep : ∀ a s, get (f s a) = get s) (s : σ) : get (l.foldl f s) = get s := by
  induction l generalizing s with
  | nil => rfl
  | cons a l ih => rw [List.foldl_cons, ih, hstep]

/-- The reports of a phase, each after its unit, are those of R102. -/
theorem reportOf_phase (pe : Bool) (phase : Phase) {U : Nat} (h : U ≠ 0) :
    ((List.range U).flatMap fun b => reportOf pe phase (b + 1) U) = if pe then phaseReports phase U else [] := by
  cases pe with
  | false => simp [reportOf]
  | true =>
    unfold phaseReports reportOf
    simp only [if_true, if_neg h, List.filterMap_map]
    generalize List.range U = l
    induction l with
    | nil => rfl
    | cons b l ih =>
      rw [List.flatMap_cons, ih, List.filterMap_cons]
      simp only [Function.comp]
      split_ifs <;> rfl

/-- The reports over the 8 planes. -/
theorem reportOf_planes (pe : Bool) (phase : Phase) :
    ((List.finRange 8).flatMap fun k => reportOf pe phase (k.val + 1) 8) = if pe then phaseReports phase 8 else [] := by
  rw [← reportOf_phase pe phase (by decide : 8 ≠ 0)]
  rfl

/-- The report of a phase without units. -/
theorem reportOf_none (pe : Bool) (phase : Phase) :
    reportOf pe phase 0 0 = if pe then phaseReports phase 0 else [] := by
  unfold reportOf phaseReports
  rfl

/-! ### The parts of a pass -/

theorem State.assemble_progEv {ib : List Byte} {filler : Nat → Byte} {count : Nat} {s t : State}
    (h : s.assemble ib filler count = .ok t) : t.progEv = s.progEv := by
  unfold State.assemble at h
  split at h
  · cases h; rfl
  · cases h

theorem State.nextToken_progEv {s t : State} {tok : Token} (h : s.nextToken = .ok (tok, t)) : t.progEv = s.progEv := by
  rw [State.nextToken_eq] at h
  split at h
  · cases h; rfl
  · cases h

theorem State.route_progEv (tok : Token) (b : Block) (s : State) : (s.route tok b).progEv = s.progEv :=
  foldl_keeps (fun (s : State) (j : Fin 8) => s.appendPlane (tok.get j) (b.get j)) State.progEv _ (fun _ _ => rfl) s

theorem State.copyPlane_progEv (k : Nat) (l : List Nat) (s : State) :
    (l.foldl (fun s o => s.emitOB (s.readPM k o)) s).progEv = s.progEv :=
  foldl_keeps (fun (s : State) o => s.emitOB (s.readPM k o)) State.progEv _ (fun _ _ => rfl) s

theorem State.emitAll_progEv (vs : List Byte) (s : State) :
    (vs.foldl (fun s v => s.emitOB v) s).progEv = s.progEv := by rw [State.emitAll_eq]

theorem State.emitBlock_progEv {s t : State} (h : s.emitBlock = .ok t) : t.progEv = s.progEv := by
  unfold State.emitBlock at h
  cases hn : s.nextToken with
  | error e => rw [hn] at h; cases h
  | ok p =>
    obtain ⟨tok, u⟩ := p
    rw [hn] at h
    cases h
    exact (State.route_progEv _ _ _).trans (State.nextToken_progEv hn)

/-- Assembling and emitting a block, then its report (R96 to R98). -/
theorem State.block_progEv {ib : List Byte} {filler : Nat → Byte} {count c U : Nat} {pe : Bool} {s t : State}
    (h : (do
      let s ← s.assemble ib filler count
      let s ← s.emitBlock
      .ok (s.report pe .route c U) : Run State) = .ok t) : t.progEv = s.progEv ++ reportOf pe .route c U := by
  obtain ⟨u, hu, h⟩ := Run.of_bind h
  obtain ⟨v, hv, h⟩ := Run.of_bind h
  cases h
  rw [State.report_progEv, State.emitBlock_progEv hv, State.assemble_progEv hu]

/-- The pulses of a SPLIT pass that runs to its end (R102). -/
theorem splitPass_progEv {pe : Bool} {L : Nat} {ib : List Byte} {noise : Byte} {filler : Nat → Byte} {s t : State}
    (h : s.splitPass pe (splitSize L) ib noise filler = .ok t) :
    t.progEv = s.progEv ++ if pe then splitReports (splitSize L).planes else [] := by
  obtain ⟨hrem, hh, hp, -, -⟩ := splitSize_counts L
  unfold State.splitPass at h
  split at h
  · cases h
  obtain ⟨u, h1, h⟩ := Run.of_bind h
  obtain ⟨v, h2, h⟩ := Run.of_bind h
  cases h
  have e1 : u.progEv = s.progEv ++
      (List.range (splitSize L).header).flatMap fun b => reportOf pe .route (b + 1) (splitSize L).planes := by
    unfold State.splitRemainder at h1
    by_cases hr : L % 8 = 0
    · rw [if_pos (show (splitSize L).rem = 0 from hr)] at h1
      cases h1
      rw [hh, if_pos hr]
      simp
    · rw [if_neg (show ¬(splitSize L).rem = 0 from hr)] at h1
      rw [State.block_progEv h1, hh, if_neg hr]
      simp
  have e2 : v.progEv = u.progEv ++ (List.range ((splitSize L).planes - (splitSize L).header)).flatMap
      fun b => reportOf pe .route ((splitSize L).header + b + 1) (splitSize L).planes :=
    foldlM_log _ State.progEv _ _ (fun b _ s t hst => State.block_progEv hst) h2
  have e3 : (List.range (splitSize L).planes).flatMap (fun b => reportOf pe .route (b + 1) (splitSize L).planes) =
      ((List.range (splitSize L).header).flatMap fun b => reportOf pe .route (b + 1) (splitSize L).planes) ++
      (List.range ((splitSize L).planes - (splitSize L).header)).flatMap
        fun b => reportOf pe .route ((splitSize L).header + b + 1) (splitSize L).planes := by
    have : (splitSize L).planes = (splitSize L).header + ((splitSize L).planes - (splitSize L).header) := by omega
    conv_lhs => rw [this, List.range_add, List.flatMap_append, List.flatMap_map]
    rw [← this]
  have e4 : ∀ w : State, (w.concatenate pe (splitSize L)).progEv =
      (if (splitSize L).planes = 0 then w.report pe .route 0 0 else w).progEv ++
        if pe then phaseReports .concat 8 else [] := by
    intro w
    unfold State.concatenate
    rw [foldl_log _ State.progEv (fun k : Fin 8 => reportOf pe .concat (k.val + 1) 8), reportOf_planes]
    intro k w
    unfold State.concatPlane
    rw [State.report_progEv, State.copyPlane_progEv]
  show (v.concatenate pe (splitSize L)).progEv = _
  rw [e4]
  unfold splitReports
  by_cases h0 : (splitSize L).planes = 0
  · have hh0 : (splitSize L).header = 0 := by omega
    rw [if_pos h0, State.report_progEv, reportOf_none, e2, e1, h0, hh0]
    cases pe <;> simp
  · rw [if_neg h0, e2, e1, List.append_assoc, List.append_assoc, ← List.append_assoc (List.flatMap _ _), ← e3,
      reportOf_phase pe .route h0]
    cases pe <;> simp

theorem State.gather_progEv {tok : Token} {s t : State} (h : (List.finRange 8).foldlM (State.gatherByte tok) s = .ok t) :
    t.progEv = s.progEv := by
  refine foldlM_keeps (State.gatherByte tok) State.progEv _ (fun j _ s t hst => ?_) h
  unfold State.gatherByte at hst
  dsimp only at hst
  split at hst
  · cases hst
  · cases hst; rfl

/-- One recovered block adds its report (R107, R108, R110). -/
theorem State.recoverBlock_progEv {pe : Bool} {z : PassSize} {count c : Nat} {s t : State}
    (h : s.recoverBlock pe z count c = .ok t) : t.progEv = s.progEv ++ reportOf pe .recon c z.planes := by
  unfold State.recoverBlock at h
  obtain ⟨⟨tok, u⟩, hn, h⟩ := Run.of_bind h
  obtain ⟨v, hg, h⟩ := Run.of_bind h
  cases h
  rw [State.report_progEv, State.emitAll_progEv, State.gather_progEv hg, State.nextToken_progEv hn]

theorem State.demuxPlane_progEv {pe : Bool} {z : PassSize} {ib : List Byte} {s t : State} {k : Fin 8}
    (h : s.demuxPlane pe z ib k = .ok t) : t.progEv = s.progEv ++ reportOf pe .demux (k.val + 1) 8 := by
  unfold State.demuxPlane at h
  obtain ⟨u, hd, h⟩ := Run.of_bind h
  cases h
  rw [State.report_progEv]
  have hu : u.progEv = s.progEv := by
    refine foldlM_keeps (State.demuxByte ib k) State.progEv _ (fun o _ s t hst => ?_) hd
    unfold State.demuxByte at hst
    split at hst
    · cases hst; rfl
    · cases hst
  rw [← hu]

/-- The pulses of an UNSPLIT pass that runs to its end (R110). `hb`: a remainder has a block to be in. -/
theorem unsplitPass_progEv {pe : Bool} {z : PassSize} {ib : List Byte} {h : Byte} {s t : State}
    (hb : z.rem ≠ 0 → z.planes ≠ 0) (he : s.unsplitPass pe z ib h = .ok t) :
    t.progEv = s.progEv ++ if pe then unsplitReports z.planes else [] := by
  unfold State.unsplitPass at he
  split at he
  · cases he
  obtain ⟨u, h1, he⟩ := Run.of_bind he
  obtain ⟨v, h2, he⟩ := Run.of_bind he
  obtain ⟨w, h3, he⟩ := Run.of_bind he
  cases he
  have e1 : u.progEv = s.progEv ++ if pe then phaseReports .demux 8 else [] := by
    rw [foldlM_log _ State.progEv _ _ (fun k _ s t hst => State.demuxPlane_progEv hst) h1, reportOf_planes]
    rfl
  show (w.reportNoBlocks pe z).progEv = _
  unfold State.reportNoBlocks unsplitReports
  unfold State.recoverRemainder at h2
  unfold State.recoverBlocks at h3
  have e3 := foldlM_log _ State.progEv _ _ (fun b _ s t hst => State.recoverBlock_progEv hst) h3
  by_cases hr : z.rem = 0
  · rw [if_pos hr] at h2
    cases h2
    simp only [hr, if_true, Nat.sub_zero, Nat.zero_add, and_true] at e3 ⊢
    by_cases h0 : z.planes = 0
    · rw [if_pos h0, State.report_progEv, reportOf_none, e3, e1, h0]
      cases pe <;> simp
    · rw [if_neg h0, e3, e1, reportOf_phase pe .recon h0]
      cases pe <;> simp
  · have h0 := hb hr
    rw [if_neg hr] at h2
    simp only [hr, if_false, and_false] at e3 ⊢
    have e4 : (List.range z.planes).flatMap (fun b => reportOf pe .recon (b + 1) z.planes) =
        reportOf pe .recon 1 z.planes ++
        (List.range (z.planes - 1)).flatMap fun b => reportOf pe .recon (1 + b + 1) z.planes := by
      have : z.planes = 1 + (z.planes - 1) := by omega
      conv_lhs => rw [this, List.range_add, List.flatMap_append, List.flatMap_map]
      rw [← this]
      simp
    rw [e3, State.recoverBlock_progEv h2, e1, List.append_assoc, List.append_assoc, ← e4,
      reportOf_phase pe .recon h0]
    cases pe <;> simp

/-! ### The commands -/

/-- The pulses of a SPLIT that runs (R102). -/
theorem exec_split_log {s t : State} (h : SplitRuns s) (e : exec .split s = .next t) :
    t.progEv = s.progEv ++ if s.ctl.progEn then splitReports (splitSize s.inLen.toNat).planes else [] := by
  obtain ⟨u, hu, -⟩ := splitPass_ok (s0 := s.accept (encode .split)) s.ctl.progEn s.drawNoise s.drawFiller
    s.inLen.isLt (PassSize.tooBig_false.2 ⟨h.planes, h.output⟩) h.input h.tokens
  rw [execSplit_ready h.ready, State.deliveredIB_idle h.idle, State.latch_idle h.idle] at e
  change Host.Outcome.next (State.finishPass _ _ (State.splitPass s.ctl.progEn (splitSize s.inLen.toNat) s.ib
    s.drawNoise s.drawFiller (s.accept (encode .split))) _) = _ at e
  rw [hu] at e
  cases e
  have hlog := splitPass_progEv hu
  exact hlog

/-- The pulses of an UNSPLIT that runs (R110). -/
theorem exec_unsplit_log {s t : State} {b : Byte} (h : UnsplitRuns s b) (e : exec .unsplit s = .next t) :
    t.progEv = s.progEv ++
      if s.ctl.progEn then unsplitReports (unsplitSize s.inLen.toNat (headerRem b)).planes else [] := by
  obtain ⟨hrem, hhd, hpl, hout⟩ := unsplitSize_counts s.inLen.toNat (headerRem b)
  obtain ⟨u, hu, -⟩ := unsplitPass_ok (s0 := s.accept (encode .unsplit)) s.ctl.progEn (ib := s.ib)
    (z := unsplitSize s.inLen.toNat (headerRem b)) b (unsplitSize_planes_le _ s.inLen.isLt)
    (by rw [hrem]; exact headerRem_lt b) (by rw [hrem]; exact hout)
    (PassSize.tooBig_false.2 ⟨h.planes, h.output⟩) (by rw [hrem]; exact h.block) (by rw [hhd]; exact h.input) h.tokens
  have hd : unsplitHeaderByte (s.latch (encode .unsplit)).inLen.toNat
      ((s.accept (encode .unsplit)).deliveredIB (s.latch (encode .unsplit))) = some b := by
    rw [State.deliveredIB_idle h.idle, State.latch_idle h.idle]; exact h.header
  rw [execUnsplit_header h.ready hd, State.deliveredIB_idle h.idle, State.latch_idle h.idle] at e
  change Host.Outcome.next (State.finishPass _ _ (State.unsplitPass s.ctl.progEn
    (unsplitSize s.inLen.toNat (headerRem b)) s.ib b (s.accept (encode .unsplit))) _) = _ at e
  rw [hu] at e
  cases e
  have hlog := unsplitPass_progEv (by rw [hrem]; exact h.block) hu
  exact hlog

end Sys2Proof.Machine
end

