-- ==== Sys2Proof/Laws/Race.lean ====
section
/-! SUPPORT. A pass works on the input bytes it is given and on the unit's own state: what IB, the sequencer and the
host's events are meanwhile makes no difference to it (R36, R53). -/

namespace Sys2Proof.Machine

/-- The state with another IB, another sequencer and other events. -/
def State.rehost (ib : List Byte) (q : Option Seq) (es : List Input) (s : State) : State :=
  { s with ib := ib, seq := q, inputs := es }

variable (jb : List Byte) (q : Option Seq) (es : List Input)

/-! ### Loops -/

/-- A loop whose every turn commutes with a map of the state commutes with it. -/
theorem foldlM_commutes {σ α : Type} (F : σ → σ) (f : σ → α → Run σ) (l : List α)
    (h : ∀ s a, f (F s) a = (f s a).map F) (s : σ) : l.foldlM f (F s) = (l.foldlM f s).map F := by
  induction l generalizing s with
  | nil => rfl
  | cons a l ih =>
    rw [List.foldlM_cons, List.foldlM_cons, h]
    cases f s a with
    | error e => rfl
    | ok t => exact ih t

/-- The same for a loop that cannot raise. -/
theorem foldl_commutes {σ α : Type} (F : σ → σ) (f : σ → α → σ) (l : List α) (h : ∀ s a, f (F s) a = F (f s a))
    (s : σ) : l.foldl f (F s) = F (l.foldl f s) := by
  induction l generalizing s with
  | nil => rfl
  | cons a l ih => rw [List.foldl_cons, List.foldl_cons, h, ih]

/-- Two parts that commute with a map commute one after the other. -/
theorem bind_commutes {σ τ : Type} (F : σ → σ) (G : τ → τ) {x y : Run σ} {f : σ → Run τ} (hx : y = x.map F)
    (hf : ∀ s, f (F s) = (f s).map G) : (y >>= f) = (x >>= f).map G := by
  subst hx
  cases x with
  | error e => rfl
  | ok s => exact hf s

/-! ### The parts of a pass -/

theorem State.report_rehost (pe : Bool) (phase : Phase) (c U : Nat) (s : State) :
    (s.rehost jb q es).report pe phase c U = (s.report pe phase c U).rehost jb q es := by
  unfold State.report
  split_ifs <;> rfl

theorem State.assemble_rehost (ib : List Byte) (filler : Nat → Byte) (count : Nat) (s : State) :
    (s.rehost jb q es).assemble ib filler count = (s.assemble ib filler count).map (State.rehost jb q es) := by
  unfold State.assemble
  by_cases h : s.ipos + count ≤ ib.length
  · rw [if_pos h, if_pos (show (s.rehost jb q es).ipos + count ≤ ib.length from h)]; rfl
  · rw [if_neg h, if_neg (show ¬(s.rehost jb q es).ipos + count ≤ ib.length from h)]; rfl

theorem State.nextToken_rehost (s : State) :
    (s.rehost jb q es).nextToken = s.nextToken.map fun p => (p.1, p.2.rehost jb q es) := by
  rw [State.nextToken_eq, State.nextToken_eq]
  by_cases h : tokenValid (s.tokenAt s.n) = true
  · rw [if_pos h, if_pos (show tokenValid ((s.rehost jb q es).tokenAt (s.rehost jb q es).n) = true from h)]; rfl
  · rw [if_neg h, if_neg (show ¬tokenValid ((s.rehost jb q es).tokenAt (s.rehost jb q es).n) = true from h)]; rfl

theorem State.route_rehost (tok : Token) (b : Block) (s : State) :
    (s.rehost jb q es).route tok b = (s.route tok b).rehost jb q es :=
  foldl_commutes (State.rehost jb q es) (fun (s : State) (j : Fin 8) => s.appendPlane (tok.get j) (b.get j)) _
    (fun _ _ => rfl) s

theorem State.emitBlock_rehost (s : State) :
    (s.rehost jb q es).emitBlock = s.emitBlock.map (State.rehost jb q es) := by
  unfold State.emitBlock
  rw [State.nextToken_rehost]
  cases s.nextToken with
  | error e => rfl
  | ok p =>
    show Except.ok (State.route p.1 (transpose s.blk) (p.2.rehost jb q es)) = _
    rw [State.route_rehost]
    rfl

theorem State.splitBlock_rehost (pe : Bool) (z : PassSize) (ib : List Byte) (s : State) (b : Nat) :
    (s.rehost jb q es).splitBlock pe z ib b = (s.splitBlock pe z ib b).map (State.rehost jb q es) := by
  unfold State.splitBlock
  refine bind_commutes _ _ (State.assemble_rehost jb q es _ _ _ s) fun s => ?_
  refine bind_commutes _ _ (State.emitBlock_rehost jb q es s) fun s => ?_
  rw [State.report_rehost]
  rfl

theorem State.splitRemainder_rehost (pe : Bool) (z : PassSize) (ib : List Byte) (h : Byte) (filler : Nat → Byte)
    (s : State) : State.splitRemainder pe z ib h filler (s.rehost jb q es) =
      (State.splitRemainder pe z ib h filler s).map (State.rehost jb q es) := by
  unfold State.splitRemainder
  by_cases hr : z.rem = 0
  · rw [if_pos hr, if_pos hr]; rfl
  · rw [if_neg hr, if_neg hr]
    refine bind_commutes _ _ (State.assemble_rehost jb q es _ _ _ (s.emitOB h)) fun s => ?_
    refine bind_commutes _ _ (State.emitBlock_rehost jb q es s) fun s => ?_
    rw [State.report_rehost]
    rfl

theorem State.concatPlane_rehost (pe : Bool) (z : PassSize) (s : State) (k : Fin 8) :
    (s.rehost jb q es).concatPlane pe z k = (s.concatPlane pe z k).rehost jb q es := by
  unfold State.concatPlane
  rw [foldl_commutes (State.rehost jb q es) (fun (s : State) o => s.emitOB (s.readPM k.val o)) _ (fun _ _ => rfl) s,
    State.report_rehost]

theorem State.concatenate_rehost (pe : Bool) (z : PassSize) (s : State) :
    (s.rehost jb q es).concatenate pe z = (s.concatenate pe z).rehost jb q es := by
  unfold State.concatenate
  have h : (if z.planes = 0 then (s.rehost jb q es).report pe .route 0 0 else s.rehost jb q es) =
      (if z.planes = 0 then s.report pe .route 0 0 else s).rehost jb q es := by
    rw [State.report_rehost]; split_ifs <;> rfl
  rw [h]
  exact foldl_commutes (State.rehost jb q es) (State.concatPlane pe z) _
    (fun s k => State.concatPlane_rehost jb q es pe z s k) _

/-- A SPLIT pass does not depend on IB as it stands, the sequencer or the events to come (R36, R53). -/
theorem State.splitPass_rehost (pe : Bool) (z : PassSize) (ib : List Byte) (noise : Byte) (filler : Nat → Byte)
    (s : State) : (s.rehost jb q es).splitPass pe z ib noise filler =
      (s.splitPass pe z ib noise filler).map (State.rehost jb q es) := by
  unfold State.splitPass
  by_cases h : z.tooBig s.params = true
  · rw [if_pos h, if_pos (show z.tooBig (s.rehost jb q es).params = true from h)]; rfl
  · rw [if_neg h, if_neg (show ¬z.tooBig (s.rehost jb q es).params = true from h)]
    refine bind_commutes _ _ (State.splitRemainder_rehost jb q es _ _ _ _ _ (s.startPass 0)) fun s => ?_
    refine bind_commutes _ _ (foldlM_commutes (State.rehost jb q es) _ _
      (fun s b => State.splitBlock_rehost jb q es pe z ib s b) s) fun s => ?_
    rw [State.concatenate_rehost]
    rfl

theorem State.demuxByte_rehost (ib : List Byte) (k : Fin 8) (s : State) (o : Nat) :
    (s.rehost jb q es).demuxByte ib k o = (s.demuxByte ib k o).map (State.rehost jb q es) := by
  unfold State.demuxByte
  show (match ib[s.ipos]? with
    | some v => _
    | none => _) = _
  cases ib[s.ipos]? <;> rfl

theorem State.demuxPlane_rehost (pe : Bool) (z : PassSize) (ib : List Byte) (s : State) (k : Fin 8) :
    (s.rehost jb q es).demuxPlane pe z ib k = (s.demuxPlane pe z ib k).map (State.rehost jb q es) := by
  unfold State.demuxPlane
  refine bind_commutes _ _ (foldlM_commutes (State.rehost jb q es) _ _
    (fun s o => State.demuxByte_rehost jb q es ib k s o) s) fun s => ?_
  exact congrArg Except.ok (State.report_rehost jb q es pe .demux (k.val + 1) 8
    { s with plen := s.plen.set k.val z.planes })

theorem State.gatherByte_rehost (tok : Token) (s : State) (j : Fin 8) :
    (s.rehost jb q es).gatherByte tok j = (s.gatherByte tok j).map (State.rehost jb q es) := by
  unfold State.gatherByte
  dsimp only
  by_cases h : s.plen.get (tok.get j) ≤ s.ppos.get (tok.get j)
  · rw [if_pos h, if_pos (show (s.rehost jb q es).plen.get (tok.get j) ≤ (s.rehost jb q es).ppos.get (tok.get j)
      from h)]
    rfl
  · rw [if_neg h, if_neg (show ¬(s.rehost jb q es).plen.get (tok.get j) ≤ (s.rehost jb q es).ppos.get (tok.get j)
      from h)]
    rfl

theorem State.recoverBlock_rehost (pe : Bool) (z : PassSize) (count c : Nat) (s : State) :
    (s.rehost jb q es).recoverBlock pe z count c = (s.recoverBlock pe z count c).map (State.rehost jb q es) := by
  unfold State.recoverBlock
  rw [State.nextToken_rehost]
  cases s.nextToken with
  | error e => rfl
  | ok p =>
    refine bind_commutes (State.rehost jb q es) _ (foldlM_commutes (State.rehost jb q es) _ _
      (fun s j => State.gatherByte_rehost jb q es p.1 s j) p.2) fun s => ?_
    show Except.ok (State.report pe .recon c z.planes (((transpose s.blk).toList.take count).foldl
      (fun s v => s.emitOB v) (s.rehost jb q es))) = _
    rw [foldl_commutes (State.rehost jb q es) (fun (s : State) v => s.emitOB v) _ (fun _ _ => rfl) s,
      State.report_rehost]
    rfl

theorem State.recoverRemainder_rehost (pe : Bool) (z : PassSize) (s : State) :
    (s.rehost jb q es).recoverRemainder pe z = (s.recoverRemainder pe z).map (State.rehost jb q es) := by
  unfold State.recoverRemainder
  by_cases h : z.rem = 0
  · rw [if_pos h, if_pos h]; rfl
  · rw [if_neg h, if_neg h]; exact State.recoverBlock_rehost jb q es pe z z.rem 1 s

/-- An UNSPLIT pass does not depend on IB as it stands, the sequencer or the events to come (R36, R53). -/
theorem State.unsplitPass_rehost (pe : Bool) (z : PassSize) (ib : List Byte) (h : Byte) (s : State) :
    (s.rehost jb q es).unsplitPass pe z ib h = (s.unsplitPass pe z ib h).map (State.rehost jb q es) := by
  unfold State.unsplitPass
  by_cases hb : z.tooBig s.params = true
  · rw [if_pos hb, if_pos (show z.tooBig (s.rehost jb q es).params = true from hb)]; rfl
  · rw [if_neg hb, if_neg (show ¬z.tooBig (s.rehost jb q es).params = true from hb)]
    refine bind_commutes _ _ (foldlM_commutes (State.rehost jb q es) _ _
      (fun s k => State.demuxPlane_rehost jb q es pe z ib s k) (s.startPass z.header)) fun s => ?_
    refine bind_commutes _ _ (State.recoverRemainder_rehost jb q es pe z s) fun s => ?_
    refine bind_commutes _ _ (foldlM_commutes (State.rehost jb q es) _ _
      (fun s b => State.recoverBlock_rehost jb q es pe z 8 _ s) s) fun s => ?_
    have hn : (s.rehost jb q es).reportNoBlocks pe z = (s.reportNoBlocks pe z).rehost jb q es := by
      unfold State.reportNoBlocks
      rw [State.report_rehost]; split_ifs <;> rfl
    rw [hn]
    rfl

end Sys2Proof.Machine
end

