-- ==== Sys2Proof/Laws/Step.lean ====
section
/-! SUPPORT. What one step can do, said once: the cases of a command, of a command word and of an event. -/

namespace Sys2Proof.Machine

/-! ### Decoding -/

theorem decode_encode (i : Instr) : decode (encode i) = .ok i := by cases i <;> rfl

/-- The only word that decodes to a command is its encoding (R56, R57). -/
theorem encode_of_decode {w : Word} {i : Instr} (h : decode w = .ok i) : w = encode i := by
  unfold decode at h
  split at h
  · rename_i hr
    have hr : w.extractLsb' 8 24 = 0#24 := by simpa using hr
    have hw : w = w.extractLsb' 8 24 ++ w.extractLsb' 0 8 := by
      apply BitVec.eq_of_getLsbD_eq
      intro j hj
      rw [BitVec.getLsbD_append]
      split
      · rename_i h8
        simp [h8]
      · rename_i h8
        have h24 : j - 8 < 24 := by omega
        have e : 8 + (j - 8) = j := by omega
        simp [h24, e]
    rw [hr] at hw
    unfold opOf at h
    have hb : ∀ n, (w.extractLsb' 0 8).toNat = n → w.extractLsb' 0 8 = BitVec.ofNat 8 n := fun n e => by
      rw [← e, BitVec.ofNat_toNat, BitVec.setWidth_eq]
    split at h
    all_goals first
      | (rename_i e; cases h; rw [hw, hb _ e]; rfl)
      | exact absurd h (by simp)
  · exact absurd h (by simp)

theorem decode_eq_ok_iff (w : Word) (i : Instr) : decode w = .ok i ↔ w = encode i :=
  ⟨encode_of_decode, fun h => h ▸ decode_encode i⟩

/-! ### A command -/

/-- What a command can do to the state it runs in. -/
inductive Executed (i : Instr) (s t : State) : Prop where
  /-- An error of R133. -/
  | refused (e : ErrCode) (h : t = { s with seq := none, done := true, err := e })
      (he : e = .notInitialized ∨ e = .invalidState ∨ e = .insufficientPlaneCount ∨ e = .wipeFailure)
  /-- INIT succeeds (R116). -/
  | prepared (hi : i = .init) (hs : s.lifecycle = .uninit) (hp : s.planeProv = 0xFF#8)
      (h : t = s.prepare.complete .noError .ready)
  /-- RESEED succeeds (R79). -/
  | reseeded (hi : i = .reseed) (hs : s.lifecycle = .ready)
      (h : t = { s with n := 0, seq := none, done := true, err := .noError })
  /-- CLEAR succeeds (R120). -/
  | cleared (hi : i = .clear) (hs : s.lifecycle ≠ .uninit) (hp : s.planeProv = 0xFF#8)
      (h : t = (s.clearCore (s.latch (encode .clear))).complete .noError .closed)
  /-- CLEAR_AND_CLOSE succeeds (R123). -/
  | released (hi : i = .clearAndClose) (hs : s.lifecycle ≠ .uninit) (hp : s.planeProv = 0xFF#8)
      (h : t = (s.clearCore (s.latch (encode .clearAndClose))).release.complete .noError .closed)
  /-- TRANSPOSE (R68). -/
  | transposed (hi : i = .transpose) (h : t = s.transposeX.complete .noError s.lifecycle)
  /-- A SPLIT pass runs to its end (R94). -/
  | split (hi : i = .split) (hs : s.lifecycle = .ready)
      (hfit : (splitSize (s.latch (encode .split)).inLen.toNat).tooBig s.params = false) (u : State)
      (hu : SplitDone (s.accept (encode .split)) (s.latch (encode .split)).ctl.progEn
        ((s.accept (encode .split)).deliveredIB (s.latch (encode .split))) s.drawNoise s.drawFiller
        (s.latch (encode .split)).inLen.toNat u)
      (h : t = State.passEnd (s.latch (encode .split)) (splitSize (s.latch (encode .split)).inLen.toNat)
        (s.accept (encode .split)) u)
  /-- An UNSPLIT pass runs to its end (R104). -/
  | unsplit (hi : i = .unsplit) (hs : s.lifecycle = .ready) (b : Byte)
      (hfit : (unsplitSize (s.latch (encode .unsplit)).inLen.toNat (headerRem b)).tooBig s.params = false) (u : State)
      (hu : UnsplitDone (s.accept (encode .unsplit)) (s.latch (encode .unsplit)).ctl.progEn
        ((s.accept (encode .unsplit)).deliveredIB (s.latch (encode .unsplit)))
        (unsplitSize (s.latch (encode .unsplit)).inLen.toNat (headerRem b)) b u)
      (h : t = State.passEnd (s.latch (encode .unsplit))
        (unsplitSize (s.latch (encode .unsplit)).inLen.toNat (headerRem b)) (s.accept (encode .unsplit)) u)
  /-- A pass error (R134). -/
  | passFailed (hi : i = .split ∨ i = .unsplit) (hs : s.lifecycle = .ready) (w : Word) (code : ErrCode)
      (hc : code.ofPass) (z : PassSize) (h : PassFailed (s.accept w) code z t)

/-- Every command completes, in one of these ways. -/
theorem exec_cases (i : Instr) (s : State) : ∃ t, exec i s = .next t ∧ Executed i s t := by
  cases i with
  | init =>
    by_cases hs : s.lifecycle = .uninit
    · by_cases hp : s.planeProv = 0xFF#8
      · exact ⟨(s.accept (encode .init)).prepare.complete .noError .ready, by simp [exec, execInit, hs, hp],
          .prepared rfl hs hp rfl⟩
      · exact ⟨(s.accept (encode .init)).checkError .insufficientPlaneCount, by simp [exec, execInit, hs, hp],
          .refused _ rfl (by simp)⟩
    · exact ⟨(s.accept (encode .init)).checkError .invalidState, by simp [exec, execInit, hs],
        .refused _ rfl (by simp)⟩
  | split =>
    obtain ⟨t, e, ⟨c, hc, ht⟩ | ⟨hs, hfit, -, u, hu, ht⟩ | ⟨hs, c, hc, ht⟩⟩ := execSplit_cases s
    · refine ⟨t, e, .refused c ht ?_⟩
      rcases Lifecycle.notReady_some hc with ⟨-, rfl⟩ | ⟨-, rfl⟩ <;> simp
    · exact ⟨t, e, .split rfl hs hfit u hu ht⟩
    · exact ⟨t, e, .passFailed (.inl rfl) hs _ c hc _ ht⟩
  | unsplit =>
    obtain ⟨t, e, ⟨c, hc, ht⟩ | ⟨hs, b, -, hfit, -, u, hu, ht⟩ | ⟨hs, c, hc, ht⟩⟩ := execUnsplit_cases s
    · refine ⟨t, e, .refused c ht ?_⟩
      rcases Lifecycle.notReady_some hc with ⟨-, rfl⟩ | ⟨-, rfl⟩ <;> simp
    · exact ⟨t, e, .unsplit rfl hs b hfit u hu ht⟩
    · exact ⟨t, e, .passFailed (.inr rfl) hs _ c hc _ ht⟩
  | clear =>
    by_cases hs : s.lifecycle = .uninit
    · exact ⟨(s.accept (encode .clear)).checkError .notInitialized,
        by simp [exec, execClear, State.clearRefusal, hs], .refused _ rfl (by simp)⟩
    · by_cases hp : s.planeProv = 0xFF#8
      · exact ⟨(((s.accept (encode .clear)).clearCore (s.latch (encode .clear)))).complete .noError .closed,
          by simp [exec, execClear, State.clearRefusal, hs, hp], .cleared rfl hs hp rfl⟩
      · exact ⟨(s.accept (encode .clear)).checkError .wipeFailure,
          by simp [exec, execClear, State.clearRefusal, hs, hp], .refused _ rfl (by simp)⟩
  | clearAndClose =>
    by_cases hs : s.lifecycle = .uninit
    · exact ⟨(s.accept (encode .clearAndClose)).checkError .notInitialized,
        by simp [exec, execClearAndClose, State.clearRefusal, hs], .refused _ rfl (by simp)⟩
    · by_cases hp : s.planeProv = 0xFF#8
      · exact ⟨(((s.accept (encode .clearAndClose)).clearCore (s.latch (encode .clearAndClose))).release).complete .noError .closed,
          by simp [exec, execClearAndClose, State.clearRefusal, hs, hp], .released rfl hs hp rfl⟩
      · exact ⟨(s.accept (encode .clearAndClose)).checkError .wipeFailure,
          by simp [exec, execClearAndClose, State.clearRefusal, hs, hp], .refused _ rfl (by simp)⟩
  | reseed =>
    cases hr : s.lifecycle.notReady with
    | some e =>
      refine ⟨_, by simp only [exec, execReseed, State.accept_lifecycle, hr]; rfl, .refused e rfl ?_⟩
      rcases Lifecycle.notReady_some hr with ⟨-, rfl⟩ | ⟨-, rfl⟩ <;> simp
    | none =>
      have h := Lifecycle.notReady_none.1 hr
      refine ⟨_, by simp only [exec, execReseed, State.accept_lifecycle, hr]; rfl, .reseeded rfl h ?_⟩
      rw [← h]; rfl
  | transpose => exact ⟨_, rfl, .transposed rfl rfl⟩

theorem Executed.of_exec {i : Instr} {s t : State} (h : exec i s = .next t) : Executed i s t := by
  obtain ⟨u, e, hu⟩ := exec_cases i s
  rw [e] at h
  cases h
  exact hu

/-- A command word runs its command, or is illegal (R56, R58). -/
theorem runWord_cases (w : Word) (s : State) :
    (∃ i, w = encode i ∧ s.runWord w = exec i s) ∨
    ((∀ i, w ≠ encode i) ∧
      s.runWord w = .next { s with seq := none, done := true, err := .illegalCommand }) := by
  unfold State.runWord
  cases h : decode w with
  | ok i => exact .inl ⟨i, encode_of_decode h, rfl⟩
  | error e =>
    refine .inr ⟨fun i hi => ?_, rfl⟩
    rw [hi, decode_encode] at h
    cases h

/-! ### An event -/

/-- What one step can do. -/
inductive Stepped (s t : State) : Prop where
  /-- No event, or a WAIT that spins (R148, R63). -/
  | still (h : t = s)
  /-- A command word runs to its completion (R12, R126). -/
  | command (w : Word) (hw : s.nextWord = some w) (u : State) (hu : u = s.taken)
      (h : (∃ i, w = encode i ∧ Executed i u t) ∨
        t = { u with seq := none, done := true, err := .illegalCommand })
  /-- A command is accepted, to complete later (R19). -/
  | accepted (w : Word) (b : Bool) (rest : List Input) (hi : s.inputs = .start w b :: rest) (hs : s.seq = none)
      (i : Instr) (hw : w = encode i) (b' : Bool)
      (h : t = { s with
        inputs := rest, done := false, err := .noError, seq := some ⟨w, s.inLen, s.ctl, b', [], []⟩ })
  /-- An illegal word started while BUSY = 0 completes at once (R58). -/
  | illegal (w : Word) (b : Bool) (rest : List Input) (hi : s.inputs = .start w b :: rest) (hs : s.seq = none)
      (h : t = { s with inputs := rest, seq := none, done := true, err := .illegalCommand })
  /-- A register write while BUSY = 0 (R18). -/
  | wrote (off : Nat) (v : Word) (rest : List Input) (hi : s.inputs = .write 32 off v :: rest) (hs : s.seq = none)
      (hr : regAt off ≠ .cmd) (h : t = State.writeReg (regAt off) v { s with inputs := rest })
  /-- A register write, or a CMD write, while BUSY = 1 (R152). -/
  | ignored (i : Input) (rest : List Input) (hi : s.inputs = i :: rest) (hs : s.seq ≠ none) (b : Bool)
      (h : t = { s with inputs := rest, ovr := s.ovr || b })
  /-- A register read (R49). -/
  | read (off : Nat) (rest : List Input) (hi : s.inputs = .read 32 off :: rest)
      (h : t = State.hostRead off { s with inputs := rest })
  /-- WAIT ends (R63). -/
  | waited (rest : List Input) (hi : s.inputs = .wait :: rest) (hd : s.done = true)
      (h : t = { s with inputs := rest, rdata := s.statusWord })
  /-- The host fills IB (R37). -/
  | setIB (bytes : List Byte) (rest : List Input) (hi : s.inputs = .setIB bytes :: rest)
      (h : t = State.hostSetIB bytes { s with inputs := rest })
  /-- The host writes OB (R38). -/
  | wroteOB (a : Nat) (v : Byte) (rest : List Input) (hi : s.inputs = .writeOB a v :: rest)
      (ha : a < s.params.outCap) (h : t = State.hostWriteOB a v { s with inputs := rest })
  /-- The host reads OB (R38). -/
  | readOB (a : Nat) (rest : List Input) (hi : s.inputs = .readOB a :: rest)
      (h : t = State.hostReadOB a { s with inputs := rest })
  /-- The reset event (R150). -/
  | reset (rest : List Input) (hi : s.inputs = .reset :: rest) (h : t = State.resetEvent { s with inputs := rest })

theorem State.busy_iff (s : State) : s.busy = true ↔ s.seq ≠ none := by
  unfold State.busy; cases s.seq <;> simp

theorem State.busy_false (s : State) : s.busy = false ↔ s.seq = none := by
  unfold State.busy; cases s.seq <;> simp

theorem regAt_eq_cmd (off : Nat) : regAt off = .cmd ↔ off = 0 := by
  constructor
  · intro h
    unfold regAt at h
    split at h <;> first | rfl | (exact absurd h (by simp)) | skip
    split_ifs at h
  · rintro rfl; rfl

theorem State.busyWrite_eq (s : State) (r : Reg) :
    s.busyWrite r = { s with ovr := s.ovr || decide (r = .cmd) } := by
  unfold State.busyWrite
  split
  · rename_i h; simp [h]
  · rename_i h; simp [h]

theorem ran_of_runWord {w : Word} {u t : State} (h : u.runWord w = .next t) :
    (∃ i, w = encode i ∧ Executed i u t) ∨ t = { u with seq := none, done := true, err := .illegalCommand } := by
  rcases runWord_cases w u with ⟨i, hi, he⟩ | ⟨-, he⟩
  · exact .inl ⟨i, hi, Executed.of_exec (he ▸ h)⟩
  · rw [he] at h; cases h; exact .inr rfl

/-- Every step that goes on is one of these. -/
theorem step_cases {s t : State} (h : step s = .next t) : Stepped s t := by
  unfold step State.advance at h
  cases hin : s.inputs with
  | nil => rw [hin] at h; cases h; exact .still rfl
  | cons i rest =>
    simp only [hin] at h
    cases i with
    | write width off v =>
      simp only [State.handle] at h
      split at h
      · rename_i hw
        have hw32 : width = 32 := by simp [accessWf] at hw; exact hw.1
        subst hw32
        split at h
        · unfold State.hostWrite at h
          split at h
          · rename_i hb
            cases h
            exact .ignored _ rest hin ((State.busy_iff _).1 hb) _ (State.busyWrite_eq _ _)
          · rename_i hb
            have hs : s.seq = none := (State.busy_false s).1 (eq_false_of_ne_true hb)
            split at h
            · rename_i hr
              have h0 := (regAt_eq_cmd off).1 hr
              subst h0
              refine .command v ?_ _ rfl ?_
              · unfold State.nextWord; rw [hin]; simp [State.busy, hs]
              · have ht : s.taken = { s with inputs := rest } := by unfold State.taken; simp [hin]
                rw [ht]; exact ran_of_runWord h
            · rename_i hr
              cases h
              exact .wrote off v rest hin hs hr rfl
        · cases h
      · cases h
    | read width off =>
      simp only [State.handle] at h
      split at h
      · rename_i hw
        have hw32 : width = 32 := by simp [accessWf] at hw; exact hw.1
        subst hw32
        split at h
        · cases h; exact .read off rest hin rfl
        · cases h
      · cases h
    | start v b =>
      simp only [State.handle] at h
      split at h
      · rename_i hb
        cases h
        exact .ignored _ rest hin ((State.busy_iff _).1 hb) _ (State.busyWrite_eq _ _)
      · rename_i hb
        have hs : s.seq = none := (State.busy_false s).1 (eq_false_of_ne_true hb)
        unfold State.startWord at h
        split at h
        · rename_i i hd
          cases h
          refine .accepted v b rest hin hs i (encode_of_decode hd)
            (b && State.asksPlatform i { s with inputs := rest }) ?_
          rw [State.latch_idle (s := { s with inputs := rest }) hs]; rfl
        · rename_i e hd
          have : State.runWord v { s with inputs := rest } =
              .next { s with inputs := rest, seq := none, done := true, err := .illegalCommand } := by
            unfold State.runWord; rw [hd]; rfl
          rw [this] at h; cases h
          exact .illegal v b rest hin hs rfl
    | complete =>
      simp only [State.handle, State.completeRunning] at h
      cases hq : s.seq with
      | none => simp only [hq] at h; cases h
      | some q =>
        simp only [hq] at h
        cases hst : q.stalled with
        | true => rw [hst] at h; cases h
        | false =>
          rw [hst] at h
          refine .command q.word ?_ _ rfl ?_
          · unfold State.nextWord; rw [hin]; simp [hq, hst]
          · have ht : s.taken = { s with inputs := rest } := by unfold State.taken; simp [hin]
            rw [ht]; exact ran_of_runWord (by rw [← h]; simp [hq])
    | wait =>
      have hsame : ({ s with inputs := .wait :: rest } : State) = s := by rw [← hin]
      have hw : State.handle .wait { s with inputs := rest } =
          if s.done then .next { s with inputs := rest, rdata := s.statusWord }
          else match s.completeRunning with
            | some o => o
            | none => .next s := by
        show (if s.done = true then _ else match State.completeRunning { s with inputs := .wait :: rest } with
          | some o => o
          | none => .next { s with inputs := .wait :: rest }) = _
        rw [hsame]
        rfl
      rw [hw] at h
      split at h
      · rename_i hd
        cases h
        exact .waited rest hin hd rfl
      · rename_i hd
        unfold State.completeRunning at h
        cases hq : s.seq with
        | none => simp only [hq] at h; cases h; exact .still rfl
        | some q =>
          simp only [hq] at h
          cases hst : q.stalled with
          | true => simp only [hst, if_true] at h; cases h; exact .still rfl
          | false =>
            simp only [hst, Bool.false_eq_true, if_false] at h
            refine .command q.word ?_ _ rfl ?_
            · unfold State.nextWord; rw [hin]; simp [hq, hst, hd]
            · have ht : s.taken = s := by unfold State.taken; rw [hin]
              rw [ht]
              exact ran_of_runWord h
    | setIB bytes => simp only [State.handle] at h; cases h; exact .setIB bytes rest hin rfl
    | writeOB a v =>
      simp only [State.handle] at h
      split at h
      · rename_i ha; cases h; exact .wroteOB a v rest hin ha rfl
      · cases h
    | readOB a =>
      simp only [State.handle] at h
      split at h
      · cases h; exact .readOB a rest hin rfl
      · cases h
    | reset => simp only [State.handle] at h; cases h; exact .reset rest hin rfl

end Sys2Proof.Machine
end

