-- ==== Sys2Proof/Laws/Registers.lean ====
section
/-! SUPPORT. What the host's accesses and the reset event change, and what they leave. -/

namespace Sys2Proof.Machine

/-- A register write changes registers only (R17). -/
theorem State.writeReg_frame (s : State) (r : Reg) (v : Word) :
    s.writeReg r v = { s with
      done := (s.writeReg r v).done, ovr := (s.writeReg r v).ovr, ctl := (s.writeReg r v).ctl,
      inLen := (s.writeReg r v).inLen, wipeSeed := (s.writeReg r v).wipeSeed,
      planeProv := (s.writeReg r v).planeProv, key1Len := (s.writeReg r v).key1Len,
      key2Len := (s.writeReg r v).key2Len, key1 := (s.writeReg r v).key1, key2 := (s.writeReg r v).key2,
      xdata0 := (s.writeReg r v).xdata0, xdata1 := (s.writeReg r v).xdata1,
      dbgAddr := (s.writeReg r v).dbgAddr } := by
  cases r <;> simp only [State.writeReg, State.acknowledge] <;> first | rfl | (split <;> rfl)

/-- Outside UNINIT a register write leaves the keys and the provisioning mask (R71, R155). -/
theorem State.writeReg_frozen {s : State} (h : s.lifecycle ≠ .uninit) (r : Reg) (v : Word) :
    (s.writeReg r v).planeProv = s.planeProv ∧ (s.writeReg r v).key1Len = s.key1Len ∧
    (s.writeReg r v).key2Len = s.key2Len ∧ (s.writeReg r v).key1 = s.key1 ∧ (s.writeReg r v).key2 = s.key2 := by
  cases r <;> simp [State.writeReg, State.acknowledge, h]

@[simp] theorem writeKeyWord_length (key : List Byte) (i : Nat) (v : Word) :
    (writeKeyWord key i v).length = key.length := by simp [writeKeyWord]

/-- A key length register stores the lesser of the value and KEY_MAX (R26). -/
theorem legalKeyLen_le (p : Params) (v : Word) : (legalKeyLen p v).toNat ≤ p.keyMax := by
  unfold legalKeyLen
  split
  · assumption
  · rw [BitVec.toNat_ofNat]; exact Nat.mod_le _ _

/-- A register write keeps the key buffers' sizes and the key lengths legal (R26, R27). -/
theorem State.writeReg_keysFit {s : State} (h : s.KeysFit) (r : Reg) (v : Word) : (s.writeReg r v).KeysFit := by
  obtain ⟨h1, h2, h3, h4⟩ := h
  cases r <;> simp only [State.writeReg, State.acknowledge] <;>
    first
      | exact ⟨h1, h2, h3, h4⟩
      | (split
         · refine ⟨?_, ?_, ?_, ?_⟩ <;>
             first
               | assumption
               | exact legalKeyLen_le _ _
               | (rw [writeKeyWord_length]; assumption)
         · exact ⟨h1, h2, h3, h4⟩)

/-- A read changes what was returned, and the count of draws (R49). -/
theorem State.hostRead_frame (s : State) (off : Nat) :
    s.hostRead off = { s with rdata := (s.hostRead off).rdata, epoch := (s.hostRead off).epoch } := by
  unfold State.hostRead
  dsimp only
  split <;> rfl

theorem State.hostRead_idle {s : State} (h : s.seq = none) (off : Nat) :
    s.hostRead off = { s with rdata := s.regValue (regAt off) } := by
  unfold State.hostRead
  dsimp only
  rw [(State.busy_false s).2 h]

/-- A read while BUSY = 0, and one of a register that is not busy-unspecified, returns what the register holds
(R18, R49). -/
theorem State.hostRead_specified {s : State} {off : Nat} (h : s.seq = none ∨ (regAt off).busyMask = none) :
    s.hostRead off = { s with rdata := s.regValue (regAt off) } := by
  rcases h with h | h
  · exact State.hostRead_idle h off
  · unfold State.hostRead
    dsimp only
    rw [h]
    cases s.busy <;> rfl

/-- A key word write sets the four bytes of its word, little-endian, and no other (R27, R47). -/
theorem writeKeyWord_set {key : List Byte} {i : Nat} (v : Word) (h : 4 * i + 4 ≤ key.length) :
    keyWordSet key (writeKeyWord key i v) i v := by
  refine ⟨writeKeyWord_length _ _ _, fun m hm => ?_, fun b hb => ?_⟩
  · unfold writeKeyWord
    simp only [List.getElem?_set, List.length_set]
    interval_cases m <;> simp [wordByte] <;> omega
  · unfold writeKeyWord
    simp only [List.getElem?_set, List.length_set]
    split_ifs <;> first | omega | rfl

theorem State.hostReadOB_frame (s : State) (a : Nat) :
    s.hostReadOB a = { s with obData := (s.hostReadOB a).obData, epoch := (s.hostReadOB a).epoch } := by
  unfold State.hostReadOB
  split <;> rfl

/-- What reset leaves of OB (R150). -/
theorem State.resetEvent_ob (s : State) :
    s.resetEvent.ob = s.ob.writeAll ((List.range s.abortedOut).map fun a => (a, Config.abortedOB s.epoch a)) := rfl

theorem abortedOB_cells {n e : Nat} {c : Host.Cell}
    (h : c ∈ (List.range n).map fun a => (a, Config.abortedOB e a)) : c.1 < n := by
  obtain ⟨a, ha, rfl⟩ := List.mem_map.1 h
  exact List.mem_range.1 ha

/-- No pass runs between commands (R36). -/
theorem State.runningPass_idle {s : State} (h : s.seq = none) : s.runningPass = none := by
  unfold State.runningPass; rw [h]

/-- A pass runs only once it was accepted in READY (R92, R103). -/
theorem State.runningPass_notReady {s : State} (h : s.lifecycle ≠ .ready) : s.runningPass = none := by
  unfold State.runningPass
  split
  · rfl
  · rw [if_neg h]

/-- The pass of a running SPLIT or UNSPLIT has the sizes its pseudocode computes (R93, R105). -/
theorem State.runningPass_ready {s : State} {q : Seq} (hq : s.seq = some q) (h : s.lifecycle = .ready) :
    s.runningPass = match decode q.word with
      | .ok .split => some (splitSize q.inLen.toNat)
      | .ok .unsplit => some (unsplitSize q.inLen.toNat (match unsplitHeaderByte q.inLen.toNat (s.deliveredIB q) with
          | some b => headerRem b
          | none => 0))
      | _ => none := by
  unfold State.runningPass
  rw [hq]
  exact if_pos h

/-- An interrupted pass is clipped to OUT_CAP, and no pass means no byte (R150). -/
theorem State.abortedOut_le (s : State) : s.abortedOut ≤ s.params.outCap := by
  unfold State.abortedOut
  split
  · exact Nat.min_le_right _ _
  · exact Nat.zero_le _

theorem State.abortedOut_idle {s : State} (h : s.seq = none) : s.abortedOut = 0 := by
  unfold State.abortedOut; rw [State.runningPass_idle h]

/-- OB at and above the bytes of the interrupted pass is untouched by reset (R150). -/
theorem State.resetEvent_keptOB (s : State) {a : Nat} (h : s.abortedOut ≤ a) :
    s.resetEvent.ob.read a = s.ob.read a := by
  rw [State.resetEvent_ob]
  exact Store.read_writeAll_other fun c hc e => by
    have := abortedOB_cells hc
    omega

/-! ### Runs -/

/-- A run goes on from the next state of its first step. -/
theorem run_of_step (M : Host.Core) {s t : M.State} (k : Nat) (h : M.step s = .next t) : M.run (k + 1) s = M.run k t := by
  simp only [Host.Core.run, h]

/-! ### The register map and its accesses -/

/-- Above DBG_DATA stand the two key windows and reserved offsets (R17). -/
theorem regAt_beyond {off : Nat} (h : 0x040 < off) :
    regAt off = if 0x100 ≤ off ∧ off < 0x200 then .key1 ((off - 0x100) / 4)
      else if 0x200 ≤ off ∧ off < 0x300 then .key2 ((off - 0x200) / 4) else .reserved := by
  apply regAt.eq_18 <;> omega

/-- A well-formed register write is the next step (R48). -/
theorem step_write {s : State} {off : Nat} {v : Word} {rest : List Input} (hi : s.inputs = .write 32 off v :: rest)
    (h4 : off % 4 = 0) (hl : off < 0x1000) : step s = State.hostWrite off v { s with inputs := rest } := by
  unfold step State.advance
  rw [hi]
  simp [State.handle, accessWf, offsetInSpace, h4, hl]

/-- A well-formed register read is the next step (R48, R49). -/
theorem step_read {s : State} {off : Nat} {rest : List Input} (hi : s.inputs = .read 32 off :: rest)
    (h4 : off % 4 = 0) (hl : off < 0x1000) : step s = .next (State.hostRead off { s with inputs := rest }) := by
  unfold step State.advance
  rw [hi]
  simp [State.handle, accessWf, offsetInSpace, h4, hl]

/-- While BUSY = 0 a write of CMD runs the word, and any other write writes its register (R17, R19). -/
theorem State.hostWrite_idle {s : State} (h : s.seq = none) (off : Nat) (v : Word) :
    s.hostWrite off v = if regAt off = .cmd then s.runWord v else .next (s.writeReg (regAt off) v) := by
  unfold State.hostWrite
  rw [(State.busy_false s).2 h]
  rfl

end Sys2Proof.Machine
end

