-- ==== Sys2Proof/Laws/Transpose.lean ====
section
/-! SUPPORT. The transpose bit by bit (R65), the token of a word, and the packing of a block into XDATA0 and
XDATA1 (R47). -/

namespace Sys2Proof.Machine

/-- Bit `j` of output lane `i` is bit `i` of input byte `j` (R65). -/
theorem transposeLane_bit (b : Block) (i : Nat) (j : Fin 8) :
    (transposeLane b i).getLsbD j.val = (b.get j).getLsbD i := by
  have hfin : List.finRange 8 = [0, 1, 2, 3, 4, 5, 6, 7] := by decide
  unfold transposeLane
  rw [hfin]
  fin_cases j <;> simp

theorem transpose_get (b : Block) (i : Fin 8) : (transpose b).get i = transposeLane b i.val := by
  simp only [transpose, Vector.get_eq_getElem, Vector.getElem_ofFn]

/-- Byte `m` of a packed word (R47). -/
theorem wordByte_packWord (b0 b1 b2 b3 : Byte) :
    wordByte (packWord b0 b1 b2 b3) 0 = b0 ∧ wordByte (packWord b0 b1 b2 b3) 1 = b1 ∧
    wordByte (packWord b0 b1 b2 b3) 2 = b2 ∧ wordByte (packWord b0 b1 b2 b3) 3 = b3 := by
  unfold wordByte packWord
  refine ⟨?_, ?_, ?_, ?_⟩ <;>
  · refine BitVec.eq_of_getLsbD_eq fun i hi => ?_
    simp only [BitVec.getLsbD_extractLsb', BitVec.getLsbD_append, hi, decide_true, Bool.true_and]
    split_ifs <;> first | omega | (congr 1; omega)

/-- A word is its four bytes packed (R47). -/
theorem packWord_wordByte (w : Word) : packWord (wordByte w 0) (wordByte w 1) (wordByte w 2) (wordByte w 3) = w := by
  unfold wordByte packWord
  refine BitVec.eq_of_getLsbD_eq fun i hi => ?_
  simp only [BitVec.getLsbD_extractLsb', BitVec.getLsbD_append]
  split_ifs <;> (rw [decide_eq_true (by omega), Bool.true_and]; congr 1; omega)

/-- The block read back from the words it was packed into (R31, R47). -/
theorem xBlock_pack (b : Block) : xBlock (xWord0 b) (xWord1 b) = b := by
  obtain ⟨h0, h1, h2, h3⟩ := wordByte_packWord b[0] b[1] b[2] b[3]
  obtain ⟨h4, h5, h6, h7⟩ := wordByte_packWord b[4] b[5] b[6] b[7]
  refine Vector.ext fun i hi => ?_
  simp only [xBlock, Vector.getElem_ofFn, xWord0, xWord1]
  interval_cases i <;> simp [*]

/-- The words read back from the block they hold (R31, R47). -/
theorem pack_xBlock (x0 x1 : Word) : xWord0 (xBlock x0 x1) = x0 ∧ xWord1 (xBlock x0 x1) = x1 := by
  constructor
  · simpa [xWord0, xBlock] using packWord_wordByte x0
  · simpa [xWord1, xBlock] using packWord_wordByte x1

end Sys2Proof.Machine
end

