-- ==== Sys2Proof/Tests/Slice0.lean ====
section
/-! SUPPORT. Tests on fixed values, taken from 95_test_vectors.md (cited by its ids) or worked out by hand from the
rule cited; and for each obligation with hypotheses a witness: a state and operands that meet them. -/

namespace Sys2Proof.Tests

open Sys2Proof.Machine

/-! ### Ill-formed terms, which the checks refuse (R7, R17, R48, R56, R58) -/

theorem test_reserved_field_refused : rsvClear 0x00000102#32 = false := by decide
theorem test_undefined_op_refused : opDefined 0x00000000#32 = false ∧ opDefined 0x00000008#32 = false := by decide
theorem test_illegal_word_refused : wordWf 0x00000102#32 = false ∧ wordWf 0x000000FF#32 = false := by decide
theorem test_narrow_access_refused : accessWf 16 0x004 = false ∧ accessWf 32 0x002 = false := by decide
theorem test_offset_beyond_space_refused : offsetInSpace 0x1000 = false := by decide
theorem test_parameters_refused :
    Params.wf ⟨0, 8, 64, 30⟩ = false ∧ Params.wf ⟨65, 8, 64, 30⟩ = false ∧ Params.wf ⟨2, 0, 64, 30⟩ = false ∧
    Params.wf ⟨2, 2 ^ 29 + 1, 64, 30⟩ = false ∧ Params.wf ⟨2, 8, 2 ^ 32, 30⟩ = false ∧
    Params.wf ⟨2, 8, 64, 32⟩ = false := by decide

/-! ### Command words, written out bit by bit: CMD[31:8] = 0, then OP (R56, R57) -/

theorem test_decode_init : decode 0b000000000000000000000000_00000001#32 = .ok .init := by decide
theorem test_decode_split : decode 0b000000000000000000000000_00000010#32 = .ok .split := by decide
theorem test_decode_unsplit : decode 0b000000000000000000000000_00000011#32 = .ok .unsplit := by decide
theorem test_decode_clear : decode 0b000000000000000000000000_00000100#32 = .ok .clear := by decide
theorem test_decode_clearAndClose : decode 0b000000000000000000000000_00000101#32 = .ok .clearAndClose := by decide
theorem test_decode_reseed : decode 0b000000000000000000000000_00000110#32 = .ok .reseed := by decide
theorem test_decode_transpose : decode 0b000000000000000000000000_00000111#32 = .ok .transpose := by decide
/-- X1, X2 and X3. -/
theorem test_decode_refuses : decode 0x00000000#32 = .error .undefinedOpcode ∧
    decode 0x00000008#32 = .error .undefinedOpcode ∧ decode 0x00000102#32 = .error .reservedBits := by decide

/-! ### States to test on -/

/-- A platform with room for the vectors: two key words, planes of 8 bytes, 64 bytes of OB. -/
def platform : Params := ⟨2, 8, 64, 30⟩

/-- The oracle ROT at n = 0, 1, 2, for empty keys: K1, K2, K3. -/
def rot : List OracleAnswer := [⟨[], [], 0, 0xFAC688#24⟩, ⟨[], [], 1, 0x1F58D1#24⟩, ⟨[], [], 2, 0x23EB1A#24⟩]

/-- An oracle that answers at n = 0 with K7, which is no permutation. -/
def notPermutation : List OracleAnswer := [⟨[], [], 0, 0x000000#24⟩]

/-- The unit in a lifecycle state with its planes provisioned. -/
def unitIn (st : Lifecycle) : State :=
  { State.resetWith platform with lifecycle := st, planeProv := 0xFF#8, oraclePins := rot }

/-- A READY unit whose host offers these bytes. -/
def offered (ib : List Byte) (inLen : Nat) : State :=
  { unitIn .ready with ib := ib, inLen := BitVec.ofNat 32 inLen }

/-- The host does these things next. -/
def events (es : List Input) (s : State) : State := { s with inputs := es }

/-- The command is running and has not completed. -/
def running (i : Instr) (stalled : Bool) (s : State) : State :=
  { s.accept (encode i) with seq := some { s.latch (encode i) with stalled := stalled } }

/-- The input of S1. -/
def bytes10 : List Byte := [0x01, 0x02, 0x03, 0x04, 0x05, 0x06, 0x07, 0x08, 0x09, 0x0A]

/-- The OB of S1. -/
def s1Stream : List Byte :=
  [0xAA, 0xFD, 0x00, 0x02, 0x55, 0xFC, 0x99, 0x00, 0x1E, 0x00, 0xE0, 0xFC, 0x00, 0x00, 0x00, 0xFC, 0x00]

/-- STATUS after a step, where there is a next state. -/
def statusAfter (o : Host.Outcome State Fault Refusal) : Option Word :=
  match o with
  | .next t => some t.statusWord
  | _ => none

/-- The output bytes, OUT_LEN, SCHED_CNT, HDR and PROGRESS after a pass. -/
def passResult (o : Host.Outcome State Fault Refusal) : Option (List Byte × List Word) :=
  match o with
  | .next t => some ((List.range t.outLen.toNat).map t.ob.read, [t.outLen, t.schedCnt, t.hdr.word, t.progress.word])
  | _ => none

/-! ### One step of each command -/

/-- L1. -/
theorem test_init : statusAfter (exec .init (unitIn .uninit)) = some 0x00000009#32 := by decide
/-- L2: 7 of the 8 planes are provisioned. -/
theorem test_init_planes_missing :
    statusAfter (exec .init { unitIn .uninit with planeProv := 0x7F#8 }) = some 0x00000208#32 := by decide
/-- S1, its draws given. -/
theorem test_split :
    (match (State.splitPass true (splitSize 10) bytes10 0x15#8 (fun _ => 0xA5#8) (offered bytes10 10)) with
      | .ok t => passResult (.next t)
      | .error _ => none) =
    some (s1Stream, [0x11#32, 0x2#32, 0x000201AA#32, 0x264#32]) := by decide +kernel
/-- X5: `need` is 2^32 + 1, which must not wrap. -/
theorem test_split_capacity : statusAfter (exec .split (offered [] 0xFFFFFFFF)) = some 0x0000090B#32 := by
  decide +kernel
/-- U1. -/
theorem test_unsplit : passResult (exec .unsplit (offered s1Stream 17)) =
    some (bytes10, [0x0A#32, 0x2#32, 0x000201AA#32, 0x0#32]) := by decide +kernel
/-- M3: a header's remainder without all of its planes, and a byte that is never read. -/
theorem test_unsplit_short_stream :
    passResult (exec .unsplit (offered [0x03, 0x01, 0x02, 0x03, 0x04, 0x05, 0x06, 0x07, 0x08, 0x09] 10)) =
    some ([0x55, 0x66, 0x78], [0x3#32, 0x1#32, 0x00030103#32, 0x0#32]) := by decide +kernel
/-- L9: in zero mode every plane byte reads 0 afterwards. -/
theorem test_clear :
    (match exec .clear { unitIn .ready with n := 2, xdata0 := 5#32, pm := ⟨[(3, 7#8)], .afterReset 0⟩ } with
      | .next t => some (t.statusWord, t.n, t.xdata0, t.readPM 0 3)
      | _ => none) = some (0x0000000A#32, 0, 0#32, 0#8) := by decide
/-- L13. -/
theorem test_clear_released :
    statusAfter (exec .clear { unitIn .closed with planeProv := 0#8 }) = some 0x0000040A#32 := by decide
/-- L12. -/
theorem test_clearAndClose :
    (match exec .clearAndClose (unitIn .closed) with
      | .next t => some (t.statusWord, t.planeProv, t.rel)
      | _ => none) = some (0x0000000A#32, 0#8, 1) := by decide
/-- R118, the state check. -/
theorem test_clearAndClose_uninit :
    statusAfter (exec .clearAndClose (unitIn .uninit)) = some 0x00000108#32 := by decide
/-- L5. -/
theorem test_reseed :
    (match exec .reseed { unitIn .ready with n := 2 } with
      | .next t => some (t.statusWord, t.schedCnt)
      | _ => none) = some (0x00000009#32, 0#32) := by decide
/-- L7. -/
theorem test_reseed_closed : statusAfter (exec .reseed (unitIn .closed)) = some 0x0000070A#32 := by decide
/-- T10, straight after reset, through the step. -/
theorem test_transpose_from_reset :
    (match step (State.withFetchWord { State.reset with xdata0 := 0x04030201#32, xdata1 := 0x08070605#32 } 32 7) with
      | .next t => some (t.xdata0, t.xdata1, t.statusWord)
      | _ => none) = some (0x80786655#32, 0#32, 0x8#32) := by decide
/-- T7: one bit moves from the last place of the first byte to the first place of the last. -/
theorem test_transpose_corner :
    transpose #v[0x80#8, 0#8, 0#8, 0#8, 0#8, 0#8, 0#8, 0#8] = #v[0#8, 0#8, 0#8, 0#8, 0#8, 0#8, 0#8, 0x01#8] := by decide

/-! ### The host's side -/

/-- Q2 to Q6: IRQ by CONFIG and STATUS. -/
theorem test_irq :
    let s := State.resetWith platform
    State.irq { s with ctl := ⟨false, false, true, false⟩, done := true } = true ∧
    State.irq { s with ctl := ⟨false, false, false, true⟩, done := true } = false ∧
    State.irq { s with ctl := ⟨false, false, false, true⟩, done := true, err := .truncatedRead } = true ∧
    State.irq { s with ctl := ⟨false, false, false, true⟩, ovr := true } = true ∧
    State.irq { s with ctl := ⟨false, false, true, true⟩, err := .truncatedRead } = false := by decide
/-- G1: the reports of a SPLIT of 10 bytes. -/
theorem test_progress_reports :
    (match (State.splitPass true (splitSize 10) bytes10 0#8 (fun _ => 0#8) (offered bytes10 10)) with
      | .ok t => t.progEv.map Progress.word
      | .error _ => []) =
    [0x1B2#32, 0x164#32, 0x28C#32, 0x299#32, 0x2A5#32, 0x2B2#32, 0x2BE#32, 0x2CB#32, 0x2D7#32, 0x264#32] := by
  decide +kernel
/-- P1, line 2: the writes LDKEY1 expands to. -/
theorem test_ldkey_expands : hostProgram [.ldKey1 [0x01, 0x02, 0x03, 0x04, 0x05]] =
    [.write 32 0x02C 0x00000005#32, .write 32 0x100 0x04030201#32, .write 32 0x104 0x00000005#32] := by decide
/-- R160: a reset that abandons a pass leaves its plane bytes to be wiped; one between commands does not. -/
theorem test_reset_abandons_pass :
    (running .split false (offered bytes10 10)).resetEvent.wipedForReset = false ∧
    (running .transpose false (unitIn .ready)).resetEvent.wipedForReset = true ∧
    (offered bytes10 10).resetEvent.wipedForReset = true := by decide
/-- R26: a key length above KEY_MAX is stored as KEY_MAX. -/
theorem test_key_length_saturates : legalKeyLen platform 9#32 = 8#32 := by decide
/-- K9: 0 is missing and 1 repeats. -/
theorem test_token_repeats : tokenValid (tokenOf 0xFAC689#24) = false := by decide

/-! ### Witnesses: the hypotheses of each obligation can be met together -/

theorem witness_illegalWord (w : Word) : (events [.write 32 0x000 w] (unitIn .ready)).seq = none ∧
    (events [.write 32 0x000 w] (unitIn .ready)).inputs = .write 32 0x000 w :: [] := ⟨rfl, rfl⟩
theorem witness_illegalWord_kinds :
    (0x00#32).extractLsb' 0 8 = 0#8 ∧ 8 ≤ ((0x08#32).extractLsb' 0 8).toNat ∧ (0x100#32).extractLsb' 8 24 ≠ 0#24 ∧
    ¬((0x07#32).extractLsb' 0 8 = 0#8 ∨ 8 ≤ ((0x07#32).extractLsb' 0 8).toNat ∨
      (0x07#32).extractLsb' 8 24 ≠ 0#24) := by decide
theorem witness_stepRunsTheDecodedCommand :
    (events [.write 32 0x000 7#32] (unitIn .ready)).nextWord = some 7#32 ∧
    (events [.complete] (running .split false (unitIn .ready))).nextWord = some 2#32 ∧
    (events [.wait] (running .split false (unitIn .ready))).nextWord = some 2#32 ∧
    decode 7#32 = .ok .transpose ∧ decode 2#32 = .ok .split := by decide
theorem witness_heldCommand :
    (events [.start (encode .split) false, .complete] (offered bytes10 10)).seq = none ∧
    (events [.start (encode .split) false, .complete] (offered bytes10 10)).inputs =
      .start (encode .split) false :: .complete :: [] := by decide
theorem witness_stalledCommand : ∃ q t, (running .split true (offered bytes10 10)).seq = some q ∧ q.stalled = true ∧
    step (events [.write 32 0x000 1#32] (running .split true (offered bytes10 10))) = .next t :=
  ⟨_, _, rfl, rfl, rfl⟩
/-- The hypotheses of ReseedCompletes, PassesAndReseedNeedReady and PassesWipeTheBlock. -/
theorem witness_lifecycles : (unitIn .uninit).lifecycle = .uninit ∧ (unitIn .ready).lifecycle = .ready ∧
    (unitIn .closed).lifecycle = .closed ∧ (unitIn .failed).lifecycle = .failed := by decide
theorem witness_schedulePosition :
    (∃ t, step (events [.write 32 0x000 6#32] { unitIn .ready with n := 2 }) = .next t ∧ t.n ≠ 2) ∧
    (∃ t, step (events [.write 32 0x000 2#32] (offered bytes10 10)) = .next t ∧ t.n ≠ 0) :=
  ⟨⟨_, rfl, by decide⟩, ⟨_, rfl, by decide +kernel⟩⟩
theorem witness_lifecycleTable :
    (∀ st ∈ [Lifecycle.uninit, .ready, .closed, .failed], (unitIn st).StorageFollowsState) ∧
    State.StorageFollowsState { unitIn .closed with planeProv := 0#8 } ∧ ∀ i, decode 0x102#32 ≠ .ok i := by
  unfold State.StorageFollowsState
  exact ⟨by decide, by decide, fun i => by cases i <;> decide⟩
theorem witness_initCompletes : (unitIn .uninit).planeProv = 0xFF#8 ∧ (unitIn .ready).lifecycle ≠ .uninit ∧
    State.lifecycle { unitIn .uninit with planeProv := 0x7F#8 } = .uninit ∧ (0x7F#8 : BitVec 8) ≠ 0xFF#8 := by decide
/-- The hypotheses of ClearCompletes and ClearAndCloseCompletes too. -/
theorem witness_clearCompletes : ∀ st ∈ [Lifecycle.ready, .closed, .failed], (unitIn st).seq = none ∧
    (unitIn st).lifecycle ≠ .uninit ∧ (unitIn st).planeProv = 0xFF#8 ∧ (unitIn st).ctl.wipeRandom = false := by decide
theorem witness_clearRefusals : State.lifecycle { unitIn .closed with planeProv := 0#8 } ≠ .uninit ∧
    State.planeProv { unitIn .closed with planeProv := 0#8 } ≠ 0xFF#8 := by decide
theorem witness_clearIsIdempotent : ∃ t, exec .clear (unitIn .ready) = .next t := ⟨_, rfl⟩
theorem witness_clearForgetsSecrets :
    State.unwiped { unitIn .ready with key1 := [1#8], n := 5, xdata0 := 9#32 } = (unitIn .ready).unwiped ∧
    State.lifecycle { unitIn .ready with key1 := [1#8], n := 5, xdata0 := 9#32 } ≠ .uninit ∧
    State.planeProv { unitIn .ready with key1 := [1#8], n := 5, xdata0 := 9#32 } = 0xFF#8 := ⟨rfl, by decide, rfl⟩
theorem witness_closedAndFailedExits :
    (∃ t, step (events [.write 32 0x000 4#32] (unitIn .failed)) = .next t ∧ t.lifecycle = .closed) ∧
    (∃ t, step (events [.write 32 0x000 2#32] (unitIn .closed)) = .next t ∧ t.lifecycle = .closed) ∧
    (∃ t, step (events [.write 32 0x000 2#32] (unitIn .failed)) = .next t ∧ t.lifecycle = .failed) ∧
    ∃ t, step (events [.reset] (unitIn .failed)) = .next t ∧ t.lifecycle = .uninit :=
  ⟨⟨_, rfl, rfl⟩, ⟨_, rfl, rfl⟩, ⟨_, rfl, rfl⟩, ⟨_, rfl, rfl⟩⟩
theorem witness_checkErrors : ∃ t, State.runWord 0x102#32 (unitIn .ready) = .next t ∧ t.err = .illegalCommand :=
  ⟨_, rfl, rfl⟩
/-- X8 and M1. -/
theorem witness_passErrorLeaves :
    (∃ t, exec .split (offered [1, 2, 3, 4, 5] 10) = .next t ∧ t.err ≠ .noError) ∧
    (∃ t, exec .unsplit (offered [5] 1) = .next t ∧ t.err ≠ .noError) ∧
    (offered [5] 1).seq = none ∧ (offered [5] 1).lifecycle = .ready :=
  ⟨⟨_, rfl, by decide +kernel⟩, ⟨_, rfl, by decide +kernel⟩, rfl, rfl⟩
/-- X7, X6, X8 (block 1) and X11 (block 0). -/
theorem witness_splitFirstErrorWins :
    (16 < (splitSize 9).out ∧ 1 < (splitSize 9).planes) ∧
    ((splitSize 10).planes ≤ platform.planeCap ∧ (splitSize 10).out ≤ platform.outCap ∧ 1 < (splitSize 10).planes ∧
      splitReadThrough 10 0 ≤ 5 ∧ tokenValid ((offered [1, 2, 3, 4, 5] 10).tokenAt 0) = true ∧
      5 < splitReadThrough 10 1) ∧
    (splitReadThrough 8 0 ≤ 8 ∧
      tokenValid (State.tokenAt { offered bytes10 8 with oraclePins := notPermutation } 0) = false) := by decide
/-- X13, X15, X16, X17, and M1 with either kind of token. -/
theorem witness_unsplitFirstErrorWins :
    unsplitHeaderByte 9 [] = none ∧
    (unsplitHeaderByte 17 s1Stream = some 0xAA#8 ∧ 9 < (unsplitSize 17 (headerRem 0xAA#8)).out) ∧
    (unsplitHeaderByte 17 (s1Stream.take 10) = some 0xAA#8 ∧ 10 < 1 + 8 * (unsplitSize 17 2).planes) ∧
    (0 < (unsplitSize 17 2).planes ∧
      tokenValid (State.tokenAt { offered s1Stream 17 with oraclePins := notPermutation } 0) = false) ∧
    (unsplitHeaderByte 1 [5#8] = some 5#8 ∧ (unsplitSize 1 (headerRem 5#8)).rem ≠ 0 ∧
      (unsplitSize 1 5).planes = 0 ∧ tokenValid ((offered [5#8] 1).tokenAt 0) = true ∧
      tokenValid (State.tokenAt { offered [5#8] 1 with oraclePins := notPermutation } 0) = false) := by decide
theorem splitRuns_of_bytes10 : SplitRuns (offered bytes10 10) :=
  ⟨rfl, rfl, by decide, by decide, by decide, by unfold State.tokensValid; decide⟩
/-- S3: a SPLIT of nothing; and S6, without a remainder. -/
theorem witness_splitCompletes : SplitRuns (offered bytes10 0) ∧ SplitRuns (offered bytes10 8) :=
  ⟨⟨rfl, rfl, by decide, by decide, by decide, by unfold State.tokensValid; decide⟩,
    ⟨rfl, rfl, by decide, by decide, by decide, by unfold State.tokensValid; decide⟩⟩
theorem witness_splitLeavesEqualPlanes : ∃ t, exec .split (offered bytes10 10) = .next t ∧ t.err = .noError ∧
    platform.wf = true := ⟨_, rfl, by decide +kernel, rfl⟩
theorem witness_splitReadsOnlyBelowInLen : [1#8, 2#8, 9#8].take (offered [1#8, 2#8] 2).inLen.toNat =
    (offered [1#8, 2#8] 2).ib.take (offered [1#8, 2#8] 2).inLen.toNat := by decide
theorem witness_unsplitCompletes : UnsplitRuns (offered s1Stream 17) 0xAA#8 ∧ UnsplitRuns (offered [] 0) 0#8 ∧
    UnsplitRuns (offered [8] 1) 8#8 :=
  ⟨⟨rfl, rfl, by decide, by decide, by decide, by decide, by decide, by unfold State.tokensValid; decide⟩,
    ⟨rfl, rfl, by decide, by decide, by decide, by decide, by decide, by unfold State.tokensValid; decide⟩,
    ⟨rfl, rfl, by decide, by decide, by decide, by decide, by decide, by unfold State.tokensValid; decide⟩⟩
/-- M5. -/
theorem witness_unsplitIgnoresHeaderNoise : (offered s1Stream 17).inLen.toNat % 8 ≠ 0 ∧
    (offered s1Stream 17).ib = 0xAA#8 :: s1Stream.tail ∧ headerRem 0x52#8 = headerRem 0xAA#8 := by decide
/-- M3: bytes beyond the header and the planes differ. -/
theorem witness_unsplitReadsOnlyThePlanes :
    [3#8, 1, 2, 3, 4, 5, 6, 7, 8, 0].take (unsplitHeader 10 + 8 * ((10 - unsplitHeader 10) / 8)) =
    [3#8, 1, 2, 3, 4, 5, 6, 7, 8, 9].take (unsplitHeader 10 + 8 * ((10 - unsplitHeader 10) / 8)) := by decide
/-- S1 then U1, for whatever the draws are: the second unit is offered the bytes that the first wrote. -/
theorem witness_unsplitUndoesSplit : ∃ t u, exec .split (offered bytes10 10) = .next t ∧ t.err = .noError ∧
    u = offered ((List.range 17).map t.ob.read) 17 ∧ u.seq = none ∧ u.lifecycle = .ready ∧
    u.keyBytes1 = (offered bytes10 10).keyBytes1 ∧ u.keyBytes2 = (offered bytes10 10).keyBytes2 ∧
    u.oraclePins = rot ∧ u.n = 0 ∧ u.inLen.toNat = (splitSize 10).out ∧ u.inLen.toNat ≤ u.ib.length ∧
    (∀ a < u.inLen.toNat, u.ib[a]? = some (t.ob.read a)) ∧ (splitSize 10).planes ≤ u.params.planeCap ∧
    10 ≤ u.params.outCap := by
  refine ⟨_, _, rfl, by decide +kernel, rfl, rfl, rfl, rfl, rfl, rfl, rfl, rfl, ?_, fun a ha => ?_, by decide, by decide⟩
  · show 17 ≤ (List.map _ (List.range 17)).length
    simp
  · have h : a < 17 := ha
    show (List.map _ (List.range 17))[a]? = _
    simp [h]
theorem witness_registerWrites : (∀ off ∈ [0x008, 0x00C, 0x024, 0x034, 0x038, 0x03C, 0x010, 0x040, 0x028, 0x02C, 0x030],
    (events [.write 32 off 0xFFFFFFFF#32] (unitIn .uninit)).inputs = .write 32 off 0xFFFFFFFF#32 :: [] ∧
    (events [.write 32 off 0xFFFFFFFF#32] (unitIn .uninit)).seq = none ∧
    (events [.write 32 off 0xFFFFFFFF#32] (unitIn .uninit)).lifecycle = .uninit) ∧ platform.wf = true := by decide
/-- Key words 0 and 1 of either key: the first and the last that this platform has. -/
theorem witness_keyWordWrites : ∀ i ∈ [0, 1], i < platform.keyWords ∧ (unitIn .uninit).KeysFit ∧
    (events [.write 32 (0x200 + 4 * i) 0x04030201#32] (unitIn .uninit)).inputs =
      .write 32 (0x200 + 4 * i) 0x04030201#32 :: [] ∧
    (events [.write 32 (0x100 + 4 * i) 0x04030201#32] (unitIn .uninit)).inputs =
      .write 32 (0x100 + 4 * i) 0x04030201#32 :: [] := by unfold State.KeysFit; decide
theorem witness_reads : ∀ off ∈ [0x000, 0x004, 0x008, 0x00C, 0x010, 0x014, 0x018, 0x01C, 0x020, 0x024, 0x028, 0x02C, 0x030,
    0x034, 0x038, 0x03C, 0x040, 0x044, 0xFFC],
    (events [.read 32 off] (unitIn .ready)).inputs = .read 32 off :: [] ∧ off % 4 = 0 ∧ off < 0x1000 := by decide
theorem witness_reservedOffsets : ∀ off ∈ [0x044, 0x0FC, 0x300, 0xFFC, 0x108, 0x1FC, 0x208, 0x2FC],
    off % 4 = 0 ∧ off < 0x1000 ∧
    ((0x040 < off ∧ off < 0x100) ∨ 0x300 ≤ off ∨ (0x100 + 4 * platform.keyWords ≤ off ∧ off < 0x200) ∨
      (0x200 + 4 * platform.keyWords ≤ off ∧ off < 0x300)) := by decide
theorem witness_keyWindowReads : ∀ off ∈ [0x100, 0x104, 0x1FC, 0x200, 0x204, 0x2FC],
    (events [.read 32 off] (unitIn .uninit)).inputs = .read 32 off :: [] ∧ off % 4 = 0 ∧ off < 0x1000 ∧
    0x100 ≤ off ∧ off ≤ 0x2FC := by decide
theorem witness_loadKey : ∀ bytes ∈ [[], [1#8, 2, 3, 4, 5], [1#8, 2, 3, 4, 5, 6, 7, 8]],
    bytes.length ≤ platform.keyMax ∧ (State.resetWith platform).KeysFit ∧
    (events (hostProgram [.ldKey2 bytes]) (State.resetWith platform)).inputs = hostProgram [.ldKey2 bytes] ++ [] := by
  unfold State.KeysFit; decide
theorem witness_keysFreeze : (unitIn .ready).lifecycle ≠ .uninit ∧ ∀ off ∈ [0x100, 0x2FC],
    off % 4 = 0 ∧ 0x100 ≤ off ∧ off < 0x300 := by decide
theorem witness_keysChange :
    ∃ t, step (events [.write 32 0x000 4#32] { unitIn .ready with key1 := [1#8], key1Len := 1#32 }) = .next t ∧
      t.key1 ≠ [1#8] := ⟨_, rfl, by decide⟩
theorem witness_busyWrites : (running .split false (unitIn .ready)).seq.isSome ∧
    ∃ t, step (events [.write 32 0x004 0x8#32] { unitIn .ready with ovr := true }) = .next t ∧ t.ovr = true :=
  ⟨rfl, _, rfl, rfl⟩
theorem witness_acknowledge : (events [.write 32 0x004 0x18#32] (unitIn .ready)).inputs = .write 32 0x004 0x18#32 :: [] ∧
    (events [.start (encode .init) true] (unitIn .ready)).inputs = .start (encode .init) true :: [] := by decide
theorem witness_debugWindow : ∀ p ∈ [(0, 0), (1, 1), (7, 2 ^ 29 - 1)], p.1 < 8 ∧ p.2 < 2 ^ 29 ∧
    State.dbgAddr { unitIn .ready with dbgAddr := BitVec.ofNat 32 (p.1 * 2 ^ 29 + p.2) } =
      BitVec.ofNat 32 (p.1 * 2 ^ 29 + p.2) := by decide
theorem witness_badAccesses : platform.outCap ≤ 64 ∧
    (events [.writeOB 64 1#8] (unitIn .ready)).inputs = .writeOB 64 1#8 :: [] ∧
    (events [.read 32 0x1000] (unitIn .ready)).inputs = .read 32 0x1000 :: [] ∧
    (events [.write 16 0x000 1#32] (unitIn .ready)).inputs = .write 16 0x000 1#32 :: [] ∧
    (events [.read 32 0x002] (unitIn .ready)).inputs = .read 32 0x002 :: [] := by decide
/-- The first and the last byte of OB, while a command runs and while none does. -/
theorem witness_hostStreams : 0 < platform.outCap ∧ 63 < platform.outCap ∧ (unitIn .ready).seq = none ∧
    (running .split false (unitIn .ready)).seq ≠ none ∧
    (events [.setIB bytes10] (running .split false (unitIn .ready))).inputs = .setIB bytes10 :: [] ∧
    (events [.writeOB 63 1#8] (running .split false (unitIn .ready))).inputs = .writeOB 63 1#8 :: [] ∧
    (events [.readOB 63] (running .split false (unitIn .ready))).inputs = .readOB 63 :: [] := by decide
/-- A SPLIT and an UNSPLIT, during each of which the host fills IB and writes the first and the last byte of OB. -/
theorem witness_races :
    let es := [.setIB [9#8], .writeOB 0 7#8, .setIB bytes10, .writeOB 63 8#8]
    (∀ e ∈ es, e.races platform) ∧ (offered bytes10 10).seq = none ∧ (offered s1Stream 17).lifecycle = .ready ∧
    (events (.start (encode .split) false :: (es ++ .complete :: [])) (offered bytes10 10)).inputs =
      .start (encode .split) false :: (es ++ .complete :: []) ∧
    (events (.start (encode .unsplit) false :: (es ++ .complete :: [])) (offered s1Stream 17)).inputs =
      .start (encode .unsplit) false :: (es ++ .complete :: []) :=
  ⟨by simp [Input.races, platform], rfl, rfl, rfl, rfl⟩
/-- A reset between commands, and one while each kind of command runs, an UNSPLIT with and without its header byte. -/
theorem witness_resetEvent :
    (events [.reset] (running .split false (unitIn .ready))).inputs = .reset :: [] ∧ (unitIn .ready).seq = none ∧
    (running .init false (unitIn .uninit)).lifecycle ≠ .ready ∧
    (∀ i ∈ [Instr.split, .unsplit, .reseed], ∃ q, (running i false (unitIn .ready)).seq = some q ∧
      decode q.word = .ok i) ∧
    unsplitHeaderByte 17 s1Stream = some 0xAA#8 ∧ unsplitHeaderByte 17 [] = none ∧ platform.outCap ≤ 64 := by
  refine ⟨rfl, rfl, by decide, fun i hi => ⟨_, rfl, ?_⟩, by decide, by decide, by decide⟩
  simp only [List.mem_cons, List.not_mem_nil, or_false] at hi
  rcases hi with rfl | rfl | rfl <;> rfl
/-- A READY unit that has held a plane byte and an OB byte takes a step, as the invariants on states and steps ask. -/
theorem witness_invariants :
    let s := events [.write 32 0x000 7#32]
      { unitIn .ready with pm := ⟨[(0, 1#8)], .afterReset 0⟩, ob := ⟨[(3, 2#8)], .ofHost⟩, residue := true }
    s.MemoriesCanonical ∧ s.CellsExist ∧ s.Quiet ∧ s.StorageFollowsState ∧ s.KeysFit ∧ s.PercentLegal ∧
    s.ClosedIsClean ∧ s.ResidueIsMarked ∧ s.PlanesEqual ∧ s.PlanesFit ∧ ∃ t, step s = .next t := by
  refine ⟨by unfold State.MemoriesCanonical; decide, ⟨?_, by decide⟩, by unfold State.Quiet; decide,
    by unfold State.StorageFollowsState; decide, by unfold State.KeysFit; decide, by unfold State.PercentLegal; decide,
    fun h => absurd h (by decide), fun h => absurd h (by decide), fun _ => by decide,
    by unfold State.PlanesFit; decide, _, rfl⟩
  intro c hc
  obtain rfl : c = (0, 1#8) := by simpa [events] using hc
  exact ⟨0, 0, by decide, by decide, rfl⟩
/-- A closed unit and a running one take a step too. -/
theorem witness_invariants_closed_busy :
    (∃ t, step (events [.write 32 0x000 2#32] { unitIn .closed with pm := ⟨[], .zero⟩ }) = .next t) ∧
    State.ClosedIsClean { unitIn .closed with pm := ⟨[], .zero⟩ } ∧
    State.ResidueIsMarked { unitIn .closed with pm := ⟨[], .zero⟩ } ∧
    (running .split false (unitIn .ready)).BusyAsAccepted ∧
    ∃ t, step (events [.complete] (running .split false (unitIn .ready))) = .next t := by
  refine ⟨⟨_, rfl⟩, fun _ => ⟨by decide, by decide, rfl, rfl, rfl, rfl, rfl, rfl, rfl, rfl, rfl, .inl rfl⟩, fun _ => rfl, ?_, _, rfl⟩
  intro q hq
  obtain rfl := Option.some.inj hq
  exact ⟨rfl, rfl, rfl, rfl, .split, rfl⟩

end Sys2Proof.Tests
end

section
/-! The scope (00_scope.md): a command seen apart at acceptance and completion (R12, log 9). -/

namespace Sys2Proof.Machine

/-! ### Acceptance of a command that is already accepted -/

/-- The sequencer of an accepted command is the one latched at its acceptance (R36). -/
@[simp] theorem State.latch_accept (s : State) (w w' : Word) : (s.accept w).latch w' = s.latch w := rfl

/-- Acceptance latches once: a running command keeps what it latched (R36). -/
@[simp] theorem State.accept_accept (s : State) (w w' : Word) : (s.accept w).accept w' = s.accept w := rfl

/-- A command reads the unit only as its acceptance leaves it, so it may be run from there (R12, R19). -/
theorem exec_accept (i : Instr) (s : State) : exec i (s.accept (encode i)) = exec i s := by
  cases i with
  | init => unfold exec execInit; rw [State.accept_accept]
  | split => simp only [exec, execSplit, State.accept_accept, State.latch_accept]
  | unsplit => simp only [exec, execUnsplit, State.accept_accept, State.latch_accept]
  | clear => simp only [exec, execClear, State.accept_accept, State.latch_accept]
  | clearAndClose => simp only [exec, execClearAndClose, State.accept_accept, State.latch_accept]
  | reseed => simp only [exec, execReseed, State.accept_accept]
  | transpose => simp only [exec, execTranspose, State.accept_accept]

/-! ### The word of a command, run at once or held -/

/-- A command's own word runs the command (R56, R57). -/
theorem State.runWord_encode (s : State) (i : Instr) : s.runWord (encode i) = exec i s := by
  unfold State.runWord; rw [decode_encode]

/-- A start event that the platform answers is acceptance alone (R19). -/
theorem State.startWord_encode {s : State} (h : s.seq = none) (i : Instr) :
    s.startWord (encode i) false = .next (s.accept (encode i)) := by
  unfold State.startWord State.accept
  rw [decode_encode, State.latch_idle h]
  rfl

/-- While BUSY = 0 the step of a start event accepts its command. -/
theorem step_start {s : State} {i : Instr} {rest : List Input} (hs : s.seq = none)
    (hi : s.inputs = .start (encode i) false :: rest) :
    step s = .next (State.accept (encode i) { s with inputs := rest }) := by
  have hb : State.busy { s with inputs := rest } = false := (State.busy_false _).2 hs
  unfold step State.advance
  rw [hi]
  simp only [State.handle, hb, Bool.false_eq_true, if_false]
  exact State.startWord_encode (s := { s with inputs := rest }) hs i

/-- The step of a completion runs the word of the running command (R126). -/
theorem step_complete {s : State} {q : Seq} {rest : List Input} (hq : s.seq = some q) (hst : q.stalled = false)
    (hi : s.inputs = .complete :: rest) : step s = State.runWord q.word { s with inputs := rest } := by
  unfold step State.advance
  rw [hi]
  simp [State.handle, State.completeRunning, hq, hst]

/-- A command accepted while BUSY = 0 is completed from its acceptance (R19, R126). -/
theorem step_complete_accept {s : State} {w : Word} {rest : List Input} (hs : s.seq = none)
    (hi : s.inputs = .complete :: rest) :
    step (s.accept w) = State.runWord w (State.accept w { s with inputs := rest }) := by
  have hq : (s.accept w).seq = some ⟨w, s.inLen, s.ctl, false, [], []⟩ := congrArg some (State.latch_idle hs w)
  rw [step_complete hq rfl hi]
  rfl

/-- While BUSY = 0 the step of a CMD write of a command's word runs the command from acceptance to completion (R12). -/
theorem step_writeCmd {s : State} {i : Instr} {rest : List Input} (hs : s.seq = none)
    (hi : s.inputs = .write 32 0x000 (encode i) :: rest) : step s = exec i { s with inputs := rest } := by
  have hw := State.hostWrite_idle (s := { s with inputs := rest }) hs 0x000 (encode i)
  rw [if_pos ((regAt_eq_cmd 0).2 rfl), State.runWord_encode] at hw
  exact (step_write hi (by decide) (by decide)).trans hw

/-! ### Acceptance and completion apart, against the one step -/

/-- Settles O5: the completion runs the command from its acceptance (`exec_accept`), as the one step does. -/
theorem heldCommandEqualsOneStep : Obligations.HeldCommandEqualsOneStep := by
  intro s i rest hs hi
  refine ⟨State.accept (encode i) { s with inputs := .complete :: rest }, step_start hs hi, rfl, rfl, ?_⟩
  calc step (State.accept (encode i) { s with inputs := .complete :: rest })
      = State.runWord (encode i) (State.accept (encode i) { s with inputs := rest }) :=
        step_complete_accept (s := { s with inputs := .complete :: rest }) hs rfl
    _ = exec i (State.accept (encode i) { s with inputs := rest }) := State.runWord_encode _ i
    _ = exec i { s with inputs := rest } := exec_accept i _
    _ = step { s with inputs := .write 32 0x000 (encode i) :: rest } :=
        (step_writeCmd (s := { s with inputs := .write 32 0x000 (encode i) :: rest }) hs rfl).symm

end Sys2Proof.Machine
end

section
/-! The state (10_state.md): what one step can do to what the unit holds between commands, said once for every
invariant over it. -/

namespace Sys2Proof.Machine

/-! ### What the unit holds between commands -/

/-- The state with its flags, the sequencer, the registers that the host writes in any lifecycle state, the host's streams,
the signals, the counters and the events blanked. What is left is the lifecycle, the plane storage, the keys, the schedule
position, BLK and the positions, the results of passes, and the platform. -/
def State.held (s : State) : State :=
  { s with
    done := false
    ovr := false
    err := .noError
    seq := none
    ctl := Control.zero
    inLen := 0#32
    wipeSeed := 0#32
    xdata0 := 0#32
    xdata1 := 0#32
    dbgAddr := 0#32
    wipes := 0
    ib := []
    ob := ⟨[], .zero⟩
    progEv := []
    rel := 0
    rdata := 0#32
    obData := 0#8
    epoch := 0
    inputs := [] }

theorem State.taken_held (s : State) : s.taken.held = s.held := by
  unfold State.taken
  split <;> rfl

theorem State.hostRead_held (s : State) (off : Nat) : (s.hostRead off).held = s.held := by
  rw [State.hostRead_frame]; rfl

theorem State.hostReadOB_held (s : State) (a : Nat) : (s.hostReadOB a).held = s.held := by
  rw [State.hostReadOB_frame]; rfl

/-! ### Passes that run to their end -/

/-- What SPLIT and UNSPLIT alike leave at the end of a pass of `planes` bytes per plane (R100, R109). -/
structure PassEnded (s : State) (planes : Nat) (t : State) : Prop where
  outside : t.outsidePass = { s with
    lifecycle := .ready, seq := none, done := true, err := .noError, residue := true, epoch := s.epoch + 1 }.outsidePass
  quiet : t.Quiet
  plen : ∀ k, t.plen.get k = planes
  planeLen : t.planeLen.toNat = planes
  fits : planes ≤ s.params.planeCap
  progress : t.progress.percent = 100#7 ∨ t.progress = s.progress

/-- The end of a pass, by what its parts say alike: which fields it leaves, that it is quiet, and its sizes. -/
theorem PassEnded.of_passEnd {s u : State} {w : Word} {q : Seq} {z : PassSize}
    (outside : u.outsidePass = (s.accept w).outsidePass) (quiet : u.Quiet) (plen : u.plen = Vector.replicate 8 z.planes)
    (planeLen : u.planeLen = BitVec.ofNat 32 z.planes) (hP : z.planes ≤ 2 ^ 29) (hfit : z.tooBig s.params = false)
    (progress : u.progress.percent = 100#7 ∨ u.progress = s.progress) :
    PassEnded s z.planes (State.passEnd q z (s.accept w) u) where
  outside := congrArg (fun x : State => { x with
    lifecycle := .ready, seq := none, done := true, err := .noError, residue := true, epoch := s.epoch + 1 }) outside
  quiet := quiet
  plen k := (congrArg (·.get k) plen).trans (get_replicate8 _ k)
  planeLen := by
    change u.planeLen.toNat = _
    rw [planeLen, BitVec.toNat_ofNat]
    exact Nat.mod_eq_of_lt (by omega)
  fits := (PassSize.tooBig_false.1 hfit).1
  progress := progress

/-- PROGRESS after a pass: the last report of its last phase, or untouched where no sink is attached (R102, R110). -/
theorem percent_of_progress {pe : Bool} {phase : Phase} {p p' : Progress}
    (h : p = if pe then ⟨100#7, false, phase⟩ else p') : p.percent = 100#7 ∨ p = p' := by
  cases pe with
  | true => exact .inl (congrArg Progress.percent h)
  | false => exact .inr h

theorem SplitDone.passEnded {s u : State} {pe : Bool} {ib : List Byte} {noise : Byte} {filler : Nat → Byte} {L : Nat}
    {w : Word} {q : Seq} (h : SplitDone (s.accept w) pe ib noise filler L u) (hL : L < 2 ^ 32)
    (hfit : (splitSize L).tooBig s.params = false) :
    PassEnded s (splitSize L).planes (State.passEnd q (splitSize L) (s.accept w) u) :=
  .of_passEnd h.outside h.quiet h.plen h.planeLen (splitSize_planes_le hL) hfit (percent_of_progress h.progress)

theorem UnsplitDone.passEnded {s u : State} {pe : Bool} {ib : List Byte} {z : PassSize} {b : Byte} {w : Word} {q : Seq}
    (h : UnsplitDone (s.accept w) pe ib z b u) (hP : z.planes ≤ 2 ^ 29) (hfit : z.tooBig s.params = false) :
    PassEnded s z.planes (State.passEnd q z (s.accept w) u) :=
  .of_passEnd h.outside h.quiet h.plen h.planeLen hP hfit (percent_of_progress h.progress)

/-! ### Invariants over what the unit holds -/

/-- A predicate on what the unit holds (`held`: it reads nothing else) that every way to change it keeps: a register
write, INIT, RESEED, a wipe, a release, a pass that ends or fails, and reset. -/
structure State.Kept (I : State → Prop) : Prop where
  held : ∀ s : State, I s.held ↔ I s
  written : ∀ {s : State} (r : Reg) (v : Word), I s → I (s.writeReg r v)
  prepared : ∀ {s : State}, s.lifecycle = .uninit → s.planeProv = 0xFF#8 → I s → I (s.prepare.complete .noError .ready)
  reseeded : ∀ {s : State}, s.lifecycle = .ready → I s → I { s with n := 0 }
  cleared : ∀ {s : State} (q : Seq), s.lifecycle ≠ .uninit → s.planeProv = 0xFF#8 → I s →
    I ((s.clearCore q).complete .noError .closed)
  released : ∀ {s : State}, s.lifecycle = .closed → I s → I s.release
  passEnded : ∀ {s t : State} {planes : Nat}, s.lifecycle = .ready → PassEnded s planes t → I s → I t
  passFailed : ∀ {s t : State} {w : Word} {code : ErrCode} {z : PassSize}, s.lifecycle = .ready →
    PassFailed (s.accept w) code z t → I s → I t
  reset : ∀ {s : State}, I s → I s.resetEvent

namespace State.Kept

variable {I : State → Prop}

/-- What leaves all that the unit holds keeps such a predicate. -/
theorem frame (k : Kept I) {s t : State} (e : t.held = s.held) (h : I s) : I t :=
  (k.held t).1 (e ▸ (k.held s).2 h)

/-- Such a predicate is kept by every command. -/
theorem of_executed (k : Kept I) {i : Instr} {s t : State} (e : Executed i s t) (h : I s) : I t := by
  cases e with
  | refused e ht => exact k.frame (by rw [ht]; rfl) h
  | prepared _ hs hp ht => exact ht ▸ k.prepared hs hp h
  | reseeded _ hs ht => exact k.frame (by rw [ht]; rfl) (k.reseeded hs h)
  | cleared _ hs hp ht => exact ht ▸ k.cleared _ hs hp h
  | released _ hs hp ht => exact ht ▸ k.released rfl (k.cleared (s.latch (encode .clearAndClose)) hs hp h)
  | transposed _ ht => exact k.frame (by rw [ht]; rfl) h
  | split _ hs hfit u hu ht => exact ht ▸ k.passEnded hs (hu.passEnded (BitVec.isLt _) hfit) h
  | unsplit _ hs b hfit u hu ht =>
    exact ht ▸ k.passEnded hs (hu.passEnded (unsplitSize_planes_le _ (BitVec.isLt _)) hfit) h
  | passFailed _ hs w code hc z ht => exact k.passFailed hs ht h

/-- Such a predicate is an invariant: every step keeps it. -/
theorem of_step (k : Kept I) {s t : State} (h : I s) (e : step s = .next t) : I t := by
  have hrest : ∀ rest, I { s with inputs := rest } := fun _ => k.frame (s := s) rfl h
  cases step_cases e with
  | still ht => exact ht ▸ h
  | command w _ u hu ht =>
    have hI : I u := k.frame (hu ▸ s.taken_held) h
    rcases ht with ⟨i, -, hx⟩ | ht
    · exact k.of_executed hx hI
    · exact k.frame (by rw [ht]; rfl) hI
  | accepted w b rest _ _ i _ b' ht => exact k.frame (by rw [ht]; rfl) h
  | illegal w b rest _ _ ht => exact k.frame (by rw [ht]; rfl) h
  | wrote off v rest _ _ _ ht => exact ht ▸ k.written _ v (hrest rest)
  | ignored i rest _ _ b ht => exact k.frame (by rw [ht]; rfl) h
  | read off rest _ ht => exact k.frame (by rw [ht, State.hostRead_held]; rfl) h
  | waited rest _ _ ht => exact k.frame (by rw [ht]; rfl) h
  | setIB bytes rest _ ht => exact k.frame (by rw [ht]; rfl) h
  | wroteOB a v rest _ _ ht => exact k.frame (by rw [ht]; rfl) h
  | readOB a rest _ ht => exact k.frame (by rw [ht, State.hostReadOB_held]; rfl) h
  | reset rest _ ht => exact ht ▸ k.reset (hrest rest)

end State.Kept

end Sys2Proof.Machine
end

section
/-! The state (10_state.md): the invariants of what the unit holds (R25, R26, R30, R33 to R35) and of a running command
(R36). -/

namespace Sys2Proof.Machine

/-! ### What a pass leaves -/

/-- The lifecycle, the sequencer, the storage, the parameters and the keys lie outside a pass (R62). -/
theorem State.outsidePass_fields {s t : State} (h : t.outsidePass = s.outsidePass) :
    t.lifecycle = s.lifecycle ∧ t.seq = s.seq ∧ t.planeProv = s.planeProv ∧ t.params = s.params ∧
    t.key1 = s.key1 ∧ t.key2 = s.key2 ∧ t.key1Len = s.key1Len ∧ t.key2Len = s.key2Len := by
  rw [State.eq_of_outsidePass h]
  exact ⟨rfl, rfl, rfl, rfl, rfl, rfl, rfl, rfl⟩

/-- A pass that ends leaves the unit in READY, with its storage and its keys. -/
theorem PassEnded.fields {s t : State} {planes : Nat} (h : PassEnded s planes t) :
    t.lifecycle = .ready ∧ t.seq = none ∧ t.planeProv = s.planeProv ∧ t.params = s.params ∧
    t.key1 = s.key1 ∧ t.key2 = s.key2 ∧ t.key1Len = s.key1Len ∧ t.key2Len = s.key2Len :=
  State.outsidePass_fields h.outside

/-- A pass that fails leaves the unit in FAILED, with its storage and its keys (R134). -/
theorem PassFailed.fields {a t : State} {code : ErrCode} {z : PassSize} (h : PassFailed a code z t) :
    t.lifecycle = .failed ∧ t.seq = none ∧ t.planeProv = a.planeProv ∧ t.params = a.params ∧
    t.key1 = a.key1 ∧ t.key2 = a.key2 ∧ t.key1Len = a.key1Len ∧ t.key2Len = a.key2Len :=
  State.outsidePass_fields h.outside

/-! ### The block and the positions (R34, R35) -/

theorem State.quiet_kept : State.Kept State.Quiet where
  held _ := .rfl
  written r v h := by rw [State.writeReg_frame]; exact h
  prepared := fun _ _ ⟨hblk, hipos, hopos, _⟩ => ⟨hblk, hipos, hopos, rfl⟩
  reseeded _ h := h
  cleared := fun _ _ _ ⟨_, hipos, hopos, _⟩ => ⟨rfl, hipos, hopos, rfl⟩
  released _ h := h
  passEnded _ he _ := he.quiet
  passFailed _ hf _ := hf.quiet
  reset _ := ⟨rfl, rfl, rfl, rfl⟩

/-- Settles O54: a pass ends quiet, with or without error, and nothing else moves BLK or a position but to zero. -/
theorem nothingInFlightBetweenCommands : Obligations.NothingInFlightBetweenCommands :=
  fun _ _ => State.quiet_kept.of_step

/-! ### Plane storage (R30, R89) -/

theorem State.writeReg_lifecycle (s : State) (r : Reg) (v : Word) : (s.writeReg r v).lifecycle = s.lifecycle := by
  rw [State.writeReg_frame]

/-- All 8 planes provisioned meets the invariant in every lifecycle state. -/
theorem State.storageFollowsState_of_all {s : State} (h : s.planeProv = 0xFF#8) : s.StorageFollowsState :=
  ⟨fun _ => h, fun _ => .inl h⟩

/-- In UNINIT the mask is the host's, and the invariant asks nothing of it. -/
theorem State.storageFollowsState_of_uninit {s : State} (h : s.lifecycle = .uninit) : s.StorageFollowsState := by
  simp [State.StorageFollowsState, h]

theorem State.storageFollowsState_kept : State.Kept State.StorageFollowsState where
  held _ := .rfl
  written {s} r v h := by
    by_cases hs : s.lifecycle = .uninit
    · exact State.storageFollowsState_of_uninit ((s.writeReg_lifecycle r v).trans hs)
    · obtain ⟨hprov, -⟩ := State.writeReg_frozen hs r v
      unfold State.StorageFollowsState
      rw [State.writeReg_lifecycle, hprov]
      exact h
  prepared _ hp _ := State.storageFollowsState_of_all hp
  reseeded _ h := h
  cleared _ _ hp _ := State.storageFollowsState_of_all hp
  released hs _ := by simp [State.StorageFollowsState, hs]
  passEnded := fun hs he ⟨hready, _⟩ => by
    obtain ⟨-, -, hprov, -⟩ := he.fields
    exact State.storageFollowsState_of_all (hprov.trans (hready (.inl hs)))
  passFailed := fun hs hf ⟨hready, _⟩ => by
    obtain ⟨-, -, hprov, -⟩ := hf.fields
    exact State.storageFollowsState_of_all (hprov.trans (hready (.inl hs)))
  reset _ := State.storageFollowsState_of_uninit rfl

/-- Settles O55: INIT reaches READY with all 8 planes only, and from there on the mask changes only by a release, which
ends in CLOSED, or by reset. -/
theorem storageFollowsLifecycle : Obligations.StorageFollowsLifecycle :=
  fun _ _ => State.storageFollowsState_kept.of_step

/-! ### Registers of a restricted range (R25, R26) -/

/-- The keys fit wherever they are those of a state where they fit. -/
theorem State.KeysFit.congr {s t : State} (h : s.KeysFit) (hp : t.params = s.params)
    (hk : t.key1 = s.key1 ∧ t.key2 = s.key2 ∧ t.key1Len = s.key1Len ∧ t.key2Len = s.key2Len) : t.KeysFit := by
  obtain ⟨h1, h2, h3, h4⟩ := hk
  unfold State.KeysFit
  rw [hp, h1, h2, h3, h4]
  exact h

theorem State.keysFit_kept : State.Kept State.KeysFit where
  held _ := .rfl
  written r v h := State.writeReg_keysFit h r v
  prepared _ _ h := h
  reseeded _ h := h
  cleared _ _ _ _ := ⟨List.length_replicate, List.length_replicate, Nat.zero_le _, Nat.zero_le _⟩
  released _ h := h
  passEnded _ he h := by
    obtain ⟨-, -, -, hp, hk⟩ := he.fields
    exact State.KeysFit.congr h hp hk
  passFailed {s _ w _ _} _ hf h := by
    obtain ⟨-, -, -, hp, hk⟩ := hf.fields
    exact State.KeysFit.congr (s := s.accept w) h hp hk
  reset _ := ⟨List.length_replicate, List.length_replicate, Nat.zero_le _, Nat.zero_le _⟩

theorem State.percentLegal_kept : State.Kept State.PercentLegal where
  held _ := .rfl
  written r v h := by rw [State.writeReg_frame]; exact h
  prepared _ _ _ := Nat.zero_le _
  reseeded _ h := h
  cleared _ _ _ _ := Nat.zero_le _
  released _ h := h
  passEnded {s t _} _ he h := by
    unfold State.PercentLegal
    rcases he.progress with hp | hp
    · rw [hp]; decide
    · rw [hp]; exact h
  passFailed _ hf _ := hf.percent
  reset _ := Nat.zero_le _

/-- Settles O56: a register write stores legal values, a wipe and reset zeros, and a pass a percentage of at most 100. -/
theorem registersStayLegal : Obligations.RegistersStayLegal :=
  ⟨fun _ _ => State.keysFit_kept.of_step, fun _ _ => State.percentLegal_kept.of_step⟩

/-! ### Plane lengths (R33, R134) -/

/-- Empty planes are equal and fit (R33). -/
theorem State.planes_of_empty {s : State} (hl : s.plen = Vector.replicate 8 0) (hp : s.planeLen = 0#32) :
    s.PlanesEqual ∧ s.PlanesFit := by
  have h0 : ∀ k, s.plen.get k = 0 := fun k => (congrArg (·.get k) hl).trans (get_replicate8 0 k)
  exact ⟨fun _ k => (h0 k).trans (congrArg BitVec.toNat hp).symm, fun k => (h0 k).trans_le (Nat.zero_le _)⟩

theorem State.planes_kept : State.Kept fun s => s.PlanesEqual ∧ s.PlanesFit where
  held _ := .rfl
  written r v h := by rw [State.writeReg_frame]; exact h
  prepared _ _ _ := State.planes_of_empty rfl rfl
  reseeded _ h := h
  cleared _ _ _ _ := State.planes_of_empty rfl rfl
  released _ h := h
  passEnded _ he _ := by
    obtain ⟨-, -, -, hp, -⟩ := he.fields
    exact ⟨fun _ k => (he.plen k).trans he.planeLen.symm, fun k => by rw [he.plen, hp]; exact he.fits⟩
  passFailed _ hf _ := by
    obtain ⟨hlc, -, -, hp, -⟩ := hf.fields
    exact ⟨fun hne => absurd hlc hne, fun k => by rw [hp]; exact hf.plen k⟩
  reset _ := State.planes_of_empty rfl rfl

/-- Settles O59: a pass that ends leaves all planes at the length it writes to PLANE_LEN, a failed one ends in FAILED with
drawn lengths within PLANE_CAP, and INIT, a wipe and reset empty the planes. -/
theorem planesStayEqual : Obligations.PlanesStayEqual :=
  fun _ _ => State.planes_kept.of_step

/-! ### While a command runs (R19, R36) -/

theorem State.busyAsAccepted_of_idle {s : State} (h : s.seq = none) : s.BusyAsAccepted :=
  fun q hq => by rw [h] at hq; cases hq

/-- A command that completes is no longer running (R126). -/
theorem Executed.seq {i : Instr} {s t : State} (h : Executed i s t) : t.seq = none := by
  cases h with
  | passFailed _ _ w code _ z ht => obtain ⟨-, hseq, -⟩ := ht.fields; exact hseq
  | _ => subst t; rfl

/-- A running command stays as accepted where the sequencer changes in its records of races at most, and the registers
latched, DONE and ERRCODE are left alone. -/
theorem State.BusyAsAccepted.congr {s t : State} (h : s.BusyAsAccepted) (f : Seq → Seq) (hq : t.seq = s.seq.map f)
    (hf : ∀ q, (f q).word = q.word ∧ (f q).inLen = q.inLen ∧ (f q).ctl = q.ctl)
    (hs : t.done = s.done ∧ t.err = s.err ∧ t.inLen = s.inLen ∧ t.ctl = s.ctl) : t.BusyAsAccepted := by
  intro q' hq'
  obtain ⟨q, hsq, rfl⟩ := Option.map_eq_some_iff.1 (hq ▸ hq')
  obtain ⟨hw, hl, hc⟩ := hf q
  obtain ⟨hd, he, hlen, hctl⟩ := hs
  rw [hd, he, hlen, hctl, hw, hl, hc]
  exact h q hsq

/-- The same where the sequencer is left alone. -/
theorem State.BusyAsAccepted.of_seq {s t : State} (h : s.BusyAsAccepted) (hq : t.seq = s.seq)
    (hs : t.done = s.done ∧ t.err = s.err ∧ t.inLen = s.inLen ∧ t.ctl = s.ctl) : t.BusyAsAccepted :=
  h.congr id (hq.trans Option.map_id_apply.symm) (fun _ => ⟨rfl, rfl, rfl⟩) hs

/-- Settles O58: acceptance latches the registers as they stand, a register write is ignored while a command runs, and
completion frees the sequencer. -/
theorem busyStaysAsAccepted : Obligations.BusyStaysAsAccepted := by
  intro s t h e
  cases step_cases e with
  | still ht => exact ht ▸ h
  | command w _ u _ ht =>
    rcases ht with ⟨i, -, hx⟩ | ht
    · exact State.busyAsAccepted_of_idle hx.seq
    · exact State.busyAsAccepted_of_idle (by rw [ht])
  | accepted w b rest _ _ i hw b' ht =>
    intro q hq
    rw [ht] at hq ⊢
    obtain rfl := Option.some.inj hq
    exact ⟨rfl, rfl, rfl, rfl, i, hw ▸ decode_encode i⟩
  | illegal w b rest _ _ ht => exact State.busyAsAccepted_of_idle (by rw [ht])
  | wrote off v rest _ hs _ ht =>
    exact State.busyAsAccepted_of_idle (by rw [ht, State.writeReg_frame]; exact hs)
  | ignored i rest _ _ b ht => exact h.of_seq (by rw [ht]) (by rw [ht]; exact ⟨rfl, rfl, rfl, rfl⟩)
  | read off rest _ ht =>
    rw [ht, State.hostRead_frame]
    exact h.of_seq rfl ⟨rfl, rfl, rfl, rfl⟩
  | waited rest _ _ ht => exact h.of_seq (by rw [ht]) (by rw [ht]; exact ⟨rfl, rfl, rfl, rfl⟩)
  | setIB bytes rest _ ht =>
    rw [ht]
    exact h.congr (fun q => { q with ibOld := s.ib :: q.ibOld }) rfl (fun _ => ⟨rfl, rfl, rfl⟩) ⟨rfl, rfl, rfl, rfl⟩
  | wroteOB a v rest _ _ ht =>
    rw [ht]
    exact h.congr (fun q => { q with obRaced := a :: q.obRaced }) rfl (fun _ => ⟨rfl, rfl, rfl⟩) ⟨rfl, rfl, rfl, rfl⟩
  | readOB a rest _ ht =>
    rw [ht, State.hostReadOB_frame]
    exact h.of_seq rfl ⟨rfl, rfl, rfl, rfl⟩
  | reset rest _ ht => exact State.busyAsAccepted_of_idle (by rw [ht]; rfl)

end Sys2Proof.Machine
end

section
/-! The register map (10_state.md section 3): what the host's register accesses do. -/

namespace Sys2Proof.Machine

/-! ### The register of an offset (R17) -/

/-- Key word `i` of the first window, which has 64 words (R7, R17). -/
theorem regAt_key1 {i : Nat} (h : i < 64) : regAt (0x100 + 4 * i) = .key1 i := by
  rw [regAt_beyond (by omega), if_pos (by omega)]
  congr 1
  omega

/-- Key word `i` of the second window (R7, R17). -/
theorem regAt_key2 {i : Nat} (h : i < 64) : regAt (0x200 + 4 * i) = .key2 i := by
  rw [regAt_beyond (by omega), if_neg (by omega), if_pos (by omega)]
  congr 1
  omega

/-! ### Accesses as steps -/

/-- While BUSY = 0 a write of a register other than CMD is a step that writes it (R18). -/
theorem step_writeReg {s : State} {off : Nat} {v : Word} {rest : List Input} {r : Reg} (hs : s.seq = none)
    (hi : s.inputs = .write 32 off v :: rest) (h4 : off % 4 = 0) (hl : off < 0x1000) (hr : regAt off = r)
    (hcmd : r ≠ .cmd) : step s = .next (State.writeReg r v { s with inputs := rest }) := by
  rw [step_write hi h4 hl, State.hostWrite_idle (s := { s with inputs := rest }) hs, hr, if_neg hcmd]

/-- A write that its register ignores changes nothing, whether a command runs or not (R18, R152). -/
theorem step_writeIgnored {s : State} {off : Nat} {v : Word} {rest : List Input}
    (hi : s.inputs = .write 32 off v :: rest) (h4 : off % 4 = 0) (hl : off < 0x1000) (hcmd : regAt off ≠ .cmd)
    (hw : State.writeReg (regAt off) v { s with inputs := rest } = { s with inputs := rest }) :
    step s = .next { s with inputs := rest } := by
  rw [step_write hi h4 hl]
  by_cases hb : State.busy { s with inputs := rest } = true
  · rw [State.hostWrite, if_pos hb, State.busyWrite, if_neg hcmd]
  · rw [State.hostWrite, if_neg hb, if_neg hcmd, hw]

/-- A read that no draw answers is a step that returns what the register holds (R18, R49). -/
theorem step_readReg {s : State} {off : Nat} {rest : List Input} (hi : s.inputs = .read 32 off :: rest)
    (h4 : off % 4 = 0) (hl : off < 0x1000) (h : s.seq = none ∨ (regAt off).busyMask = none) :
    step s = .next { s with inputs := rest, rdata := s.regValue (regAt off) } := by
  rw [step_read hi h4 hl, State.hostRead_specified (s := { s with inputs := rest }) h]
  cases regAt off <;> rfl

/-! ### Reserved offsets and the key windows (R17, R27) -/

/-- Above DBG_DATA every register reads 0 and answers no read by a draw: a key word or a reserved offset. -/
theorem regAt_beyond_reads {off : Nat} (h : 0x040 < off) :
    (regAt off).busyMask = none ∧ ∀ s : State, s.regValue (regAt off) = 0#32 := by
  rw [regAt_beyond h]
  split_ifs <;> exact ⟨rfl, fun _ => rfl⟩

/-- No offset of the map but 0 is CMD. -/
theorem regAt_ne_cmd {off : Nat} (h : off ≠ 0) : regAt off ≠ .cmd := mt (regAt_eq_cmd off).1 h

/-- A reserved offset, and a key word at or above KEY_WORDS, takes no write (R17, R27). -/
theorem writeReg_beyond {off : Nat} (s : State) (v : Word)
    (h : (0x040 < off ∧ off < 0x100) ∨ 0x300 ≤ off ∨ (0x100 + 4 * s.params.keyWords ≤ off ∧ off < 0x200) ∨
      (0x200 + 4 * s.params.keyWords ≤ off ∧ off < 0x300)) : s.writeReg (regAt off) v = s := by
  rw [regAt_beyond (by omega)]
  split_ifs
  · exact if_neg fun hk => by omega
  · exact if_neg fun hk => by omega
  · rfl

/-- Settles O38: such an offset stands for a key word or for no register (`regAt_beyond`), and both read 0. -/
theorem reservedOffsets : Obligations.ReservedOffsets := by
  intro s off v rest h4 hl
  refine ⟨fun hoff hi => ?_, fun hoff hi => ?_⟩
  · obtain ⟨hmask, hzero⟩ := regAt_beyond_reads (off := off) (by omega)
    rw [step_readReg hi h4 hl (.inr hmask), hzero]
  · exact step_writeIgnored hi h4 hl (regAt_ne_cmd (by omega)) (writeReg_beyond { s with inputs := rest } v hoff)

/-! ### The debug window (R32) -/

/-- DBG_ADDR taken apart: the plane above bit 29, the offset below. -/
theorem dbgAddr_fields {a k o : Nat} (hk : k < 8) (ho : o < 2 ^ 29) (ha : a = k * 2 ^ 29 + o) :
    ((BitVec.ofNat 32 a).extractLsb' 29 3).toNat = k ∧ ((BitVec.ofNat 32 a).extractLsb' 0 29).toNat = o := by
  simp only [BitVec.extractLsb'_toNat, BitVec.toNat_ofNat, Nat.shiftRight_eq_div_pow]
  omega

/-- A byte as a register returns it, zero-extended (R32). -/
theorem byte_setWidth (b : Byte) : b.setWidth 32 = 0#24 ++ b := by
  rw [BitVec.setWidth_eq_append (by decide)]
  rfl

/-- DBG_DATA of the plane byte (k, o). -/
theorem State.dbgData_eq {s : State} {k o : Nat} (hk : k < 8) (ho : o < 2 ^ 29)
    (ha : s.dbgAddr = BitVec.ofNat 32 (k * 2 ^ 29 + o)) :
    s.dbgData = if s.planeProv.getLsbD k = true ∧ o < s.params.planeCap then 0#24 ++ s.readPM k o else 0#32 := by
  obtain ⟨hplane, hoffset⟩ := dbgAddr_fields hk ho rfl
  unfold State.dbgData
  simp only [ha, hplane, hoffset, byte_setWidth]

/-- Settles O46: while BUSY = 0 the read returns DBG_DATA, which DBG_ADDR addresses. -/
theorem debugWindow : Obligations.DebugWindow := by
  intro s rest k o hs hi hk ho ha
  rw [step_readReg hi (by decide) (by decide) (.inl hs), ← State.dbgData_eq hk ho ha]
  rfl

/-! ### Register writes (R17, R18, R21, R26, R27) -/

/-- CONFIG keeps its low 4 bits (R18, R21). -/
theorem control_word_ofWord (v : Word) : (Control.ofWord v).word = v &&& 0xF#32 := by
  apply BitVec.eq_of_getLsbD_eq
  intro i hi
  simp only [Control.word, Control.ofWord, BitVec.getLsbD_append, BitVec.getLsbD_and, BitVec.getLsbD_ofBool]
  interval_cases i <;> simp

/-- A key length register stores the lesser of the value and KEY_MAX (R7, R26). -/
theorem legalKeyLen_toNat {p : Params} (hp : p.wf = true) (v : Word) :
    (legalKeyLen p v).toNat = min v.toNat p.keyMax := by
  have hmax : p.keyMax ≤ 256 := by
    simp only [Params.wf, Bool.and_eq_true, decide_eq_true_eq] at hp
    unfold Params.keyMax
    omega
  unfold legalKeyLen
  split
  · omega
  · rw [BitVec.toNat_ofNat]; omega

/-- A key word below KEY_WORDS is one of the window's 64 (R7). -/
theorem keyWord_lt {p : Params} (hp : p.wf = true) {i : Nat} (hi : i < p.keyWords) : i < 64 := by
  simp only [Params.wf, Bool.and_eq_true, decide_eq_true_eq] at hp
  omega

/-- The four bytes of a key word below KEY_WORDS are bytes of its buffer (R7, R27). -/
theorem keyWord_fits {p : Params} {i : Nat} (hi : i < p.keyWords) : 4 * i + 4 ≤ p.keyMax := by
  unfold Params.keyMax
  omega

/-- Settles O36: a write while BUSY = 0 is `State.writeReg` of the register at its offset; a key word's bytes are
`writeKeyWord_set`. -/
theorem registerWrites : Obligations.RegisterWrites := by
  refine ⟨fun s off v rest hs hi => ?_, control_word_ofWord, fun p v hp => legalKeyLen_toNat hp v⟩
  have hw : ∀ {r : Reg}, regAt off = r → off % 4 = 0 ∧ off < 0x1000 → r ≠ .cmd →
      step s = .next (State.writeReg r v { s with inputs := rest }) :=
    fun hr hoff hcmd => step_writeReg hs hi hoff.1 hoff.2 hr hcmd
  refine ⟨?config, ?inLen, ?wipeSeed, ?xdata0, ?xdata1, ?dbgAddr, ?readOnly, fun hu => ⟨?planeProv, ?key1Len, ?key2Len,
    fun hp ⟨hlen1, hlen2, _⟩ i hk => ⟨?key1, ?key2⟩⟩⟩
  case config => rintro rfl; exact hw (r := .config) rfl (by decide) (by decide)
  case inLen => rintro rfl; exact hw (r := .inLen) rfl (by decide) (by decide)
  case wipeSeed => rintro rfl; exact hw (r := .wipeSeed) rfl (by decide) (by decide)
  case xdata0 => rintro rfl; exact hw (r := .xdata0) rfl (by decide) (by decide)
  case xdata1 => rintro rfl; exact hw (r := .xdata1) rfl (by decide) (by decide)
  case dbgAddr => rintro rfl; exact hw (r := .dbgAddr) rfl (by decide) (by decide)
  case readOnly =>
    intro hoff
    simp only [List.mem_cons, List.not_mem_nil, or_false] at hoff
    rcases hoff with rfl | rfl | rfl | rfl | rfl | rfl <;> exact hw rfl (by decide) (by decide)
  case planeProv =>
    rintro rfl
    rw [hw (r := .planeProv) rfl (by decide) (by decide), State.writeReg, if_pos hu]
  case key1Len =>
    rintro rfl
    rw [hw (r := .key1Len) rfl (by decide) (by decide), State.writeReg, if_pos hu]
  case key2Len =>
    rintro rfl
    rw [hw (r := .key2Len) rfl (by decide) (by decide), State.writeReg, if_pos hu]
  case key1 =>
    rintro rfl
    have h64 := keyWord_lt hp hk
    refine ⟨{ s with inputs := rest, key1 := writeKeyWord s.key1 i v }, ?_, rfl, writeKeyWord_set v ?_⟩
    · rw [hw (regAt_key1 h64) (by omega) (by simp), State.writeReg, if_pos ⟨hu, hk⟩]
    · rw [hlen1]; exact keyWord_fits hk
  case key2 =>
    rintro rfl
    have h64 := keyWord_lt hp hk
    refine ⟨{ s with inputs := rest, key2 := writeKeyWord s.key2 i v }, ?_, rfl, writeKeyWord_set v ?_⟩
    · rw [hw (regAt_key2 h64) (by omega) (by simp), State.writeReg, if_pos ⟨hu, hk⟩]
    · rw [hlen2]; exact keyWord_fits hk

end Sys2Proof.Machine
end

section
/-! The STATUS word (R20) and the host's own accesses to IB and OB (R37, R38). -/

namespace Sys2Proof.Machine

/-! ### STATUS (R20) -/

/-- The fields of a word packed as STATUS is: a STATE code, BUSY, DONE, OVR and an ERRCODE code (R20). -/
theorem statusFields_of_packed (code : BitVec 4) (ovr done busy : Bool) (st : BitVec 2) (w : Word)
    (h : w = 0#20 ++ code ++ 0#3 ++ BitVec.ofBool ovr ++ BitVec.ofBool done ++ BitVec.ofBool busy ++ st) :
    w.extractLsb' 0 2 = st ∧ w.getLsbD 2 = busy ∧ w.getLsbD 3 = done ∧ w.getLsbD 4 = ovr ∧
    w.extractLsb' 5 3 = 0#3 ∧ w.extractLsb' 8 4 = code ∧ w.extractLsb' 12 20 = 0#20 := by
  subst h
  simp only [BitVec.eq_of_getLsbD_eq_iff, BitVec.getLsbD_extractLsb', BitVec.getLsbD_append, BitVec.getLsbD_ofBool]
  refine ⟨fun i hi => ?state, ?busy, ?done, ?ovr, fun i hi => ?reserved, fun i hi => ?errcode, fun i hi => ?top⟩
  case state => interval_cases i <;> simp
  case busy => simp
  case done => simp
  case ovr => simp
  case reserved => interval_cases i <;> simp
  case errcode => interval_cases i <;> simp
  case top => interval_cases i <;> simp

/-- Settles O43: STATUS is packed from the codes of R16 and R131, which these tables write out. -/
theorem statusFields : Obligations.StatusFields := by
  intro s
  obtain ⟨hstate, hbusy, hdone, hovr, hrsv, herr, htop⟩ :=
    statusFields_of_packed s.err.code s.ovr s.done s.busy s.lifecycle.code s.statusWord rfl
  refine ⟨hstate.trans ?_, hbusy, hdone, hovr, hrsv, herr.trans ?_, htop⟩
  · cases s.lifecycle <;> rfl
  · cases s.err <;> rfl

/-! ### The host's streams (R37, R38) -/

/-- Filling IB is a step of its own (R37). -/
theorem step_setIB {s : State} {bytes : List Byte} {rest : List Input} (hi : s.inputs = .setIB bytes :: rest) :
    step s = .next (State.hostSetIB bytes { s with inputs := rest }) := by
  unfold step State.advance; rw [hi]; rfl

/-- A write of a byte that OB has is a step of its own (R38). -/
theorem step_writeOB {s : State} {a : Nat} {v : Byte} {rest : List Input} (hi : s.inputs = .writeOB a v :: rest)
    (ha : a < s.params.outCap) : step s = .next (State.hostWriteOB a v { s with inputs := rest }) := by
  unfold step State.advance; rw [hi]; exact if_pos ha

/-- A read of a byte that OB has is a step of its own (R38). -/
theorem step_readOB {s : State} {a : Nat} {rest : List Input} (hi : s.inputs = .readOB a :: rest)
    (ha : a < s.params.outCap) : step s = .next (State.hostReadOB a { s with inputs := rest }) := by
  unfold step State.advance; rw [hi]; exact if_pos ha

/-- Settles O48: IB and OB are written as they are asked, and a running command keeps a record of it alone; what an OB
write leaves of the other bytes is `Store.read_write`. -/
theorem hostStreamAccesses : Obligations.HostStreamAccesses := by
  intro s rest
  refine ⟨fun bytes hi => ?fill, fun a v hi ha => ?write, fun a hi ha => ⟨fun hs => ?read, fun hs => ?draw⟩⟩
  case fill =>
    refine ⟨_, step_setIB hi, rfl, fun hs => ?_, fun q hq => ⟨{ q with ibOld := s.ib :: q.ibOld }, ?_, rfl⟩⟩
    · simp [State.hostSetIB, hs]
    · simp [State.hostSetIB, hq]
  case write =>
    refine ⟨_, step_writeOB hi ha, rfl, Store.read_write_same _ _ _, fun b hb => Store.read_write_other _ _ hb,
      fun hs => ?_, fun q hq => ⟨{ q with obRaced := a :: q.obRaced }, ?_, rfl⟩⟩
    · simp [State.hostWriteOB, hs]
    · simp [State.hostWriteOB, hq]
  case read =>
    have hb : State.busy { s with inputs := rest } = false := (State.busy_false _).2 hs
    rw [step_readOB hi ha, State.hostReadOB, hb]
    rfl
  case draw =>
    have hb : State.busy { s with inputs := rest } = true := (State.busy_iff _).2 hs
    refine ⟨Config.busyOB s.epoch, ?_⟩
    rw [step_readOB hi ha, State.hostReadOB, hb]
    rfl

end Sys2Proof.Machine
end

section
/-! The memories (20_memory.md section 1): what one step can do to plane memory and to OB, said once for both invariants
of their cells. -/

namespace Sys2Proof.Machine

/-! ### Writes to a memory (R41) -/

/-- The address is that of a byte of one of the 8 planes (R33, R41). -/
def PlaneByte (p : Params) (a : Nat) : Prop := ∃ k o, k < 8 ∧ o < p.planeCap ∧ a = pmKey k o

/-- Memory `m'` is `m` after writes at addresses in `P` only, or a fresh one after them: it is canonical when `m` is, and
every byte it lists newly lies in `P`. -/
structure Store.WrittenIn (P : Nat → Prop) (m m' : Store) : Prop where
  wf : m.wf → m'.wf
  cells : ∀ c ∈ m'.cells, c ∈ m.cells ∨ P c.1

namespace Store.WrittenIn

variable {P Q : Nat → Prop} {m m' m'' : Store}

theorem refl (P : Nat → Prop) (m : Store) : WrittenIn P m m := ⟨id, fun _ => .inl⟩

theorem trans (h : WrittenIn P m m') (h' : WrittenIn P m' m'') : WrittenIn P m m'' where
  wf := h'.wf ∘ h.wf
  cells c hc := (h'.cells c hc).elim (h.cells c) .inr

theorem mono (h : WrittenIn P m m') (hPQ : ∀ a, P a → Q a) : WrittenIn Q m m' where
  wf := h.wf
  cells c hc := (h.cells c hc).imp_right (hPQ c.1)

theorem write {a : Nat} (m : Store) (v : Byte) (ha : P a) : WrittenIn P m (m.write a v) where
  wf h := Store.wf_write h a v
  cells _ hc := (Store.mem_cells_write hc).elim (fun e => .inr (e ▸ ha)) .inl

theorem writeAll (m : Store) {cs : List Host.Cell} (hcs : ∀ c ∈ cs, P c.1) : WrittenIn P m (m.writeAll cs) where
  wf h := Store.wf_writeAll h cs
  cells c hc := (Store.mem_cells_writeAll hc).elim (fun h => .inr (hcs c h)) .inl

/-- A wipe and a reset list nothing. -/
theorem fresh (P : Nat → Prop) (m : Store) (f : Fill) : WrittenIn P m ⟨[], f⟩ where
  wf _ := Store.wf_nil f
  cells _ hc := absurd hc List.not_mem_nil

/-- The race on OB writes only bytes of the pass (R154). -/
theorem settleOB (q : Seq) (epoch out : Nat) (before after : Store) :
    WrittenIn (· < out) after (settleOB q epoch out before after) where
  wf := settleOB_wf
  cells _ := settleOB_cells

/-- Every byte listed after the writes lies where every byte listed before does, if the writes are there too. -/
theorem keeps_cells (h : WrittenIn P m m') (hm : ∀ c ∈ m.cells, P c.1) : ∀ c ∈ m'.cells, P c.1 :=
  fun c hc => (h.cells c hc).elim (hm c) id

end Store.WrittenIn

/-! ### What a step does to the memories (R41, R43, R44) -/

/-- From `s` to `t` the memories were written where `s` has bytes only: PM in the planes, OB below OUT_CAP. The capacities
themselves stand. -/
structure MemoriesWritten (s t : State) : Prop where
  params : t.params = s.params
  pm : Store.WrittenIn (PlaneByte s.params) s.pm t.pm
  ob : Store.WrittenIn (· < s.params.outCap) s.ob t.ob

namespace MemoriesWritten

/-- What leaves the memories alone. -/
theorem of_eq {s t : State} (h : t.params = s.params ∧ t.pm = s.pm ∧ t.ob = s.ob) : MemoriesWritten s t := by
  obtain ⟨hp, hpm, hob⟩ := h
  exact ⟨hp, hpm ▸ .refl _ _, hob ▸ .refl _ _⟩

theorem trans {s t u : State} (h : MemoriesWritten s t) (h' : MemoriesWritten t u) : MemoriesWritten s u where
  params := h'.params.trans h.params
  pm := h.pm.trans (h.params ▸ h'.pm)
  ob := h.ob.trans (h.params ▸ h'.ob)

/-- The end of a pass whose sizes pass the capacity check (R93, R103). -/
theorem of_passEnd {s u : State} {w : Word} {q : Seq} {z : PassSize} (hfit : z.tooBig s.params = false)
    (outside : u.outsidePass = (s.accept w).outsidePass) (memories : (s.pm.wf → u.pm.wf) ∧ (s.ob.wf → u.ob.wf))
    (pmCells : ∀ c ∈ u.pm.cells, c ∈ s.pm.cells ∨ ∃ k o, k < 8 ∧ o < z.planes ∧ c.1 = pmKey k o)
    (obCells : ∀ c ∈ u.ob.cells, c ∈ s.ob.cells ∨ c.1 < z.out) :
    MemoriesWritten s (State.passEnd q z (s.accept w) u) := by
  obtain ⟨hplanes, hout⟩ := PassSize.tooBig_false.1 hfit
  obtain ⟨hpmWf, hobWf⟩ := memories
  obtain ⟨-, -, -, hparams, -⟩ := State.outsidePass_fields outside
  have hob : Store.WrittenIn (· < z.out) s.ob u.ob := ⟨hobWf, obCells⟩
  exact
    { params := hparams
      pm := ⟨hpmWf, fun c hc => (pmCells c hc).imp_right fun ⟨k, o, hk, ho, e⟩ => ⟨k, o, hk, by omega, e⟩⟩
      ob := (hob.trans (.settleOB q _ z.out s.ob u.ob)).mono fun a ha => by omega }

/-- A pass error draws bytes that exist (R134). -/
theorem of_passFailed {s t : State} {w : Word} {code : ErrCode} {z : PassSize}
    (h : PassFailed (s.accept w) code z t) : MemoriesWritten s t := by
  obtain ⟨hpmWf, hobWf⟩ := h.memories
  obtain ⟨-, -, -, hparams, -⟩ := h.fields
  exact ⟨hparams, ⟨hpmWf, h.pmCells⟩, ⟨hobWf, h.obCells⟩⟩

/-- Every command writes bytes that exist, if any. -/
theorem of_executed {i : Instr} {s t : State} (e : Executed i s t) : MemoriesWritten s t := by
  cases e with
  | refused e ht => exact .of_eq (ht ▸ ⟨rfl, rfl, rfl⟩)
  | prepared _ _ _ ht => exact .of_eq (ht ▸ ⟨rfl, rfl, rfl⟩)
  | reseeded _ _ ht => exact .of_eq (ht ▸ ⟨rfl, rfl, rfl⟩)
  | cleared _ _ _ ht => exact ht ▸ ⟨rfl, .fresh _ _ _, .refl _ _⟩
  | released _ _ _ ht => exact ht ▸ ⟨rfl, .fresh _ _ _, .refl _ _⟩
  | transposed _ ht => exact .of_eq (ht ▸ ⟨rfl, rfl, rfl⟩)
  | split _ _ hfit u hu ht => exact ht ▸ of_passEnd hfit hu.outside hu.memories hu.pmCells hu.obCells
  | unsplit _ _ b hfit u hu ht => exact ht ▸ of_passEnd hfit hu.outside hu.memories hu.pmCells hu.obCells
  | passFailed _ _ w code _ z ht => exact of_passFailed ht

/-- Reset redraws PM and the OB bytes of an interrupted pass, which end below OUT_CAP (R150). -/
theorem of_reset (s : State) : MemoriesWritten s s.resetEvent where
  params := rfl
  pm := .fresh _ _ _
  ob := .writeAll _ fun _ hc => (abortedOB_cells hc).trans_le s.abortedOut_le

/-- Every step writes bytes that exist, if any. -/
theorem of_step {s t : State} (e : step s = .next t) : MemoriesWritten s t := by
  cases step_cases e with
  | still ht => exact .of_eq (ht ▸ ⟨rfl, rfl, rfl⟩)
  | command w _ u hu ht =>
    have htaken : MemoriesWritten s u := by
      rw [hu]
      unfold State.taken
      split <;> exact .of_eq ⟨rfl, rfl, rfl⟩
    rcases ht with ⟨i, -, hx⟩ | ht
    · exact htaken.trans (.of_executed hx)
    · exact htaken.trans (.of_eq (ht ▸ ⟨rfl, rfl, rfl⟩))
  | accepted w b rest _ _ i _ b' ht => exact .of_eq (ht ▸ ⟨rfl, rfl, rfl⟩)
  | illegal w b rest _ _ ht => exact .of_eq (ht ▸ ⟨rfl, rfl, rfl⟩)
  | wrote off v rest _ _ _ ht =>
    rw [ht, State.writeReg_frame]
    exact .of_eq ⟨rfl, rfl, rfl⟩
  | ignored i rest _ _ b ht => exact .of_eq (ht ▸ ⟨rfl, rfl, rfl⟩)
  | read off rest _ ht =>
    rw [ht, State.hostRead_frame]
    exact .of_eq ⟨rfl, rfl, rfl⟩
  | waited rest _ _ ht => exact .of_eq (ht ▸ ⟨rfl, rfl, rfl⟩)
  | setIB bytes rest _ ht => exact .of_eq (ht ▸ ⟨rfl, rfl, rfl⟩)
  | wroteOB a v rest _ ha ht => exact ht ▸ ⟨rfl, .refl _ _, .write _ v ha⟩
  | readOB a rest _ ht =>
    rw [ht, State.hostReadOB_frame]
    exact .of_eq ⟨rfl, rfl, rfl⟩
  | reset rest _ ht => exact ht ▸ .trans (t := { s with inputs := rest }) (.of_eq ⟨rfl, rfl, rfl⟩) (.of_reset _)

end MemoriesWritten

/-- Settles O52: whatever a step writes it writes through `Store.write`, or it lays a fresh background. -/
theorem memoriesStayCanonical : Obligations.MemoriesStayCanonical := by
  intro s t ⟨hpm, hob⟩ e
  have h := MemoriesWritten.of_step e
  exact ⟨h.pm.wf hpm, h.ob.wf hob⟩

/-- Settles O53: a step writes in the planes and below OUT_CAP only, and leaves the capacities. -/
theorem onlyExistingCellsAreWritten : Obligations.OnlyExistingCellsAreWritten := by
  intro s t ⟨hpm, hob⟩ e
  have h := MemoriesWritten.of_step e
  unfold State.CellsExist
  rw [h.params]
  exact ⟨h.pm.keeps_cells hpm, h.ob.keeps_cells hob⟩

end Sys2Proof.Machine
end

section
/-! The input stream (20_memory.md section 1): a SPLIT reads IB below IN_LEN only (R42). -/

namespace Sys2Proof.Machine

/-! ### Loops that agree -/

/-- Two loops whose turns agree wherever an invariant of the first holds agree. -/
theorem foldlM_range_congr {σ : Type} {f g : σ → Nat → Run σ} (I : Nat → σ → Prop) (m : Nat)
    (hfg : ∀ b < m, ∀ s, I b s → f s b = g s b) (hkeep : ∀ b < m, ∀ s t, I b s → f s b = .ok t → I (b + 1) t)
    {s : σ} (h0 : I 0 s) :
    (List.range m).foldlM f s = (List.range m).foldlM g s ∧ ∀ t, (List.range m).foldlM f s = .ok t → I m t := by
  induction m with
  | zero =>
    refine ⟨rfl, fun t ht => ?_⟩
    cases ht
    exact h0
  | succ m ih =>
    obtain ⟨heq, hI⟩ := ih (fun b hb => hfg b (by omega)) (fun b hb => hkeep b (by omega))
    simp only [List.range_succ, List.foldlM_append, List.foldlM_cons, List.foldlM_nil, bind_pure, ← heq]
    cases hr : (List.range m).foldlM f s with
    | error e => exact ⟨rfl, fun t ht => by cases ht⟩
    | ok u =>
      have hu := hI u hr
      exact ⟨hfg m (by omega) u hu, fun t ht => hkeep m (by omega) u t hu ht⟩

/-- Two runs that start alike and go on alike agree. -/
theorem Run.bind_congr {α β : Type} {x y : Run α} {f g : α → Run β} (hx : x = y)
    (hf : ∀ a, x = .ok a → f a = g a) : (x >>= f) = (y >>= g) := by
  subst hx
  cases x with
  | error e => rfl
  | ok a => exact hf a rfl

/-! ### Where a pass stands in its input (R35, R97) -/

theorem State.assemble_ipos {ib : List Byte} {filler : Nat → Byte} {count : Nat} {s t : State}
    (h : s.assemble ib filler count = .ok t) : t.ipos = s.ipos + count := by
  unfold State.assemble at h
  split at h
  · cases h; rfl
  · cases h

theorem State.route_ipos (tok : Token) (b : Block) (s : State) : (s.route tok b).ipos = s.ipos :=
  foldl_keeps (fun (s : State) (j : Fin 8) => s.appendPlane (tok.get j) (b.get j)) State.ipos _ (fun _ _ => rfl) s

theorem State.emitBlock_ipos {s t : State} (h : s.emitBlock = .ok t) : t.ipos = s.ipos := by
  unfold State.emitBlock at h
  rw [State.nextToken_eq] at h
  split_ifs at h
  cases h
  exact State.route_ipos _ _ _

/-- A block that is assembled, emitted and reported moves IPOS on by the bytes it read (R97, R98). -/
theorem State.block_ipos {ib : List Byte} {filler : Nat → Byte} {count c U : Nat} {pe : Bool} {s t : State}
    (h : (do
      let s ← s.assemble ib filler count
      let s ← s.emitBlock
      .ok (s.report pe .route c U) : Run State) = .ok t) : t.ipos = s.ipos + count := by
  obtain ⟨u, hu, h⟩ := Run.of_bind h
  obtain ⟨v, hv, h⟩ := Run.of_bind h
  cases h
  rw [State.report_eq]
  exact (State.emitBlock_ipos hv).trans (State.assemble_ipos hu)

/-- Step 1 moves IPOS on by the remainder (R95, R96). -/
theorem State.splitRemainder_ipos {pe : Bool} {z : PassSize} {ib : List Byte} {b : Byte} {filler : Nat → Byte}
    {s t : State} (h : State.splitRemainder pe z ib b filler s = .ok t) : t.ipos = s.ipos + z.rem := by
  unfold State.splitRemainder at h
  split at h
  next hr => cases h; rw [hr]; rfl
  next => exact State.block_ipos (s := s.emitOB b) h

/-! ### Two inputs that agree below IN_LEN -/

section
variable {L : Nat} {ib jb : List Byte} (h : jb.take L = ib.take L)
include h

/-- Inputs that agree below `L` both deliver a read that ends by `L`, or neither does (R42). -/
theorem delivers_congr {n : Nat} (hn : n ≤ L) : n ≤ jb.length ↔ n ≤ ib.length := by
  have hlen := congrArg List.length h
  simp only [List.length_take] at hlen
  omega

/-- Inputs that agree below `L` hold the same bytes there (R42). -/
theorem getD_congr_of_take {a : Nat} (ha : a < L) : jb.getD a 0#8 = ib.getD a 0#8 := by
  have hbyte := congrArg (·.getD a 0#8) h
  simpa only [List.getD_eq_getElem?_getD, List.getElem?_take_of_lt ha] using hbyte

/-- A block that ends at or below `L` is assembled alike (R96, R97). -/
theorem State.assemble_congr {s : State} {filler : Nat → Byte} {count : Nat} (hs : s.ipos + count ≤ L) :
    s.assemble jb filler count = s.assemble ib filler count := by
  by_cases hd : s.ipos + count ≤ ib.length
  · rw [State.assemble_ok filler hd, State.assemble_ok filler ((delivers_congr h hs).2 hd)]
    congr 3
    funext slot
    split
    · rw [getD_congr_of_take h (by omega)]
    · rfl
  · rw [State.assemble_error (ib := ib) filler (by omega), State.assemble_error filler (Nat.lt_of_not_le (mt (delivers_congr h hs).1 hd))]

theorem State.splitRemainder_congr {s : State} {pe : Bool} {b : Byte} {filler : Nat → Byte} (hs : s.ipos = 0) :
    State.splitRemainder pe (splitSize L) jb b filler s = State.splitRemainder pe (splitSize L) ib b filler s := by
  have hle : (splitSize L).rem ≤ L := Nat.mod_le L 8
  unfold State.splitRemainder
  rw [State.assemble_congr h (s := s.emitOB b) (by rw [State.emitOB_ipos, hs]; omega)]

theorem State.splitBlock_congr {s : State} {pe : Bool} {z : PassSize} {b : Nat} (hs : s.ipos + 8 ≤ L) :
    s.splitBlock pe z jb b = s.splitBlock pe z ib b := by
  unfold State.splitBlock
  rw [State.assemble_congr h hs]

/-- A SPLIT pass of `L` bytes is the same on inputs that agree below `L` (R42): every block ends there. -/
theorem State.splitPass_congr (s : State) (pe : Bool) (noise : Byte) (filler : Nat → Byte) :
    s.splitPass pe (splitSize L) jb noise filler = s.splitPass pe (splitSize L) ib noise filler := by
  have hfull : (splitSize L).planes - (splitSize L).header = L / 8 := Nat.add_sub_cancel _ _
  unfold State.splitPass
  split
  next => rfl
  next =>
    refine Run.bind_congr (State.splitRemainder_congr h rfl) fun t ht => ?_
    have hpos : t.ipos = L % 8 := (State.splitRemainder_ipos ht).trans (Nat.zero_add _)
    obtain ⟨hloop, -⟩ := foldlM_range_congr (f := State.splitBlock pe (splitSize L) jb)
      (g := State.splitBlock pe (splitSize L) ib) (fun b u => u.ipos = L % 8 + 8 * b)
      ((splitSize L).planes - (splitSize L).header)
      (fun b hb u hu => State.splitBlock_congr h (by omega))
      (fun b _ u v hu hv => (State.block_ipos hv).trans (by omega)) (s := t) hpos
    rw [hloop]

end

/-! ### A SPLIT on another IB -/

/-- A SPLIT pass leaves the host's events to come (R36): it runs the same with those events put there again. -/
theorem State.splitPass_inputs {pe : Bool} {z : PassSize} {ib : List Byte} {noise : Byte} {filler : Nat → Byte}
    {s t : State} (h : s.splitPass pe z ib noise filler = .ok t) : t.inputs = s.inputs := by
  have hself := State.splitPass_rehost s.ib s.seq s.inputs pe z ib noise filler s
  rw [show s.rehost s.ib s.seq s.inputs = s from rfl, h] at hself
  have ht : t = t.rehost s.ib s.seq s.inputs := Except.ok.inj hself
  rw [ht]
  rfl

/-- The end of a pass is the same on another IB, but for IB. -/
theorem State.finishPass_rehost (jb : List Byte) (q : Seq) (z : PassSize) {r : Run State} {a : State}
    (hr : ∀ t, r = .ok t → t.inputs = a.inputs) :
    State.finishPass q z (r.map (State.rehost jb a.seq a.inputs)) (a.rehost jb a.seq a.inputs) =
      { State.finishPass q z r a with ib := jb } := by
  cases r with
  | error e => rfl
  | ok t =>
    have ht := hr t rfl
    simp only [Except.map, State.finishPass_ok, State.passEnd, State.rehost, State.complete, ht]

/-- SPLIT issued in READY while BUSY = 0: the pass over IB as it stands (R94). -/
theorem execSplit_idle {s : State} (hs : s.seq = none) (hr : s.lifecycle = .ready) :
    exec .split s = .next (State.finishPass ⟨encode .split, s.inLen, s.ctl, false, [], []⟩ (splitSize s.inLen.toNat)
      ((s.accept (encode .split)).splitPass s.ctl.progEn (splitSize s.inLen.toNat) s.ib s.drawNoise s.drawFiller)
      (s.accept (encode .split))) := by
  rw [execSplit_ready hr, State.deliveredIB_idle hs, State.latch_idle hs]
  rfl

/-- A command accepted while BUSY = 0 on another IB is in the state of acceptance with that IB (R19). -/
theorem State.accept_onIB {s : State} (hs : s.seq = none) (w : Word) (jb : List Byte) :
    State.accept w { s with ib := jb } = (s.accept w).rehost jb (s.accept w).seq (s.accept w).inputs := by
  simp only [State.accept, State.rehost, State.latch, hs]

/-- Settles O29: outside READY a SPLIT does not look at IB, and in READY its pass is the same on both inputs
(`State.splitPass_congr`) and carries IB along untouched (`State.splitPass_rehost`). -/
theorem splitReadsOnlyBelowInLen : Obligations.SplitReadsOnlyBelowInLen := by
  intro s jb hs hjb
  cases hr : s.lifecycle.notReady with
  | some e =>
    refine ⟨{ s with seq := none, done := true, err := e }, ?_, ?_⟩ <;>
      simp only [exec, execSplit, State.accept_lifecycle, hr] <;> rfl
  | none =>
    have hready := Lifecycle.notReady_none.1 hr
    refine ⟨_, execSplit_idle hs hready, ?_⟩
    rw [execSplit_idle (s := { s with ib := jb }) hs hready, State.accept_onIB hs, State.splitPass_congr hjb,
      State.splitPass_rehost]
    exact congrArg Host.Outcome.next (State.finishPass_rehost jb _ _ fun _ => State.splitPass_inputs)

end Sys2Proof.Machine
end

section
/-! The host's register accesses (20_memory.md section 3): what a read returns (R49), and which accesses stop (R48). -/

namespace Sys2Proof.Machine

/-! ### Words that hold fields (R21, R24, R25) -/

/-- The fields of CONFIG as read (R21). -/
theorem Control.word_fields (c : Control) :
    c.word.extractLsb' 4 28 = 0#28 ∧ c.word.getLsbD 0 = c.wipeRandom ∧ c.word.getLsbD 1 = c.progEn ∧
    c.word.getLsbD 2 = c.ieDone ∧ c.word.getLsbD 3 = c.ieErr := by
  simp only [Control.word, BitVec.eq_of_getLsbD_eq_iff, BitVec.getLsbD_extractLsb', BitVec.getLsbD_append,
    BitVec.getLsbD_ofBool]
  refine ⟨fun i hi => ?reserved, ?wipeRandom, ?progEn, ?ieDone, ?ieErr⟩
  case reserved => interval_cases i <;> simp
  all_goals simp

/-- The fields of HDR as read (R24). -/
theorem Header.word_fields (h : Header) :
    h.word.extractLsb' 0 8 = h.byte ∧ h.word.getLsbD 8 = h.present ∧ h.word.extractLsb' 9 7 = 0#7 ∧
    h.word.extractLsb' 16 3 = h.rem ∧ h.word.extractLsb' 19 13 = 0#13 := by
  simp only [Header.word, BitVec.eq_of_getLsbD_eq_iff, BitVec.getLsbD_extractLsb', BitVec.getLsbD_append,
    BitVec.getLsbD_ofBool]
  refine ⟨fun i hi => ?byte, ?present, fun i hi => ?reserved, fun i hi => ?rem, fun i hi => ?top⟩
  case present => simp
  all_goals interval_cases i <;> simp

/-- The fields of PROGRESS as read (R25). -/
theorem Progress.word_fields (p : Progress) :
    p.word.extractLsb' 0 7 = p.percent ∧ p.word.getLsbD 7 = p.intermediate ∧ p.word.extractLsb' 8 3 = p.phase.code ∧
    p.word.extractLsb' 11 21 = 0#21 := by
  simp only [Progress.word, BitVec.eq_of_getLsbD_eq_iff, BitVec.getLsbD_extractLsb', BitVec.getLsbD_append,
    BitVec.getLsbD_ofBool]
  refine ⟨fun i hi => ?percent, ?intermediate, fun i hi => ?phase, fun i hi => ?top⟩
  case intermediate => simp
  all_goals interval_cases i <;> simp

/-! ### Reads (R17, R18, R49) -/

/-- Every offset but those of the six busy-unspecified registers reads as specified while BUSY = 1 too (R18). -/
theorem busyMask_none {off : Nat} (h : off ∉ [0x010, 0x014, 0x018, 0x01C, 0x020, 0x040]) :
    (regAt off).busyMask = none := by
  by_cases hoff : 0x040 < off
  · exact (regAt_beyond_reads hoff).1
  · have hmap : ∀ off < 0x041, off ∉ [0x010, 0x014, 0x018, 0x01C, 0x020, 0x040] → (regAt off).busyMask = none := by
      decide
    exact hmap off (by omega) h

/-- Settles O37: a read returns what the register at its offset holds (`step_readReg`), and changes nothing else
(`State.hostRead_frame`) even where a draw answers it. -/
theorem readsHaveNoSideEffect : Obligations.ReadsHaveNoSideEffect := by
  intro s off rest hi h4 hl
  have hread : s.seq = none ∨ (regAt off).busyMask = none →
      State.hostRead off { s with inputs := rest } = { s with inputs := rest, rdata := s.regValue (regAt off) } :=
    fun h => Host.Outcome.next.inj ((step_read hi h4 hl).symm.trans (step_readReg hi h4 hl h))
  refine ⟨_, step_read hi h4 hl, ?_⟩
  have hvalue : ∀ r, regAt off = r → s.seq = none ∨ r.busyMask = none →
      (State.hostRead off { s with inputs := rest }).rdata = s.regValue r :=
    fun r hr h => by rw [hread (hr ▸ h), hr]
  refine ⟨State.hostRead_frame _ off, fun h => by rw [hread (h.imp_right busyMask_none)], ?cmd, ?status, ?config, ?inLen,
    ?wipeSeed, ?planeProv, ?key1Len, ?key2Len, ?xdata0, ?xdata1, ?dbgAddr, ?beyond, fun hs => ⟨?outLen, ?planeLen,
    ?schedCnt, ?hdr, ?progress, ?dbgData⟩⟩
  case cmd | status | inLen | wipeSeed | key1Len | key2Len | xdata0 | xdata1 | dbgAddr =>
    rintro rfl; exact hvalue _ rfl (.inr rfl)
  case config => rintro rfl; rw [hvalue .config rfl (.inr rfl)]; exact s.ctl.word_fields
  case planeProv => rintro rfl; rw [hvalue .planeProv rfl (.inr rfl)]; exact byte_setWidth s.planeProv
  case beyond =>
    intro hoff
    obtain ⟨hmask, hzero⟩ := regAt_beyond_reads hoff
    exact (hvalue _ rfl (.inr hmask)).trans (hzero s)
  case outLen | planeLen | dbgData => rintro rfl; exact hvalue _ rfl (.inl hs)
  case schedCnt => rintro rfl; rw [hvalue .schedCnt rfl (.inl hs)]; exact BitVec.toNat_ofNat s.n 32
  case hdr => rintro rfl; rw [hvalue .hdr rfl (.inl hs)]; exact s.hdr.word_fields
  case progress =>
    rintro rfl
    rw [hvalue .progress rfl (.inl hs)]
    obtain ⟨hpercent, hinter, hphase, htop⟩ := s.progress.word_fields
    refine ⟨hpercent, hinter, hphase.trans ?_, htop⟩
    cases s.progress.phase <;> rfl

/-! ### Accesses that stop (R17, R38, R48) -/

/-- A step handles the host's next event. -/
theorem step_event {s : State} {i : Input} {rest : List Input} (hi : s.inputs = i :: rest) :
    step s = State.handle i { s with inputs := rest } := by
  unfold step State.advance
  rw [hi]

/-- Only a 32-bit access at a multiple of 4 is well formed (R48). -/
theorem accessWf_false {width off : Nat} (h : width ≠ 32 ∨ off % 4 ≠ 0) : accessWf width off = false := by
  rcases h with h | h <;> simp [accessWf, h]

/-- Settles O47: each of these accesses is the next event, and its first failing check names the stop. -/
theorem badAccessesStop : Obligations.BadAccessesStop := by
  intro s width off v b rest
  refine ⟨fun hbad hi => ?malformed, fun hoff h4 hi => ?beyondSpace, fun hoff hi => ?beyondOB⟩
  case malformed =>
    have hwf := accessWf_false hbad
    rcases hi with hi | hi <;> rw [step_event hi] <;> simp only [State.handle, hwf] <;> rfl
  case beyondSpace =>
    have hwf : accessWf 32 off = true := by simp [accessWf, h4]
    have hspace : offsetInSpace off = false := decide_eq_false (by omega)
    rcases hi with hi | hi <;> rw [step_event hi] <;> simp only [State.handle, hwf, hspace] <;> rfl
  case beyondOB =>
    rcases hi with hi | hi <;> rw [step_event hi] <;> exact if_neg (Nat.not_lt.2 hoff)

end Sys2Proof.Machine
end

section
/-! Command words (30_encoding.md section 1): which words decode and which are refused (R56 to R58), and that a step
runs the word it decodes (R12, R19). -/

namespace Sys2Proof.Machine

/-! ### Refused words (R58) -/

/-- The opcode map refuses OP 0 and OP from 8 up, and nothing else (R57). -/
theorem opOf_eq_error_iff (op : Byte) (e : DecodeError) :
    opOf op = .error e ↔ e = .undefinedOpcode ∧ (op.toNat = 0 ∨ 8 ≤ op.toNat) := by
  by_cases h : op.toNat < 8
  · unfold opOf
    interval_cases op.toNat <;> simp [eq_comm]
  · have hmap : opOf op = .error .undefinedOpcode := by
      unfold opOf
      split <;> first | omega | rfl
    rw [hmap, Except.error.injEq, eq_comm]
    exact ⟨fun he => ⟨he, .inr (by omega)⟩, And.left⟩

/-- The reserved field is looked at first, and OP only when it is 0 (R56). -/
theorem decode_eq_reservedBits_iff (w : Word) : decode w = .error .reservedBits ↔ w.extractLsb' 8 24 ≠ 0#24 := by
  unfold decode
  by_cases h : w.extractLsb' 8 24 = 0#24
  · simp [h, opOf_eq_error_iff]
  · simp [h]

theorem decode_eq_undefinedOpcode_iff (w : Word) :
    decode w = .error .undefinedOpcode ↔
      w.extractLsb' 8 24 = 0#24 ∧ ((w.extractLsb' 0 8).toNat = 0 ∨ 8 ≤ (w.extractLsb' 0 8).toNat) := by
  unfold decode
  by_cases h : w.extractLsb' 8 24 = 0#24
  · simp [h, opOf_eq_error_iff]
  · simp [h]

/-- Settles O2: `decode_eq_ok_iff`, and one lemma for each refusal. -/
theorem decodeIsTheInverseOfEncode : Obligations.DecodeIsTheInverseOfEncode := fun w =>
  ⟨decode_eq_ok_iff w, decode_eq_reservedBits_iff w, decode_eq_undefinedOpcode_iff w⟩

/-- Settles O1: the seven words are the encodings of the commands, and each other word meets its refusal's condition. -/
theorem tableWordsDecode : Obligations.TableWordsDecode := by
  have hop := fun {w : Word} => (decode_eq_undefinedOpcode_iff w).2
  have hrsv := fun {w : Word} => (decode_eq_reservedBits_iff w).2
  exact ⟨decode_encode .init, decode_encode .split, decode_encode .unsplit, decode_encode .clear,
    decode_encode .clearAndClose, decode_encode .reseed, decode_encode .transpose, hop (by decide), hop (by decide),
    hop (by decide), hrsv (by decide), hrsv (by decide)⟩

/-- R58's illegal words are those that encode no command. -/
theorem illegalWord_iff (w : Word) :
    (w.extractLsb' 0 8 = 0#8 ∨ 8 ≤ (w.extractLsb' 0 8).toNat ∨ w.extractLsb' 8 24 ≠ 0#24) ↔ ∀ i, w ≠ encode i := by
  have hzero : w.extractLsb' 0 8 = 0#8 ↔ (w.extractLsb' 0 8).toNat = 0 := BitVec.toNat_eq
  have hrefused : (∀ i, w ≠ encode i) ↔ ∃ e, decode w = .error e := by
    simp only [ne_eq, ← decode_eq_ok_iff]
    cases decode w <;> simp
  rw [hrefused, hzero]
  constructor
  · intro hill
    by_cases hrsv : w.extractLsb' 8 24 = 0#24
    · exact ⟨_, (decode_eq_undefinedOpcode_iff w).2 ⟨hrsv, by tauto⟩⟩
    · exact ⟨_, (decode_eq_reservedBits_iff w).2 hrsv⟩
  · rintro ⟨_ | _, he⟩
    · exact .inr (.inr ((decode_eq_reservedBits_iff w).1 he))
    · exact ((decode_eq_undefinedOpcode_iff w).1 he).2.imp_right .inl

/-! ### The step of a command word (R12, R19, R36) -/

/-- Written to CMD while BUSY = 0, any word runs, a command's or an illegal one (R19, R58). -/
theorem step_writeCmdWord {s : State} {w : Word} {rest : List Input} (hs : s.seq = none)
    (hi : s.inputs = .write 32 0x000 w :: rest) : step s = State.runWord w { s with inputs := rest } := by
  rw [step_write hi (by decide) (by decide), State.hostWrite_idle (s := { s with inputs := rest }) hs]
  exact if_pos rfl

/-- Settles O3: such a word encodes no command (`illegalWord_iff`), and so is answered at once (`runWord_cases`). -/
theorem illegalWordChangesOnlyStatus : Obligations.IllegalWordChangesOnlyStatus := by
  intro s w rest hs hi
  rw [illegalWord_iff, step_writeCmdWord hs hi]
  rcases runWord_cases w { s with inputs := rest } with ⟨i, hw, hrun⟩ | ⟨hne, hrun⟩
  · exact ⟨fun hill => absurd hw (hill i), fun _ => ⟨i, hw, hrun⟩⟩
  · exact ⟨fun _ => by rw [hrun, hs], fun hlegal => absurd hne hlegal⟩

/-- While DONE = 0 the step of WAIT completes the running command, and WAIT stays (R63). -/
theorem step_waitCompletes {s : State} {q : Seq} {rest : List Input} (hq : s.seq = some q) (hst : q.stalled = false)
    (hd : s.done = false) (hi : s.inputs = .wait :: rest) : step s = s.runWord q.word := by
  have hcomplete : s.completeRunning = some (s.runWord q.word) := by simp [State.completeRunning, hq, hst]
  have hstay : ({ s with inputs := .wait :: rest } : State) = s := by rw [← hi]
  rw [step_event hi, State.handle, if_neg (by simp [hd])]
  dsimp only
  rw [hstay, hcomplete]

/-- The command word of the next event runs in the state with that event taken off (R36, R63). -/
theorem step_nextWord {s : State} {w : Word} (h : s.nextWord = some w) : step s = s.taken.runWord w := by
  have hrunning : ∀ {w : Word}, (s.seq.bind fun q => if q.stalled then none else some q.word) = some w →
      ∃ q, s.seq = some q ∧ q.stalled = false ∧ q.word = w := by
    intro w h
    obtain ⟨q, hq, h⟩ := Option.bind_eq_some_iff.1 h
    exact ⟨q, hq, by simpa using h⟩
  unfold State.nextWord at h
  unfold State.taken
  split at h
  next v rest hi =>
    have ⟨hb, hw⟩ : s.busy = false ∧ v = w := by simpa using h
    rw [step_writeCmdWord ((State.busy_false s).1 hb) hi, hi, hw]
    rfl
  next rest hi =>
    obtain ⟨q, hq, hst, rfl⟩ := hrunning h
    rw [step_complete hq hst hi, hi]
    rfl
  next rest hi =>
    split at h
    next => cases h
    next hd =>
      obtain ⟨q, hq, hst, rfl⟩ := hrunning h
      rw [step_waitCompletes hq hst (eq_false_of_ne_true hd) hi, hi]
  next => cases h

/-- Settles O4: `step_nextWord`; a CMD write while BUSY = 0 is such an event, and `withFetchWord` places one. -/
theorem stepRunsTheDecodedCommand : Obligations.StepRunsTheDecodedCommand := by
  refine ⟨fun s w i hw hd => ?decoded, fun s w rest hs hi => ?cmd, fun s i => ?fetch⟩
  case decoded =>
    obtain rfl := encode_of_decode hd
    rw [step_nextWord hw, State.runWord_encode]
  case cmd =>
    have hb := (State.busy_false s).2 hs
    constructor
    · simp [State.nextWord, hi, hb]
    · simp [State.taken, hi]
  case fetch =>
    have hword : BitVec.ofNat 32 ((encode i).toNat % 2 ^ 32) = encode i := by
      rw [Nat.mod_eq_of_lt (encode i).isLt, BitVec.ofNat_toNat, BitVec.setWidth_eq]
    rw [State.withFetchWord, hword]
    exact step_writeCmd rfl rfl

end Sys2Proof.Machine
end

section
/-! The token word (30_encoding.md section 2): its packing, and which words are valid (R59). -/

namespace Sys2Proof.Machine

/-- Entry `j` of a token is digit `j` of the word in base 8 (R59). -/
theorem tokenOf_get (w : BitVec 24) (j : Fin 8) : ((tokenOf w).get j).val = w.toNat / 8 ^ j.val % 8 := by
  rw [tokenOf, Vector.get_ofFn, BitVec.val_toFin, BitVec.extractLsb'_toNat, Nat.shiftRight_eq_div_pow, Nat.pow_mul]

/-- The lowest `m` digits of a number in base 8, each shifted to its place, add up to its remainder. -/
theorem octalDigits_sum (x m : Nat) :
    (List.range m).foldl (fun n j => n + (x / 8 ^ j % 8) <<< (3 * j)) 0 = x % 8 ^ m := by
  induction m with
  | zero => simp [Nat.mod_one]
  | succ m ih =>
    rw [List.range_succ, List.foldl_append, ih, List.foldl_cons, List.foldl_nil, Nat.shiftLeft_eq, Nat.pow_mul,
      Nat.mod_pow_succ, Nat.mul_comm (8 ^ m)]

/-- The token's entries, each shifted to its place, add up to the word (R59). -/
theorem tokenOf_sum (w : BitVec 24) :
    (List.finRange 8).foldl (fun n j => n + (((tokenOf w).get j).val <<< (3 * j.val))) 0 = w.toNat := by
  have hdigits := octalDigits_sum w.toNat 8
  rw [Nat.mod_eq_of_lt (show w.toNat < 8 ^ 8 from w.isLt), ← List.map_coe_finRange_eq_range, List.foldl_map] at hdigits
  simpa only [tokenOf_get] using hdigits

/-- A token is valid when it reaches every plane: on 8 planes that is the same as naming none twice (R59). -/
theorem tokenValid_iff_surjective (t : Token) : tokenValid t = true ↔ Function.Surjective t.get := by
  refine ⟨tokenValid_surjective, fun hsurj => ?_⟩
  have hinj : Function.Injective t.get := Finite.injective_iff_surjective.2 hsurj
  refine decide_eq_true (List.nodup_iff_injective_getElem.2 fun i j hij => ?_)
  have hi := i.isLt
  have hj := j.isLt
  simp only [Vector.length_toList] at hi hj
  have hplace : (⟨i.val, hi⟩ : Fin 8) = ⟨j.val, hj⟩ := hinj hij
  exact Fin.ext (Fin.mk.inj hplace)

/-- Settles O11: the packing is `tokenOf_sum`, validity `tokenValid_iff_surjective`, and the check of R76 is
`State.nextToken_eq`. -/
theorem tokenWordPacking : Obligations.TokenWordPacking :=
  ⟨tokenOf_sum, tokenValid_iff_surjective, by decide, State.nextToken_eq⟩

end Sys2Proof.Machine
end

section
/-! The host script (30_encoding.md section 6): the writes of LDKEY1 and LDKEY2 load the given key (R63). -/

namespace Sys2Proof.Machine

/-! ### Words written to a key buffer (R27, R47) -/

/-- A key buffer after words are written to it from word `i` up. -/
def storeWords (key : List Byte) : Nat → List Word → List Byte
  | _, [] => key
  | i, w :: ws => storeWords (writeKeyWord key i w) (i + 1) ws

/-- The bytes below the first word written stay. -/
theorem storeWords_below {key : List Byte} {i b : Nat} {ws : List Word} (hfit : 4 * (i + ws.length) ≤ key.length)
    (hb : b < 4 * i) : (storeWords key i ws)[b]? = key[b]? := by
  induction ws generalizing key i with
  | nil => rfl
  | cons w ws ih =>
    rw [List.length_cons] at hfit
    obtain ⟨-, -, hother⟩ := writeKeyWord_set (key := key) (i := i) w (by omega)
    rw [storeWords, ih (by rw [writeKeyWord_length]; omega) (by omega), hother b (by omega)]

/-- Byte `m` of word `j` of those written stands at its place (R47). -/
theorem storeWords_byte {key : List Byte} {i j m : Nat} {ws : List Word} (hfit : 4 * (i + ws.length) ≤ key.length)
    (hj : j < ws.length) (hm : m < 4) : (storeWords key i ws)[4 * (i + j) + m]? = some (wordByte ws[j] m) := by
  induction ws generalizing key i j with
  | nil => cases hj
  | cons w ws ih =>
    rw [List.length_cons] at hfit hj
    have hfit' : 4 * (i + 1 + ws.length) ≤ (writeKeyWord key i w).length := by rw [writeKeyWord_length]; omega
    rw [storeWords]
    cases j with
    | zero =>
      obtain ⟨-, hbytes, -⟩ := writeKeyWord_set (key := key) (i := i) w (by omega)
      rw [storeWords_below hfit' (by omega)]
      exact hbytes m hm
    | succ j =>
      rw [show i + (j + 1) = i + 1 + j by omega]
      exact ih hfit' (by omega)

@[simp] theorem keyWordsOf_length (bytes : List Byte) : (keyWordsOf bytes).length = (bytes.length + 3) / 4 := by
  simp [keyWordsOf]

/-- Byte `m` of word `j` of a key is the key's byte `4j + m`, or padding (R63). -/
theorem wordByte_keyWordsOf {bytes : List Byte} {j m : Nat} (hj : j < (keyWordsOf bytes).length) (hm : m < 4) :
    wordByte (keyWordsOf bytes)[j] m = bytes.getD (4 * j + m) 0#8 := by
  simp only [keyWordsOf, List.getElem_map, List.getElem_range]
  obtain ⟨h0, h1, h2, h3⟩ := wordByte_packWord (bytes.getD (4 * j) 0#8) (bytes.getD (4 * j + 1) 0#8)
    (bytes.getD (4 * j + 2) 0#8) (bytes.getD (4 * j + 3) 0#8)
  interval_cases m <;> assumption

/-- A buffer that the words of a key are written to begins with the key. -/
theorem storeWords_take {key bytes : List Byte} (hfit : 4 * (keyWordsOf bytes).length ≤ key.length) :
    (storeWords key 0 (keyWordsOf bytes)).take bytes.length = bytes := by
  refine List.ext_getElem? fun b => ?_
  by_cases hb : b < bytes.length
  · have hword : b / 4 < (keyWordsOf bytes).length := by rw [keyWordsOf_length]; omega
    have hbyte := storeWords_byte (key := key) (i := 0) (by omega) hword (Nat.mod_lt b (by decide))
    rw [wordByte_keyWordsOf hword (Nat.mod_lt b (by decide)), Nat.zero_add, Nat.div_add_mod] at hbyte
    rw [List.getElem?_take_of_lt hb, hbyte, List.getD_eq_getElem _ _ hb, List.getElem?_eq_getElem hb]
  · rw [List.getElem?_eq_none (by simp; omega), List.getElem?_eq_none (by omega)]

/-! ### The writes of LDKEYn as steps -/

/-- Writes of key words from word `i` up run to the end where each is a step that writes its word. `unit key es` is the
unit with this key buffer and these events to come. -/
theorem run_keyWords {unit : List Byte → List Input → State} {keyOff n : Nat}
    (hstep : ∀ key i v es, i < n →
      step (unit key (.write 32 (keyOff + 4 * i) v :: es)) = .next (unit (writeKeyWord key i v) es))
    {ws : List Word} {key : List Byte} {i : Nat} (hn : i + ws.length ≤ n) (rest : List Input) :
    Sys2Proof.core.run ws.length (unit key (ws.mapIdx (fun j w => .write 32 (keyOff + 4 * (i + j)) w) ++ rest)) =
      .next (unit (storeWords key i ws) rest) := by
  induction ws generalizing key i with
  | nil => rfl
  | cons w ws ih =>
    rw [List.length_cons] at hn
    have hnext : (ws.mapIdx fun j w => Input.write 32 (keyOff + 4 * (i + (j + 1))) w) =
        ws.mapIdx fun j w => .write 32 (keyOff + 4 * (i + 1 + j)) w := by
      congr 1; funext j w; congr 2; omega
    rw [List.mapIdx_cons, hnext, List.cons_append, List.length_cons]
    exact (run_of_step Sys2Proof.core _ (hstep key i w _ (by omega))).trans (ih (by omega))

/-- The writes of LDKEYn run to the end: the step of the length, then those of the words. -/
theorem run_loadKey {unit : List Byte → List Input → State} {s : State} {lenOff keyOff n : Nat} {key bytes : List Byte}
    {rest : List Input}
    (hlen : ∀ es, s.inputs = .write 32 lenOff (BitVec.ofNat 32 bytes.length) :: es → step s = .next (unit key es))
    (hstep : ∀ key i v es, i < n →
      step (unit key (.write 32 (keyOff + 4 * i) v :: es)) = .next (unit (writeKeyWord key i v) es))
    (hn : (keyWordsOf bytes).length ≤ n) (hi : s.inputs = loadKey lenOff keyOff bytes ++ rest) :
    Sys2Proof.core.run (loadKey lenOff keyOff bytes).length s =
      .next (unit (storeWords key 0 (keyWordsOf bytes)) rest) := by
  have hwords := run_keyWords hstep (ws := keyWordsOf bytes) (key := key) (i := 0) (by omega) rest
  simp only [Nat.zero_add] at hwords
  rw [loadKey, List.length_cons, List.length_mapIdx]
  exact (run_of_step Sys2Proof.core _ (hlen _ hi)).trans hwords

/-- In UNINIT the step of a write of KEY1_LEN stores the length (R26). -/
theorem step_writeKey1Len {s : State} {v : Word} {rest : List Input} (hs : s.seq = none) (hu : s.lifecycle = .uninit)
    (hi : s.inputs = .write 32 0x02C v :: rest) :
    step s = .next { s with inputs := rest, key1Len := legalKeyLen s.params v } := by
  rw [step_writeReg (r := .key1Len) hs hi (by decide) (by decide) rfl (by decide), State.writeReg, if_pos hu]

/-- In UNINIT the step of a write of KEY2_LEN stores the length (R26). -/
theorem step_writeKey2Len {s : State} {v : Word} {rest : List Input} (hs : s.seq = none) (hu : s.lifecycle = .uninit)
    (hi : s.inputs = .write 32 0x030 v :: rest) :
    step s = .next { s with inputs := rest, key2Len := legalKeyLen s.params v } := by
  rw [step_writeReg (r := .key2Len) hs hi (by decide) (by decide) rfl (by decide), State.writeReg, if_pos hu]

section
variable {s : State} {i : Nat} {v : Word} {rest : List Input} (hs : s.seq = none) (hu : s.lifecycle = .uninit)
  (hp : s.params.wf = true) (hk : i < s.params.keyWords)
include hs hu hp hk

/-- In UNINIT the step of a write of a word of key 1 stores the word (R27). -/
theorem step_writeKey1 (hi : s.inputs = .write 32 (0x100 + 4 * i) v :: rest) :
    step s = .next { s with inputs := rest, key1 := writeKeyWord s.key1 i v } := by
  have h64 := keyWord_lt hp hk
  rw [step_writeReg hs hi (by omega) (by omega) (regAt_key1 h64) (by simp), State.writeReg, if_pos ⟨hu, hk⟩]

/-- In UNINIT the step of a write of a word of key 2 stores the word (R27). -/
theorem step_writeKey2 (hi : s.inputs = .write 32 (0x200 + 4 * i) v :: rest) :
    step s = .next { s with inputs := rest, key2 := writeKeyWord s.key2 i v } := by
  have h64 := keyWord_lt hp hk
  rw [step_writeReg hs hi (by omega) (by omega) (regAt_key2 h64) (by simp), State.writeReg, if_pos ⟨hu, hk⟩]

end

/-- A script of one statement is the statement's events (R63). -/
theorem hostProgram_single (st : Stmt) : hostProgram [st] = st.expand := List.flatMap_singleton ..

/-- The words of a key that fits lie in its buffer, and its length is stored as it is (R7, R26). -/
theorem keyFits {p : Params} {bytes : List Byte} (hp : p.wf = true) (hb : bytes.length ≤ p.keyMax) :
    (keyWordsOf bytes).length ≤ p.keyWords ∧
    (legalKeyLen p (BitVec.ofNat 32 bytes.length)).toNat = bytes.length := by
  have hmax : p.keyMax = 4 * p.keyWords := rfl
  simp only [Params.wf, Bool.and_eq_true, decide_eq_true_eq] at hp
  rw [keyWordsOf_length, legalKeyLen_toNat (by simpa [Params.wf] using hp), BitVec.toNat_ofNat]
  omega

/-- Settles O39: the writes run (`run_loadKey`), the buffer then begins with the key (`storeWords_take`), and the key
length says where it ends. -/
theorem loadKeyLoadsTheKey : Obligations.LoadKeyLoadsTheKey := by
  intro s bytes rest hs hu ⟨hlen1, hlen2, _, _⟩ hp hb
  obtain ⟨hwords, hlen⟩ := keyFits hp hb
  have hfit : 4 * (keyWordsOf bytes).length ≤ s.params.keyMax := Nat.mul_le_mul_left 4 hwords
  simp only [hostProgram_single, Stmt.expand]
  constructor <;> intro hi
  · refine ⟨_, run_loadKey (unit := fun key es => { s with
      inputs := es, key1 := key, key1Len := legalKeyLen s.params (BitVec.ofNat 32 bytes.length) }) (key := s.key1)
      (fun es he => step_writeKey1Len hs hu he) (fun key i v es hk => ?_) hwords hi, rfl, ?_⟩
    · exact step_writeKey1 (s := { s with inputs := _, key1 := key, key1Len := _ }) hs hu hp hk rfl
    · rw [State.keyBytes1, hlen, storeWords_take (hlen1 ▸ hfit)]
  · refine ⟨_, run_loadKey (unit := fun key es => { s with
      inputs := es, key2 := key, key2Len := legalKeyLen s.params (BitVec.ofNat 32 bytes.length) }) (key := s.key2)
      (fun es he => step_writeKey2Len hs hu he) (fun key i v es hk => ?_) hwords hi, rfl, ?_⟩
    · exact step_writeKey2 (s := { s with inputs := _, key2 := key, key2Len := _ }) hs hu hp hk rfl
    · rw [State.keyBytes2, hlen, storeWords_take (hlen2 ▸ hfit)]

end Sys2Proof.Machine
end

section
/-! The alignment header (30_encoding.md section 3): an UNSPLIT takes from its header byte the low 3 bits, and its pass
reads IB from behind that byte (R60, R106). -/

namespace Sys2Proof.Machine

/-! ### Loops and runs that agree -/

/-- Two loops whose turns agree wherever an invariant of the first holds agree, and end where it holds. -/
theorem foldlM_congr_of_invariant {σ α : Type} {f g : σ → α → Run σ} (I : σ → Prop)
    (hfg : ∀ a s, I s → f s a = g s a) (hkeep : ∀ a s t, I s → f s a = .ok t → I t) (l : List α) {s : σ}
    (hs : I s) :
    l.foldlM f s = l.foldlM g s ∧ ∀ t, l.foldlM f s = .ok t → I t := by
  induction l generalizing s with
  | nil =>
    refine ⟨rfl, fun t ht => ?_⟩
    cases ht
    exact hs
  | cons a l ih =>
    simp only [List.foldlM_cons, ← hfg a s hs]
    cases hr : f s a with
    | error e => exact ⟨rfl, fun t ht => by cases ht⟩
    | ok u => exact ih (hkeep a s u hs hr)

/-- Two runs that start alike and go on alike but for a map of the result agree but for that map. -/
theorem Run.bind_map_congr {α β : Type} {x y : Run α} {f g : α → Run β} (G : β → β) (hx : x = y)
    (hf : ∀ a, f a = (g a).map G) : (x >>= f) = (y >>= g).map G := by
  subst hx
  cases x with
  | error e => rfl
  | ok a => exact hf a

/-! ### Two inputs that agree from the planes on -/

section
variable {ib jb : List Byte} {H : Nat} (hib : ∀ a, H ≤ a → jb[a]? = ib[a]?)
include hib

/-- Demultiplexing a plane from `H` or beyond reads the same of both inputs, and ends beyond (R106). -/
theorem State.demuxPlane_congr {pe : Bool} {z : PassSize} {k : Fin 8} {s : State} (hs : H ≤ s.ipos) :
    s.demuxPlane pe z jb k = s.demuxPlane pe z ib k ∧ ∀ t, s.demuxPlane pe z jb k = .ok t → H ≤ t.ipos := by
  obtain ⟨hloop, hpos⟩ := foldlM_congr_of_invariant (f := State.demuxByte jb k) (g := State.demuxByte ib k)
    (fun s => H ≤ s.ipos) (fun o s hs => by rw [State.demuxByte, State.demuxByte, hib _ hs])
    (fun o s t hs ht => by
      unfold State.demuxByte at ht
      split at ht
      next => cases ht; exact Nat.le_succ_of_le hs
      next => cases ht)
    (List.range z.planes) hs
  refine ⟨by rw [State.demuxPlane, State.demuxPlane, hloop], fun t ht => ?_⟩
  obtain ⟨u, hu, ht⟩ := Run.of_bind ht
  cases ht
  rw [State.report_eq]
  exact hpos u hu

/-- An UNSPLIT pass of either header byte is the same on both inputs, but for what HDR records (R60, R104). -/
theorem State.unsplitPass_congr {pe : Bool} {z : PassSize} (hz : H ≤ z.header) (b c : Byte) (s : State) :
    s.unsplitPass pe z jb c = (s.unsplitPass pe z ib b).map fun t => { t with hdr := passHdr z c } := by
  unfold State.unsplitPass
  split
  next => rfl
  next =>
    obtain ⟨hdemux, -⟩ := foldlM_congr_of_invariant (f := State.demuxPlane pe z jb) (g := State.demuxPlane pe z ib)
      (fun s => H ≤ s.ipos) (fun k s hs => (State.demuxPlane_congr hib hs).1)
      (fun k s t hs => (State.demuxPlane_congr hib hs).2 t) (List.finRange 8) (s := s.startPass z.header) hz
    refine Run.bind_map_congr _ hdemux fun s => ?_
    refine Run.bind_map_congr _ rfl fun s => ?_
    exact Run.bind_map_congr _ rfl fun s => rfl

end

/-! ### An UNSPLIT on another IB -/

/-- An UNSPLIT pass leaves the host's events to come (R36): it runs the same with those events put there again. -/
theorem State.unsplitPass_inputs {pe : Bool} {z : PassSize} {ib : List Byte} {b : Byte} {s t : State}
    (h : s.unsplitPass pe z ib b = .ok t) : t.inputs = s.inputs := by
  have hself := State.unsplitPass_rehost s.ib s.seq s.inputs pe z ib b s
  rw [show s.rehost s.ib s.seq s.inputs = s from rfl, h] at hself
  have ht : t = t.rehost s.ib s.seq s.inputs := Except.ok.inj hself
  rw [ht]
  rfl

/-- The end of a pass is the same for another record in HDR, but for HDR. -/
theorem State.finishPass_hdr (hdr : Header) (q : Seq) (z : PassSize) (r : Run State) (a : State) :
    State.finishPass q z (r.map fun t => { t with hdr := hdr }) a =
      { State.finishPass q z r a with hdr := (State.finishPass q z (r.map fun t => { t with hdr := hdr }) a).hdr } := by
  cases r <;> rfl

/-- UNSPLIT issued in READY while BUSY = 0, its header read: the pass over IB as it stands (R104). -/
theorem execUnsplit_idle {s : State} {b : Byte} (hs : s.seq = none) (hr : s.lifecycle = .ready)
    (hb : unsplitHeaderByte s.inLen.toNat s.ib = some b) :
    exec .unsplit s = .next (State.finishPass ⟨encode .unsplit, s.inLen, s.ctl, false, [], []⟩
      (unsplitSize s.inLen.toNat (headerRem b))
      ((s.accept (encode .unsplit)).unsplitPass s.ctl.progEn (unsplitSize s.inLen.toNat (headerRem b)) s.ib b)
      (s.accept (encode .unsplit))) := by
  rw [execUnsplit_header hr (by rwa [State.deliveredIB_idle hs, State.latch_idle hs]), State.deliveredIB_idle hs,
    State.latch_idle hs]

/-- The header byte of an UNSPLIT whose IN_LEN has a remainder is the first byte of IB (R105). -/
theorem unsplitHeaderByte_cons {T : Nat} (hT : T % 8 ≠ 0) (b : Byte) (ib : List Byte) :
    unsplitHeaderByte T (b :: ib) = some b := by
  exact if_pos (if_pos hT)

/-- Settles O33: outside READY an UNSPLIT does not look at IB; in READY the two headers give the same sizes, the pass is
the same but for HDR (`State.unsplitPass_congr`), and it carries IB along untouched (`State.unsplitPass_rehost`). -/
theorem unsplitIgnoresHeaderNoise : Obligations.UnsplitIgnoresHeaderNoise := by
  intro s b c rest hs hT hib hrem
  cases hr : s.lifecycle.notReady with
  | some e =>
    refine ⟨{ s with seq := none, done := true, err := e },
      { s with ib := c :: rest, seq := none, done := true, err := e }, ?_, ?_, rfl⟩ <;>
      simp only [exec, execUnsplit, State.accept_lifecycle, hr] <;> rfl
  | none =>
    have hready := Lifecycle.notReady_none.1 hr
    have hheader : 1 ≤ (unsplitSize s.inLen.toNat (headerRem b)).header := (if_pos hT).ge
    have hbehind : ∀ a, 1 ≤ a → (c :: rest)[a]? = s.ib[a]? := fun a ha => by
      rw [hib, List.getElem?_cons, List.getElem?_cons, if_neg (by omega), if_neg (by omega)]
    refine ⟨_, _, execUnsplit_idle hs hready (hib ▸ unsplitHeaderByte_cons hT b rest),
      execUnsplit_idle (s := { s with ib := c :: rest }) hs hready (unsplitHeaderByte_cons hT c rest), ?_⟩
    rw [State.accept_onIB hs, State.unsplitPass_rehost, hrem, State.unsplitPass_congr hbehind hheader b c]
    rw [State.finishPass_rehost (c :: rest) _ _ fun t ht => ?inputs, State.finishPass_hdr]
    case inputs =>
      rw [← State.unsplitPass_congr hbehind hheader b c] at ht
      exact State.unsplitPass_inputs ht

end Sys2Proof.Machine
end

section
/-! The transpose and TRANSPOSE (40_transpose.md): bits (R65), involution (R66), and the command on the block held in
XDATA0 and XDATA1 (R31, R68). -/

namespace Sys2Proof.Machine

/-! ### Blocks as bit matrices (R64, R65) -/

/-- Settles O7: byte `i` of the transpose is lane `i` (`transpose_get`), whose bits are those of `transposeLane_bit`. -/
theorem transposeBits : Obligations.TransposeBits := by
  intro b i j
  rw [transpose_get, transposeLane_bit]

/-- Two blocks are equal when their bit matrices are (R64). -/
theorem Block.eq_of_bits {b c : Block} (h : ∀ i j : Fin 8, (b.get i).getLsbD j.val = (c.get i).getLsbD j.val) :
    b = c :=
  Vector.ext fun i hi => BitVec.eq_of_getLsbD_eq fun j hj => h ⟨i, hi⟩ ⟨j, hj⟩

/-- Settles O8: each transpose swaps the two indices of a bit (`transposeBits`), and two swaps give the bit back. -/
theorem transposeIsInvolution : Obligations.TransposeIsInvolution := fun b =>
  Block.eq_of_bits fun i j => calc
    ((transpose (transpose b)).get i).getLsbD j.val
    _ = ((transpose b).get j).getLsbD i.val := transposeBits (transpose b) i j
    _ = (b.get i).getLsbD j.val := transposeBits b j i

/-! ### The block in XDATA0 and XDATA1 (R31) -/

/-- Bit `j` of byte `m` of a word is bit `8m + j` of the word (R47). -/
theorem wordByte_bit (w : Word) (m : Nat) (j : Fin 8) : (wordByte w m).getLsbD j.val = w.getLsbD (8 * m + j.val) := by
  simp [wordByte]

/-- Bit `j` of byte `i` of the block: XDATA0 holds bytes 0..3 and XDATA1 bytes 4..7, little-endian (R31). -/
theorem xBlock_bit (x0 x1 : Word) (i j : Fin 8) :
    ((xBlock x0 x1).get i).getLsbD j.val = (if i.val < 4 then x0 else x1).getLsbD (8 * (i.val % 4) + j.val) := by
  rw [xBlock, Vector.get_ofFn]
  split
  next hlow => rw [wordByte_bit, Nat.mod_eq_of_lt hlow]
  next hhigh => rw [wordByte_bit, show i.val - 4 = i.val % 4 by omega]

/-! ### The command (R68) -/

/-- The block that TRANSPOSE leaves in XDATA0 and XDATA1 is the transpose of the one it found there (R68). -/
theorem State.transposeX_block (s : State) :
    xBlock s.transposeX.xdata0 s.transposeX.xdata1 = transpose (xBlock s.xdata0 s.xdata1) :=
  xBlock_pack _

/-- TRANSPOSE writes XDATA0, XDATA1 and STATUS alone, and succeeds in every lifecycle state (R68). -/
theorem exec_transpose_eq (s : State) :
    exec .transpose s = .next { s.transposeX with seq := none, done := true, err := .noError } := rfl

/-- Settles O9: the next state is that of `exec_transpose_eq`; its block is the transpose of the block found
(`State.transposeX_block`), read bit by bit (`xBlock_bit`). -/
theorem transposeCompletes : Obligations.TransposeCompletes := by
  intro s
  refine ⟨_, exec_transpose_eq s, rfl, fun i j => ?_⟩
  rw [← xBlock_bit, ← xBlock_bit, State.transposeX_block]
  exact transposeBits _ i j

end Sys2Proof.Machine
end

section
/-! The schedule and the keys (41_schedule.md): what a step can do to the schedule position (R74) and to the keys (R71),
and RESEED (R79). -/

namespace Sys2Proof.Machine

/-! ### RESEED (R79) -/

/-- Settles O10: the state check lets READY through, and n <- 0 is all that RESEED does before it completes. -/
theorem reseedCompletes : Obligations.ReseedCompletes := by
  intro s hready
  simp only [exec, execReseed, State.accept_lifecycle, hready, Lifecycle.notReady]
  rfl

/-! ### What a step can do to what the unit holds -/

/-- What the unit holds between commands is changed by a register write, a command that runs to its completion, and reset
only: an illegal word, an acceptance, a register read, a WAIT and an access to a stream leave it. -/
theorem step_held_cases {s t : State} (e : step s = .next t) :
    t.held = s.held ∨ (∃ r v rest, t = State.writeReg r v { s with inputs := rest }) ∨
    (∃ i, s.nextWord = some (encode i) ∧ Executed i s.taken t) ∨
    ∃ rest, s.inputs = .reset :: rest ∧ t = State.resetEvent { s with inputs := rest } := by
  cases step_cases e with
  | still ht => exact .inl (by rw [ht])
  | command w hw u hu ht =>
    subst hu
    rcases ht with ⟨i, rfl, hx⟩ | ht
    · exact .inr (.inr (.inl ⟨i, hw, hx⟩))
    · exact .inl (by rw [ht]; exact s.taken_held)
  | accepted w b rest _ _ i _ b' ht => exact .inl (by rw [ht]; rfl)
  | illegal w b rest _ _ ht => exact .inl (by rw [ht]; rfl)
  | wrote off v rest _ _ _ ht => exact .inr (.inl ⟨regAt off, v, rest, ht⟩)
  | ignored i rest _ _ b ht => exact .inl (by rw [ht]; rfl)
  | read off rest _ ht => exact .inl (by rw [ht, State.hostRead_held]; rfl)
  | waited rest _ _ ht => exact .inl (by rw [ht]; rfl)
  | setIB bytes rest _ ht => exact .inl (by rw [ht]; rfl)
  | wroteOB a v rest _ _ ht => exact .inl (by rw [ht]; rfl)
  | readOB a rest _ ht => exact .inl (by rw [ht, State.hostReadOB_held]; rfl)
  | reset rest hi ht => exact .inr (.inr (.inr ⟨rest, hi, ht⟩))

/-! ### The schedule position (R74, R134) -/

theorem State.n_of_held {s t : State} (h : t.held = s.held) : t.n = s.n := by
  change t.held.n = s.held.n
  rw [h]

theorem State.lifecycle_of_held {s t : State} (h : t.held = s.held) : t.lifecycle = s.lifecycle := by
  change t.held.lifecycle = s.held.lifecycle
  rw [h]

theorem State.writeReg_n (s : State) (r : Reg) (v : Word) : (s.writeReg r v).n = s.n := by
  rw [State.writeReg_frame]

/-- A command leaves the schedule position, or succeeds in zeroing it, or is a pass, which takes tokens in order and never
goes back, with or without error (R74, R134). -/
theorem Executed.n_cases {i : Instr} {s t : State} (h : Executed i s t) :
    t.n = s.n ∨
    (t.n = 0 ∧ (i = .init ∨ i = .reseed ∨ i = .clear ∨ i = .clearAndClose) ∧ t.err = .noError) ∨
    (s.n ≤ t.n ∧ s.lifecycle = .ready ∧ (i = .split ∨ i = .unsplit)) := by
  cases h with
  | refused _ ht => exact .inl (by rw [ht])
  | prepared hi _ _ ht => exact .inr (.inl ⟨by rw [ht]; rfl, .inl hi, by rw [ht]; rfl⟩)
  | reseeded hi _ ht => exact .inr (.inl ⟨by rw [ht], .inr (.inl hi), by rw [ht]⟩)
  | cleared hi _ _ ht => exact .inr (.inl ⟨by rw [ht]; rfl, .inr (.inr (.inl hi)), by rw [ht]; rfl⟩)
  | released hi _ _ ht => exact .inr (.inl ⟨by rw [ht]; rfl, .inr (.inr (.inr hi)), by rw [ht]; rfl⟩)
  | transposed _ ht => exact .inl (by rw [ht]; rfl)
  | split hi hs _ u hu ht =>
    have hle : s.n ≤ u.n := Nat.le.intro hu.n.symm
    exact .inr (.inr ⟨by rw [ht]; exact hle, hs, .inl hi⟩)
  | unsplit hi hs _ _ u hu ht =>
    have hle : s.n ≤ u.n := Nat.le.intro hu.n.symm
    exact .inr (.inr ⟨by rw [ht]; exact hle, hs, .inr hi⟩)
  | passFailed hi hs w code _ z ht => exact .inr (.inr ⟨ht.n.1, hs, hi⟩)

/-- Settles O12: of the events only a command that completes and reset move n (`step_held_cases`), and the command is one
of `Executed.n_cases`. -/
theorem schedulePositionChanges : Obligations.SchedulePositionChanges := by
  intro s t e hne
  rcases step_held_cases e with hheld | ⟨r, v, rest, rfl⟩ | ⟨i, hw, hx⟩ | ⟨rest, hi, rfl⟩
  · exact absurd (State.n_of_held hheld) hne
  · exact absurd (State.writeReg_n { s with inputs := rest } r v) hne
  · have hn : s.taken.n = s.n := State.n_of_held s.taken_held
    have hl : s.taken.lifecycle = s.lifecycle := State.lifecycle_of_held s.taken_held
    rcases hx.n_cases with hsame | ⟨hzero, hi, herr⟩ | ⟨hle, hready, hi⟩
    · exact absurd (hsame.trans hn) hne
    · exact .inl ⟨hzero, .inr ⟨i, hi, hw, herr⟩⟩
    · exact .inr ⟨Nat.lt_of_le_of_ne (hn ▸ hle) hne.symm, hl ▸ hready, i, hi, hw⟩
  · exact .inl ⟨rfl, .inl ⟨rest, hi⟩⟩

/-! ### The keys (R71, R121) -/

/-- Both key buffers and both key lengths of `t` are those of `s`. -/
def State.SameKeys (s t : State) : Prop :=
  t.key1 = s.key1 ∧ t.key2 = s.key2 ∧ t.key1Len = s.key1Len ∧ t.key2Len = s.key2Len

/-- The unit is closed, and its keys and their lengths are zeros (R117). -/
structure State.KeysWiped (t : State) : Prop where
  closed : t.lifecycle = .closed
  key1Len : t.key1Len = 0#32
  key2Len : t.key2Len = 0#32
  key1 : ∀ b ∈ t.key1, b = 0#8
  key2 : ∀ b ∈ t.key2, b = 0#8

theorem State.sameKeys_of_held {s t : State} (h : t.held = s.held) : s.SameKeys t := by
  change s.held.SameKeys t.held
  rw [h]
  exact ⟨rfl, rfl, rfl, rfl⟩

theorem State.SameKeys.trans {s t u : State} (h : s.SameKeys t) (h' : t.SameKeys u) : s.SameKeys u := by
  obtain ⟨h1, h2, h3, h4⟩ := h
  obtain ⟨h1', h2', h3', h4'⟩ := h'
  exact ⟨h1'.trans h1, h2'.trans h2, h3'.trans h3, h4'.trans h4⟩

theorem State.sameKeys_writeReg {s : State} (h : s.lifecycle ≠ .uninit) (r : Reg) (v : Word) :
    s.SameKeys (s.writeReg r v) := by
  obtain ⟨-, hlen1, hlen2, hkey1, hkey2⟩ := State.writeReg_frozen h r v
  exact ⟨hkey1, hkey2, hlen1, hlen2⟩

theorem State.clearCore_keysWiped (q : Seq) (s : State) :
    ((s.clearCore q).complete .noError .closed).KeysWiped :=
  ⟨rfl, rfl, rfl, fun _ => List.eq_of_mem_replicate, fun _ => List.eq_of_mem_replicate⟩

/-- A command leaves the keys, or is a wipe that succeeds (R71, R121). -/
theorem Executed.keys_cases {i : Instr} {s t : State} (h : Executed i s t) :
    s.SameKeys t ∨ (t.KeysWiped ∧ (i = .clear ∨ i = .clearAndClose)) := by
  cases h with
  | refused _ ht => exact .inl (State.sameKeys_of_held (by rw [ht]; rfl))
  | prepared _ _ _ ht => subst ht; exact .inl ⟨rfl, rfl, rfl, rfl⟩
  | reseeded _ _ ht => subst ht; exact .inl ⟨rfl, rfl, rfl, rfl⟩
  | cleared hi _ _ ht => exact .inr ⟨ht ▸ s.clearCore_keysWiped _, .inl hi⟩
  | released hi _ _ ht =>
    have hwiped := s.clearCore_keysWiped (s.latch (encode .clearAndClose))
    exact .inr ⟨ht ▸ ⟨rfl, rfl, rfl, hwiped.key1, hwiped.key2⟩, .inr hi⟩
  | transposed _ ht => exact .inl (State.sameKeys_of_held (by rw [ht]; rfl))
  | split _ _ hfit u hu ht =>
    obtain ⟨-, -, -, -, hkeys⟩ := (ht ▸ hu.passEnded (BitVec.isLt _) hfit : PassEnded s _ t).fields
    exact .inl hkeys
  | unsplit _ _ _ hfit u hu ht =>
    obtain ⟨-, -, -, -, hkeys⟩ :=
      (ht ▸ hu.passEnded (unsplitSize_planes_le _ (BitVec.isLt _)) hfit : PassEnded s _ t).fields
    exact .inl hkeys
  | passFailed _ _ w code _ z ht =>
    obtain ⟨-, -, -, -, hkeys⟩ := ht.fields
    exact .inl hkeys

/-- Settles O41: register writes leave the keys once the unit is initialized (`State.sameKeys_writeReg`), and of the
commands only a wipe changes them (`Executed.keys_cases`). -/
theorem keysChangeOnlyByWipe : Obligations.KeysChangeOnlyByWipe := by
  intro s t e hinit
  rcases step_held_cases e with hheld | ⟨r, v, rest, rfl⟩ | ⟨i, hw, hx⟩ | ⟨rest, hi, -⟩
  · exact .inl (State.sameKeys_of_held hheld)
  · exact .inl (State.sameKeys_writeReg (s := { s with inputs := rest }) hinit r v)
  · rcases hx.keys_cases with hsame | ⟨hwiped, hi⟩
    · exact .inl ((State.sameKeys_of_held s.taken_held).trans hsame)
    · exact .inr (.inr ⟨hwiped.closed, hwiped.key1Len, hwiped.key2Len, hwiped.key1, hwiped.key2, i, hi, hw⟩)
  · exact .inr (.inl ⟨rest, hi⟩)

end Sys2Proof.Machine
end

section
/-! The wipe (42_wipe.md): the end of a pass wipes BLK (R86). -/

namespace Sys2Proof.Machine

/-! ### The end of a pass (R86, R109, R134) -/

/-- The state check refuses no pass in READY (R92, R103). -/
theorem State.not_refused_of_ready {s : State} (h : s.lifecycle = .ready) (c : ErrCode) :
    s.lifecycle.notReady ≠ some c := by
  rw [Lifecycle.notReady_none.2 h]
  exact nofun

/-- A SPLIT in READY ends quiet: its pass runs to its end (R100) or fails (R134). -/
theorem exec_split_quiet {s : State} (hready : s.lifecycle = .ready) : ∃ t, exec .split s = .next t ∧ t.Quiet := by
  obtain ⟨t, e, ⟨c, hc, -⟩ | ⟨-, -, -, u, hu, ht⟩ | ⟨-, c, -, ht⟩⟩ := execSplit_cases s
  · exact absurd hc (State.not_refused_of_ready hready c)
  · exact ⟨t, e, ht ▸ hu.quiet⟩
  · exact ⟨t, e, ht.quiet⟩

/-- An UNSPLIT in READY ends quiet: its pass runs to its end (R109) or fails, at the header's read too (R134). -/
theorem exec_unsplit_quiet {s : State} (hready : s.lifecycle = .ready) :
    ∃ t, exec .unsplit s = .next t ∧ t.Quiet := by
  obtain ⟨t, e, ⟨c, hc, -⟩ | ⟨-, b, -, -, -, u, hu, ht⟩ | ⟨-, c, -, ht⟩⟩ := execUnsplit_cases s
  · exact absurd hc (State.not_refused_of_ready hready c)
  · exact ⟨t, e, ht ▸ hu.quiet⟩
  · exact ⟨t, e, ht.quiet⟩

/-- Settles O30: a pass in READY ends quiet (`exec_split_quiet`, `exec_unsplit_quiet`), BLK zero with it, whatever
CONFIG holds. -/
theorem passesWipeTheBlock : Obligations.PassesWipeTheBlock := by
  intro i s hi hready
  have hquiet : ∃ t, exec i s = .next t ∧ t.Quiet := by
    rcases hi with rfl | rfl
    · exact exec_split_quiet hready
    · exact exec_unsplit_quiet hready
  obtain ⟨t, e, hblk, -⟩ := hquiet
  exact ⟨t, e, hblk⟩

end Sys2Proof.Machine
end

section
/-! SPLIT (43_split.md): the state check (R92), the pass that completes (R94, R95, R100, R102), what it routes and
concatenates (R98, R99), and its invariants (R101). -/

namespace Sys2Proof.Machine

/-! ### The state check (R92, R103, R79) -/

/-- A pass or RESEED that the state check refuses raises its error and changes nothing but STATUS (R133). -/
theorem exec_notReady {i : Instr} {s : State} {c : ErrCode} (hi : i = .split ∨ i = .unsplit ∨ i = .reseed)
    (hc : s.lifecycle.notReady = some c) : exec i s = .next { s with seq := none, done := true, err := c } := by
  rcases hi with rfl | rfl | rfl
  · simp only [exec, execSplit, State.accept_lifecycle, hc, State.accept_checkError]
  · simp only [exec, execUnsplit, State.accept_lifecycle, hc, State.accept_checkError]
  · simp only [exec, execReseed, State.accept_lifecycle, hc, State.accept_checkError]

/-- Settles O21: the state check names the error (`Lifecycle.notReady`), and refuses alike (`exec_notReady`). -/
theorem passesAndReseedNeedReady : Obligations.PassesAndReseedNeedReady := by
  intro i s hi
  refine ⟨fun huninit => exec_notReady hi (by rw [huninit]; rfl), ?_⟩
  rintro (hclosed | hfailed)
  · exact exec_notReady hi (by rw [hclosed]; rfl)
  · exact exec_notReady hi (by rw [hfailed]; rfl)

/-! ### The alignment header of a SPLIT (R24, R60, R95) -/

/-- The noise drawn is one of 0..NOISE_MAX (R95). -/
theorem State.drawNoise_eq_ofNat (s : State) : ∃ noise ≤ s.params.noiseMax, s.drawNoise = BitVec.ofNat 8 noise :=
  ⟨_, Nat.le_of_lt_succ (Nat.mod_lt _ (Nat.succ_pos _)), rfl⟩

/-- The noise lies above the 3 bits of the remainder, so the header decodes to it (R60). -/
theorem headerRem_headerByte (noise : Byte) {rem : Nat} (h : rem < 8) : headerRem (headerByte noise rem) = rem := by
  have hnoise : ((noise <<< 3) &&& 0xF8#8) &&& 7#8 = 0#8 := by
    rw [BitVec.and_assoc, show (0xF8#8 &&& 7#8) = 0#8 by decide, BitVec.and_zero]
  have hrem : (BitVec.ofNat 8 rem &&& 7#8).toNat = rem := by
    rw [BitVec.toNat_and, BitVec.toNat_ofNat, BitVec.toNat_ofNat]
    exact (Nat.and_two_pow_sub_one_eq_mod _ 3).trans (by omega)
  rw [headerRem, headerByte, BitVec.toNat_and, BitVec.toNat_or, Nat.and_or_distrib_right, ← BitVec.toNat_and,
    ← BitVec.toNat_and, hnoise, hrem]
  exact Nat.zero_or rem

theorem passHdr_splitSize_of_aligned {L : Nat} (h : L % 8 = 0) (b : Byte) : passHdr (splitSize L) b = Header.zero := by
  simp [passHdr, splitSize, h]

theorem passHdr_splitSize_of_unaligned {L : Nat} (h : L % 8 ≠ 0) (b : Byte) :
    passHdr (splitSize L) b = ⟨b, true, BitVec.ofNat 3 (L % 8)⟩ := by
  simp [passHdr, splitSize, h]

/-! ### A SPLIT that runs -/

/-- Settles O28: the pass of `exec_split_runs` has routed and concatenated so (`SplitDone`). -/
theorem splitWritesTheWireFormat : Obligations.SplitWritesTheWireFormat := by
  intro s h
  obtain ⟨u, hu, e⟩ := exec_split_runs h
  exact ⟨_, e, hu.routed, hu.n, fun k => (congrArg (·.get k) hu.plen).trans (get_replicate8 _ k), hu.planesOut⟩

/-- Settles O26: the pass of `exec_split_runs` has left all of it (`SplitDone`), with the reports of
`exec_split_log`. -/
theorem splitCompletes : Obligations.SplitCompletes := by
  intro s h
  obtain ⟨u, hu, e⟩ := exec_split_runs h
  have hlog := exec_split_log h e
  obtain ⟨hblk, hipos, hopos, hppos⟩ := hu.quiet
  refine ⟨_, e, rfl, rfl, ?outside, hu.outLen, hu.planeLen, hu.n, hu.plen, hblk, hipos, hopos, hppos, ?aligned,
    ?unaligned, ?reported, ?silent, hu.keptOB, hu.keptPM⟩
  case outside =>
    have hpass := congrArg (fun x : State => { x with
      lifecycle := .ready, seq := none, done := true, err := .noError, residue := true,
      epoch := s.epoch + 1 }) hu.outside
    refine hpass.trans ?_
    rw [← h.ready, ← h.idle]
    rfl
  case aligned => exact fun hL => hu.hdr.trans (passHdr_splitSize_of_aligned hL _)
  case unaligned =>
    intro hL
    have hout := hu.headerOut hL
    obtain ⟨noise, hle, hnoise⟩ := s.drawNoise_eq_ofNat
    refine ⟨?_, noise, hle, hnoise ▸ hout⟩
    exact (hu.hdr.trans (passHdr_splitSize_of_unaligned hL _)).trans (by rw [← hout]; rfl)
  case reported =>
    intro hpe
    have hlast : u.progress = ⟨100#7, false, .concat⟩ := hu.progress.trans (if_pos hpe)
    exact ⟨(congrArg Progress.word hlast).trans (by decide), hlog.trans (by rw [if_pos hpe])⟩
  case silent =>
    intro hpe
    exact ⟨hu.progress.trans (by rw [hpe]; rfl), hu.silent hpe⟩

/-! ### A SPLIT that succeeds (R101) -/

/-- The error that a failed pass leaves is the one it raised (R134). -/
theorem PassFailed.err {a t : State} {code : ErrCode} {z : PassSize} (h : PassFailed a code z t) : t.err = code :=
  congrArg State.err h.outside

theorem ErrCode.ofPass.ne_noError {code : ErrCode} (h : code.ofPass) : code ≠ .noError := by
  rcases h with rfl | rfl | rfl <;> decide

/-- The last block of a SPLIT ends with its input (R97). -/
theorem splitReadThrough_last {L : Nat} (h : 0 < (splitSize L).planes) :
    splitReadThrough L ((splitSize L).planes - 1) = L := by
  obtain ⟨-, hheader, hplanes, -, -⟩ := splitSize_counts L
  unfold splitReadThrough
  split_ifs at hheader ⊢ <;> omega

/-- A SPLIT that has read all its blocks has been delivered all its input (R42). -/
theorem splitRunsTo.le_length {s : State} {ib : List Byte} {L : Nat} (h : splitRunsTo s ib L (splitSize L).planes) :
    L ≤ ib.length := by
  obtain ⟨-, hheader, hplanes, -, -⟩ := splitSize_counts L
  rcases Nat.eq_zero_or_pos (splitSize L).planes with hnone | hsome
  · split_ifs at hheader <;> omega
  · obtain ⟨hread, -⟩ := h ((splitSize L).planes - 1) (by omega)
    rwa [splitReadThrough_last hsome] at hread

/-- A SPLIT issued while BUSY = 0 succeeds only under the conditions of `SplitRuns` (R92, R93, R42, R76). -/
theorem SplitRuns.of_noError {s t : State} (hs : s.seq = none) (hr : s.lifecycle = .ready)
    (e : exec .split s = .next t) (herr : t.err = .noError) : SplitRuns s := by
  obtain ⟨t', e', hcases⟩ := execSplit_cases s
  obtain rfl : t = t' := Host.Outcome.next.inj (e.symm.trans e')
  simp only [State.latch_idle hs, State.deliveredIB_quiet] at hcases
  rcases hcases with ⟨c, hc, -⟩ | ⟨-, hfit, hruns, -⟩ | ⟨-, code, hcode, hfailed⟩
  · exact absurd hc (State.not_refused_of_ready hr c)
  · obtain ⟨hplanes, hout⟩ := PassSize.tooBig_false.1 hfit
    exact ⟨hs, hr, hplanes, hout, hruns.le_length, fun b hb => (hruns b hb).2⟩
  · exact absurd (hfailed.err.symm.trans herr) hcode.ne_noError

/-- OUT_CAP fits a register (R7). -/
theorem Params.outCap_lt {p : Params} (h : p.wf = true) : p.outCap < 2 ^ 32 := by
  simp only [Params.wf, Bool.and_eq_true, decide_eq_true_eq] at h
  omega

/-- Settles O27: a SPLIT that succeeds is one that runs (`SplitRuns.of_noError`), and its registers are those of
`splitCompletes`; PLANE_LEN fits its register by the width of IN_LEN, OUT_LEN by OUT_CAP (R7, R93). -/
theorem splitLeavesEqualPlanes : Obligations.SplitLeavesEqualPlanes := by
  intro s t hs hr hwf e herr
  have hruns := SplitRuns.of_noError hs hr e herr
  obtain ⟨t', e', -, -, -, houtLen, hplaneLen, hn, hplen, -, -, -, -, haligned, hunaligned, -⟩ :=
    splitCompletes s hruns
  obtain rfl : t = t' := Host.Outcome.next.inj (e.symm.trans e')
  intro L H
  have hH : H ≤ 1 := by
    change (if L % 8 ≠ 0 then 1 else 0) ≤ 1
    split <;> decide
  have hplanes : t.planeLen.toNat = L / 8 + H := by
    rw [hplaneLen, BitVec.toNat_ofNat]
    exact Nat.mod_eq_of_lt (Nat.lt_of_le_of_lt (splitSize_planes_le s.inLen.isLt) (by decide))
  have hout : t.outLen.toNat = H + 8 * (L / 8 + H) := by
    rw [houtLen, BitVec.toNat_ofNat]
    exact Nat.mod_eq_of_lt (Nat.lt_of_le_of_lt hruns.output (Params.outCap_lt hwf))
  refine ⟨fun k => ⟨?_, hplanes⟩, ?_, hout, by omega, ?_, ?_, hn⟩
  · exact (congrArg (·.get k) hplen).trans (get_replicate8 _ k)
  · rw [hplen, Vector.toList_replicate, List.sum_replicate, smul_eq_mul]
    exact Nat.mul_add 8 _ _
  · by_cases hL : L % 8 = 0
    · simp [haligned hL, hL, Header.zero]
    · simp [(hunaligned hL).1, hL]
  · intro hL
    obtain ⟨hhdr, noise, -, hbyte⟩ := hunaligned hL
    rw [hhdr]
    refine ⟨?_, rfl⟩
    rw [hbyte]
    exact headerRem_headerByte _ (Nat.mod_lt _ (by decide))

end Sys2Proof.Machine
end

section
/-! UNSPLIT (44_unsplit.md): the pass that completes (R104, R105, R109, R110), what it demultiplexes and recovers
(R106 to R108), what it reads (R112), and the round trip (R111). -/

namespace Sys2Proof.Machine

/-! ### An UNSPLIT that runs -/

/-- A pass that has left all else as its acceptance did leaves, when it completes, what `State.passDone` says. -/
theorem State.complete_outsidePass_of_pass {s u : State} {w : Word} (hs : s.seq = none) (hr : s.lifecycle = .ready)
    (hu : u.outsidePass = (s.accept w).outsidePass) :
    (State.complete .noError .ready { u with residue := true, epoch := s.epoch + 1 }).outsidePass =
      s.passDone.outsidePass := by
  have hpass := congrArg (fun x : State => { x with
    lifecycle := .ready, seq := none, done := true, err := .noError, residue := true, epoch := s.epoch + 1 }) hu
  refine hpass.trans ?_
  rw [← hr, ← hs]
  rfl

/-- The remainder that a header byte decodes to is its low 3 bits (R24, R60). -/
theorem ofNat_headerRem (h : Byte) : BitVec.ofNat 3 (headerRem h) = h.extractLsb' 0 3 := by
  refine BitVec.eq_of_toNat_eq ?_
  rw [BitVec.toNat_ofNat, Nat.mod_eq_of_lt (headerRem_lt h), headerRem, BitVec.toNat_and, BitVec.extractLsb'_toNat]
  exact Nat.and_two_pow_sub_one_eq_mod _ 3

/-- HDR after an UNSPLIT records the header byte that its length says there is (R24, R105). -/
theorem passHdr_unsplitSize (T : Nat) (h : Byte) :
    passHdr (unsplitSize T (headerRem h)) h =
      if T % 8 ≠ 0 then ⟨h, true, h.extractLsb' 0 3⟩ else Header.zero := by
  by_cases hT : T % 8 = 0
  · simp [passHdr, unsplitSize, unsplitHeader, hT]
  · simp [passHdr, unsplitSize, unsplitHeader, hT, ofNat_headerRem]

/-- Settles O31: the pass of `exec_unsplit_runs` has left all of it (`UnsplitDone`), with the reports of
`exec_unsplit_log`. -/
theorem unsplitCompletes : Obligations.UnsplitCompletes := by
  intro s h hruns
  obtain ⟨u, hu, e⟩ := exec_unsplit_runs hruns
  have hlog := exec_unsplit_log hruns e
  obtain ⟨hblk, hipos, hopos, hppos⟩ := hu.quiet
  refine ⟨_, e, rfl, rfl, State.complete_outsidePass_of_pass hruns.idle hruns.ready hu.outside, hu.outLen,
    hu.planeLen, hu.n, hu.plen, hblk, hipos, hopos, hppos, hu.hdr.trans (passHdr_unsplitSize _ h), ?reported, ?silent,
    hu.keptOB, hu.keptPM⟩
  case reported =>
    intro hpe
    have hlast : u.progress = ⟨100#7, false, .recon⟩ := hu.progress.trans (if_pos hpe)
    exact ⟨(congrArg Progress.word hlast).trans (by decide), hlog.trans (by rw [if_pos hpe])⟩
  case silent =>
    intro hpe
    exact ⟨hu.progress.trans (by rw [hpe]; rfl), hu.silent hpe⟩

/-- Byte `o` of plane `k` lies below the end of 8 planes of `P` bytes (R106). -/
theorem planeOffset_lt {k o P : Nat} (hk : k < 8) (ho : o < P) : k * P + o < 8 * P := by
  have hplane := Nat.mul_le_mul_right P (Nat.succ_le_of_lt hk)
  rw [Nat.succ_mul] at hplane
  omega

/-- Settles O32: the demultiplexer of `exec_unsplit_runs` has filled the planes from IB, so the block it gathered from
IB is the one that stands in the planes (`UnsplitDone`). -/
theorem unsplitRecoversBlocks : Obligations.UnsplitRecoversBlocks := by
  intro s h hruns
  obtain ⟨u, hu, e⟩ := exec_unsplit_runs hruns
  refine ⟨_, e, fun k => (congrArg (·.get k) hu.plen).trans (get_replicate8 _ k), fun k hk o ho => ?_,
    fun B hB i hi => ?_⟩
  · have hend := planeOffset_lt hk ho
    have hin : unsplitHeader s.inLen.toNat + k * ((s.inLen.toNat - unsplitHeader s.inLen.toNat) / 8) + o <
        s.ib.length := Nat.lt_of_lt_of_le (by rw [Nat.add_assoc]; exact Nat.add_lt_add_left hend _) hruns.input
    exact (List.getElem?_eq_getElem hin).trans
      (congrArg some ((List.getD_eq_getElem _ _ hin).symm.trans (hu.filled k hk o ho).symm))
  · refine (hu.recovered B hB i hi).trans ?_
    congr 2
    refine ext_get8 fun j => ?_
    rw [gatheredBlock, Vector.get_ofFn, Vector.get_ofFn]
    exact (hu.filled _ (Fin.is_lt _) B hB).symm

/-! ### What an UNSPLIT reads (R42, R112) -/

/-- Two loops over the 8 planes whose turns agree wherever an invariant of the first holds agree. -/
theorem foldlM_fin8_congr {σ : Type} {f g : σ → Fin 8 → Run σ} (I : Nat → σ → Prop)
    (hfg : ∀ (k : Fin 8) s, I k.val s → f s k = g s k)
    (hkeep : ∀ (k : Fin 8) s t, I k.val s → f s k = .ok t → I (k.val + 1) t) {s : σ} (h0 : I 0 s) :
    (List.finRange 8).foldlM f s = (List.finRange 8).foldlM g s := by
  have hfin : List.finRange 8 = (List.range 8).map (Fin.ofNat 8) := by decide
  have hval : ∀ b < 8, (Fin.ofNat 8 b).val = b := fun b hb => Nat.mod_eq_of_lt hb
  rw [hfin, List.foldlM_map, List.foldlM_map]
  refine (foldlM_range_congr I 8 (fun b hb s hs => ?_) (fun b hb s t hs ht => ?_) h0).1
  · exact hfg _ s ((hval b hb).symm ▸ hs)
  · have hnext := hkeep _ s t ((hval b hb).symm ▸ hs) ht
    rwa [hval b hb] at hnext

section
variable {U : Nat} {ib jb : List Byte} (h : jb.take U = ib.take U)
include h

/-- Inputs that agree below `U` deliver the same at a place below `U` (R42). -/
theorem getElem?_congr_of_take {a : Nat} (ha : a < U) : jb[a]? = ib[a]? := by
  have hbyte := congrArg (·[a]?) h
  simpa only [List.getElem?_take_of_lt ha] using hbyte

/-- Demultiplexing a plane that ends at or below `U` reads the same of both inputs, and ends a plane further (R106). -/
theorem State.demuxPlane_congr_of_take {pe : Bool} {z : PassSize} {k : Fin 8} {s : State}
    (hs : s.ipos + z.planes ≤ U) :
    s.demuxPlane pe z jb k = s.demuxPlane pe z ib k ∧
    ∀ t, s.demuxPlane pe z jb k = .ok t → t.ipos = s.ipos + z.planes := by
  obtain ⟨hloop, hpos⟩ := foldlM_range_congr (f := State.demuxByte jb k) (g := State.demuxByte ib k)
    (fun o u => u.ipos = s.ipos + o) z.planes
    (fun o ho u hu => by rw [State.demuxByte, State.demuxByte, getElem?_congr_of_take h (by omega)])
    (fun o _ u t hu ht => by
      unfold State.demuxByte at ht
      split at ht
      next => cases ht; exact congrArg (· + 1) hu
      next => cases ht) (s := s) rfl
  refine ⟨by rw [State.demuxPlane, State.demuxPlane, hloop], fun t ht => ?_⟩
  obtain ⟨u, hu, ht⟩ := Run.of_bind ht
  cases ht
  rw [State.report_eq]
  exact hpos u hu

/-- An UNSPLIT pass is the same on inputs that agree on its header and planes (R112): every plane ends there. -/
theorem State.unsplitPass_congr_of_take {pe : Bool} {z : PassSize} (hz : z.header + 8 * z.planes ≤ U) (b : Byte)
    (s : State) : s.unsplitPass pe z jb b = s.unsplitPass pe z ib b := by
  have hplane : ∀ (k : Fin 8) (u : State), u.ipos = z.header + k.val * z.planes → u.ipos + z.planes ≤ U :=
    fun k u hu => by
      have hend := Nat.mul_le_mul_right z.planes (Nat.succ_le_of_lt k.isLt)
      rw [Nat.succ_mul] at hend
      omega
  unfold State.unsplitPass
  split
  next => rfl
  next =>
    refine Run.bind_congr (foldlM_fin8_congr (fun k u => u.ipos = z.header + k * z.planes)
      (fun k u hu => (State.demuxPlane_congr_of_take h (hplane k u hu)).1) (fun k u t hu ht => ?_) (by simp))
      fun _ _ => rfl
    rw [(State.demuxPlane_congr_of_take h (hplane k u hu)).2 t ht, hu, Nat.succ_mul, Nat.add_assoc]

/-- Inputs that agree on the header have the same header byte, or both have none (R105). -/
theorem unsplitHeaderByte_congr_of_take {T : Nat} (hT : unsplitHeader T ≤ U) :
    unsplitHeaderByte T jb = unsplitHeaderByte T ib := by
  unfold unsplitHeaderByte
  split
  next hone => exact getElem?_congr_of_take h (by omega)
  next => rfl

end

/-- UNSPLIT issued in READY while BUSY = 0, its header missing (R104). -/
theorem execUnsplit_idle_noHeader {s : State} (hs : s.seq = none) (hr : s.lifecycle = .ready)
    (hb : unsplitHeaderByte s.inLen.toNat s.ib = none) :
    exec .unsplit s = .next (State.finishPass ⟨encode .unsplit, s.inLen, s.ctl, false, [], []⟩
      (unsplitSize s.inLen.toNat 0) ((s.accept (encode .unsplit)).raise .truncatedRead)
      (s.accept (encode .unsplit))) := by
  rw [execUnsplit_noHeader hr (by rwa [State.deliveredIB_idle hs, State.latch_idle hs]), State.latch_idle hs]
  rfl

/-- Settles O34: outside READY an UNSPLIT does not look at IB; in READY both inputs have the same header byte, or none,
the pass is the same on both (`State.unsplitPass_congr_of_take`) and it carries IB along untouched
(`State.unsplitPass_rehost`). -/
theorem unsplitReadsOnlyThePlanes : Obligations.UnsplitReadsOnlyThePlanes := by
  intro s jb hs T used hjb
  cases hr : s.lifecycle.notReady with
  | some c =>
    exact ⟨_, exec_notReady (.inr (.inl rfl)) hr, exec_notReady (s := { s with ib := jb }) (.inr (.inl rfl)) hr⟩
  | none =>
    have hready := Lifecycle.notReady_none.1 hr
    have hheader : unsplitHeaderByte T jb = unsplitHeaderByte T s.ib :=
      unsplitHeaderByte_congr_of_take hjb (Nat.le_add_right _ _)
    cases hb : unsplitHeaderByte T s.ib with
    | none =>
      refine ⟨_, execUnsplit_idle_noHeader hs hready hb, ?_⟩
      rw [execUnsplit_idle_noHeader (s := { s with ib := jb }) hs hready (hheader.trans hb), State.accept_onIB hs]
      rfl
    | some b =>
      refine ⟨_, execUnsplit_idle hs hready hb, ?_⟩
      rw [execUnsplit_idle (s := { s with ib := jb }) hs hready (hheader.trans hb), State.accept_onIB hs,
        State.unsplitPass_congr_of_take hjb (Nat.le_refl used), State.unsplitPass_rehost]
      exact congrArg Host.Outcome.next (State.finishPass_rehost jb _ _ fun _ => State.unsplitPass_inputs)

/-! ### The sizes of the round trip (R93, R105) -/

/-- The stream that a SPLIT of `L` bytes writes has the header, the planes and the output length `L` when an UNSPLIT
takes it with the remainder of `L` (R93, R103, R105). -/
theorem unsplitSize_splitSize (L : Nat) :
    unsplitHeader (splitSize L).out = (splitSize L).header ∧
    (unsplitSize (splitSize L).out (L % 8)).planes = (splitSize L).planes ∧
    (unsplitSize (splitSize L).out (L % 8)).out = L := by
  obtain ⟨-, hheader, hplanes, hout, -⟩ := splitSize_counts L
  have hdetect : unsplitHeader (splitSize L).out = (splitSize L).header := by
    unfold unsplitHeader
    split_ifs at hheader ⊢ <;> omega
  obtain ⟨-, -, hbss, hnrec⟩ := unsplitSize_counts (splitSize L).out (L % 8)
  have hback : (unsplitSize (splitSize L).out (L % 8)).planes = (splitSize L).planes := by
    rw [hbss, hdetect, hout]
    omega
  refine ⟨hdetect, hback, ?_⟩
  rw [hnrec, hback, recoverOffset]
  split_ifs at hheader ⊢ <;> omega

/-! ### The blocks of the round trip (R96, R97, R107, R108) -/

/-- The data bytes of a block of a SPLIT are the input bytes at the place where an UNSPLIT recovers the block. -/
theorem splitBlockOf_get (ib : List Byte) (filler : Nat → Byte) {L B : Nat} {i : Fin 8}
    (hi : i.val < recoverCount (L % 8) B) :
    (splitBlockOf ib filler L B).get i = ib.getD (recoverOffset (L % 8) B + i.val) 0#8 := by
  rw [splitBlockOf, Vector.get_ofFn, recoverOffset]
  rw [recoverCount] at hi
  by_cases hL : L % 8 = 0
  · rw [if_pos hL, if_pos hL]
  · rw [if_neg hL, if_neg hL]
    by_cases hB : B = 0
    · rw [if_pos ⟨hL, hB⟩] at hi
      rw [if_pos hB, if_pos hB, if_pos hi, Nat.zero_add]
    · rw [if_neg hB, if_neg hB]

/-- Every byte below the place of block `P` is a recovered byte of an earlier block (R107, R108). -/
theorem exists_recovered {rem a P : Nat} (hr : rem < 8) (ha : a < recoverOffset rem P) :
    ∃ B < P, ∃ i : Fin 8, i.val < recoverCount rem B ∧ a = recoverOffset rem B + i.val := by
  induction P with
  | zero => simp [recoverOffset] at ha
  | succ P ih =>
    rw [recoverOffset_succ] at ha
    have hcount := recoverCount_le hr P
    by_cases hlt : a < recoverOffset rem P
    · obtain ⟨B, hB, hbyte⟩ := ih hlt
      exact ⟨B, by omega, hbyte⟩
    · have hi : a - recoverOffset rem P < recoverCount rem P := by omega
      exact ⟨P, Nat.lt_succ_self P, ⟨_, hi.trans_le hcount⟩, hi, by dsimp only; omega⟩

/-! ### The round trip (R111) -/

/-- The unit `u` is ready for an UNSPLIT of the stream that a SPLIT of `s` left in OB of `t`, with the keys, the oracle
and the schedule position of that SPLIT and within the capacities (the conditions of R111).
`Tests.witness_unsplitUndoesSplit` names such units. -/
structure OnStreamOf (s t u : State) : Prop where
  idle : u.seq = none
  ready : u.lifecycle = .ready
  key1 : u.keyBytes1 = s.keyBytes1
  key2 : u.keyBytes2 = s.keyBytes2
  pins : u.oraclePins = s.oraclePins
  n : u.n = s.n
  inLen : u.inLen.toNat = (splitSize s.inLen.toNat).out
  input : u.inLen.toNat ≤ u.ib.length
  stream : ∀ a < u.inLen.toNat, u.ib[a]? = some (t.ob.read a)
  planes : (splitSize s.inLen.toNat).planes ≤ u.params.planeCap
  output : s.inLen.toNat ≤ u.params.outCap

section
variable {s t u : State} (hu : OnStreamOf s t u)
include hu

/-- Keys and oracle alike give tokens alike (R72, R75). -/
theorem OnStreamOf.tokenAt (m : Nat) : u.tokenAt m = s.tokenAt m := by
  rw [State.tokenAt, State.tokenAt, State.oracleWord, State.oracleWord, hu.key1, hu.key2, hu.pins]

/-- The UNSPLIT finds a header exactly when the SPLIT wrote one (R99, R105). -/
theorem OnStreamOf.header : unsplitHeader u.inLen.toNat = (splitSize s.inLen.toNat).header := by
  rw [hu.inLen]
  exact (unsplitSize_splitSize s.inLen.toNat).1

/-- The header that the UNSPLIT reads decodes to the remainder of the SPLIT (R60, R95). -/
theorem OnStreamOf.headerByte (hs : SplitRuns s) (e : exec .split s = .next t) :
    ∃ b, unsplitHeaderByte u.inLen.toNat u.ib = some b ∧ headerRem b = s.inLen.toNat % 8 := by
  obtain ⟨t', e', -, -, -, -, -, -, -, -, -, -, -, -, hunaligned, -⟩ := splitCompletes s hs
  obtain rfl : t = t' := Host.Outcome.next.inj (e.symm.trans e')
  obtain ⟨-, hheader, -, hout, -⟩ := splitSize_counts s.inLen.toNat
  rw [unsplitHeaderByte, hu.header]
  by_cases hL : s.inLen.toNat % 8 = 0
  · rw [if_pos hL] at hheader
    rw [hheader, hL]
    exact ⟨0#8, rfl, rfl⟩
  · rw [if_neg hL] at hheader
    obtain ⟨-, noise, -, hbyte⟩ := hunaligned hL
    rw [if_pos hheader]
    refine ⟨t.ob.read 0, hu.stream 0 (by rw [hu.inLen, hout]; omega), ?_⟩
    rw [hbyte]
    exact headerRem_headerByte _ (Nat.mod_lt _ (by decide))

/-- The UNSPLIT runs: its sizes are those of the SPLIT, its tokens are the SPLIT's, and all of its stream is there. -/
theorem OnStreamOf.unsplitRuns (hs : SplitRuns s) {b : Byte} (hb : unsplitHeaderByte u.inLen.toNat u.ib = some b)
    (hrem : headerRem b = s.inLen.toNat % 8) : UnsplitRuns u b := by
  obtain ⟨-, hplanes, hout⟩ := unsplitSize_splitSize s.inLen.toNat
  obtain ⟨-, hheader, hnblk, hneed, -⟩ := splitSize_counts s.inLen.toNat
  rw [← hu.inLen, ← hrem] at hplanes hout
  refine ⟨hu.idle, hu.ready, hb, hplanes ▸ hu.planes, hout.trans_le hu.output, ?input, ?block, ?tokens⟩
  case input => rw [hu.header, hplanes, ← hneed, ← hu.inLen]; exact hu.input
  case block =>
    intro hne
    rw [hrem] at hne
    rw [if_neg hne] at hheader
    omega
  case tokens =>
    intro B hB
    rw [hu.tokenAt, hu.n]
    exact hs.tokens B (hplanes ▸ hB)

/-- The demultiplexer restores the planes of the SPLIT (R99, R106). -/
theorem OnStreamOf.samePlanes {v : State} {P : Nat} (hs : SplitRuns s) (e : exec .split s = .next t)
    (hP : P = (splitSize s.inLen.toNat).planes)
    (hfilled : ∀ k < 8, ∀ o < P, u.ib[unsplitHeader u.inLen.toNat + k * P + o]? = some (v.readPM k o))
    {k o : Nat} (hk : k < 8) (ho : o < P) : v.readPM k o = t.readPM k o := by
  subst hP
  obtain ⟨t', e', -, -, -, hcopied⟩ := splitWritesTheWireFormat s hs
  obtain rfl : t = t' := Host.Outcome.next.inj (e.symm.trans e')
  have hend := planeOffset_lt hk ho
  obtain ⟨-, -, -, hneed, -⟩ := splitSize_counts s.inLen.toNat
  have hbyte := hfilled k hk o ho
  rw [hu.header, hu.stream _ (by rw [hu.inLen, hneed]; omega)] at hbyte
  exact (Option.some.inj hbyte).symm.trans (hcopied k hk o ho)

/-- From the planes of the SPLIT the tokens of the SPLIT gather its transposed blocks (R78, R98). -/
theorem OnStreamOf.gathered {v : State} {B : Nat} (hs : SplitRuns s) (e : exec .split s = .next t)
    (hB : B < (splitSize s.inLen.toNat).planes) (hplanes : ∀ k < 8, v.readPM k B = t.readPM k B) :
    (Vector.ofFn fun j => v.readPM ((u.tokenAt (u.n + B)).get j).val B) =
      transpose (splitBlockOf s.ib s.drawFiller s.inLen.toNat B) := by
  obtain ⟨t', e', hrouted, -⟩ := splitWritesTheWireFormat s hs
  obtain rfl : t = t' := Host.Outcome.next.inj (e.symm.trans e')
  refine ext_get8 fun j => ?_
  rw [Vector.get_ofFn, hplanes _ (Fin.is_lt _), hu.tokenAt, hu.n]
  exact hrouted B hB j

end

/-- Settles O35: the UNSPLIT runs (`OnStreamOf.unsplitRuns`) and has the planes of the SPLIT again
(`OnStreamOf.samePlanes`), so it gathers the transposed blocks of the SPLIT (`OnStreamOf.gathered`). Their transposes
are its blocks (R66), byte for byte at their places (`exists_recovered`, `splitBlockOf_get`). -/
theorem unsplitUndoesSplit : Obligations.UnsplitUndoesSplit := by
  intro s t u hsIdle hsReady e herr hidle hready hkey1 hkey2 hpins hn hinLen hinput hstream hcap hfit
  have hu : OnStreamOf s t u := ⟨hidle, hready, hkey1, hkey2, hpins, hn, hinLen, hinput, hstream, hcap, hfit⟩
  have hs := SplitRuns.of_noError hsIdle hsReady e herr
  obtain ⟨b, hb, hrem⟩ := hu.headerByte hs e
  have hruns := hu.unsplitRuns hs hb hrem
  obtain ⟨-, hplanes, hout⟩ := unsplitSize_splitSize s.inLen.toNat
  obtain ⟨-, -, -, hnrec⟩ := unsplitSize_counts (splitSize s.inLen.toNat).out (s.inLen.toNat % 8)
  rw [← hu.inLen, ← hrem] at hplanes hout hnrec
  obtain ⟨v, e', hvErr, -, -, houtLen, -⟩ := unsplitCompletes u b hruns
  obtain ⟨v', e'', -, hfilled, hrecovered⟩ := unsplitRecoversBlocks u b hruns
  obtain rfl : v = v' := Host.Outcome.next.inj (e'.symm.trans e'')
  refine ⟨v, e', hvErr, ?_, fun a ha => ?_⟩
  · rw [houtLen, hout, BitVec.ofNat_toNat, BitVec.setWidth_eq]
  · have hin := Nat.lt_of_lt_of_le ha hs.input
    obtain ⟨B, hB, i, hi, rfl⟩ := exists_recovered (headerRem_lt b) (hnrec ▸ hout.symm ▸ ha)
    have hbyte := hrecovered B hB i hi
    rw [hu.gathered hs e (hplanes ▸ hB) fun k hk => hu.samePlanes hs e hplanes hfilled hk hB,
      transposeIsInvolution, splitBlockOf_get _ _ (hrem ▸ hi), ← hrem] at hbyte
    rw [hbyte, List.getElem?_eq_getElem hin, List.getD_eq_getElem _ _ hin]

end Sys2Proof.Machine
end

section
/-! INIT, CLEAR and CLEAR_AND_CLOSE (45_lifecycle.md sections 2 and 3): their checks (R115, R118), and what they leave
when they succeed (R116, R117, R119 to R123). -/

namespace Sys2Proof.Machine

/-! ### INIT (R115, R116) -/

/-- INIT in UNINIT with all 8 planes provisioned (R116). -/
theorem exec_init_prepares {s : State} (hs : s.lifecycle = .uninit) (hp : s.planeProv = 0xFF#8) :
    exec .init s = .next (s.prepare.complete .noError .ready) := by
  simp only [exec, execInit, State.accept_lifecycle, State.accept_planeProv, hs, hp, ne_eq, not_true, if_false]
  rfl

/-- INIT needs UNINIT (R115). -/
theorem exec_init_invalidState {s : State} (hs : s.lifecycle ≠ .uninit) :
    exec .init s = .next { s with seq := none, done := true, err := .invalidState } := by
  simp only [exec, execInit, State.accept_lifecycle, hs, ne_eq, not_false_iff, if_true, State.accept_checkError]

/-- INIT needs all 8 planes (R115). -/
theorem exec_init_planesMissing {s : State} (hs : s.lifecycle = .uninit) (hp : s.planeProv ≠ 0xFF#8) :
    exec .init s = .next { s with seq := none, done := true, err := .insufficientPlaneCount } := by
  simp only [exec, execInit, State.accept_lifecycle, State.accept_planeProv, hs, hp, ne_eq, not_true, not_false_iff,
    if_false, if_true, State.accept_checkError]

/-- Settles O14: the two checks of INIT, and what lies behind them (`exec_init_prepares`). -/
theorem initCompletes : Obligations.InitCompletes :=
  fun _ => ⟨exec_init_prepares, exec_init_invalidState, exec_init_planesMissing⟩

/-! ### The checks of a wipe (R89, R118) -/

@[simp] theorem State.clearRefusal_accept (s : State) (w : Word) : (s.accept w).clearRefusal = s.clearRefusal := rfl

theorem State.clearRefusal_of_uninit {s : State} (hs : s.lifecycle = .uninit) :
    s.clearRefusal = some .notInitialized :=
  if_pos hs

theorem State.clearRefusal_of_released {s : State} (hs : s.lifecycle ≠ .uninit) (hp : s.planeProv ≠ 0xFF#8) :
    s.clearRefusal = some .wipeFailure := by
  rw [State.clearRefusal, if_neg hs, if_pos hp]

theorem State.clearRefusal_of_present {s : State} (hs : s.lifecycle ≠ .uninit) (hp : s.planeProv = 0xFF#8) :
    s.clearRefusal = none := by
  rw [State.clearRefusal, if_neg hs, if_neg (not_not.2 hp)]

/-- A wipe that its checks refuse raises their error and changes nothing but STATUS (R118, R133). -/
theorem exec_wipe_refused {i : Instr} {s : State} {c : ErrCode} (hi : i = .clear ∨ i = .clearAndClose)
    (hc : s.clearRefusal = some c) : exec i s = .next { s with seq := none, done := true, err := c } := by
  rcases hi with rfl | rfl
  · simp only [exec, execClear, State.clearRefusal_accept, hc, State.accept_checkError]
  · simp only [exec, execClearAndClose, State.clearRefusal_accept, hc, State.accept_checkError]

/-- Settles O17: the checks name the error (`State.clearRefusal`), and both commands refuse alike
(`exec_wipe_refused`). -/
theorem clearRefusals : Obligations.ClearRefusals := fun _ _ hi =>
  ⟨fun hs => exec_wipe_refused hi (State.clearRefusal_of_uninit hs),
    fun hs hp => exec_wipe_refused hi (State.clearRefusal_of_released hs hp)⟩

/-! ### A wipe that succeeds (R117, R120, R123) -/

/-- CLEAR outside UNINIT with its storage present (R120). -/
theorem exec_clear_wipes {s : State} (hs : s.lifecycle ≠ .uninit) (hp : s.planeProv = 0xFF#8) :
    exec .clear s = .next ((s.clearCore (s.latch (encode .clear))).complete .noError .closed) := by
  simp only [exec, execClear, State.clearRefusal_accept, State.clearRefusal_of_present hs hp]
  rfl

/-- CLEAR_AND_CLOSE outside UNINIT with its storage present (R123). -/
theorem exec_clearAndClose_wipes {s : State} (hs : s.lifecycle ≠ .uninit) (hp : s.planeProv = 0xFF#8) :
    exec .clearAndClose s =
      .next ((s.clearCore (s.latch (encode .clearAndClose))).release.complete .noError .closed) := by
  simp only [exec, execClearAndClose, State.clearRefusal_accept, State.clearRefusal_of_present hs hp]
  rfl

/-- Both wipes end in CLOSED without error. -/
theorem exec_wipe_closes {i : Instr} {s : State} (hi : i = .clear ∨ i = .clearAndClose) (hs : s.lifecycle ≠ .uninit)
    (hp : s.planeProv = 0xFF#8) : ∃ t, exec i s = .next t ∧ successCell .closed t := by
  rcases hi with rfl | rfl
  · exact ⟨_, exec_clear_wipes hs hp, ⟨rfl, rfl⟩, rfl, rfl⟩
  · exact ⟨_, exec_clearAndClose_wipes hs hp, ⟨rfl, rfl⟩, rfl, rfl⟩

/-- A wiped plane byte is 0 in zero mode (R84), and in random mode the fill of its plane and offset (R85). -/
theorem wiped_read_pmKey {k o : Nat} (ho : o < 2 ^ 29) (random : Bool) (seed : Word) (w : Nat) :
    (wiped random seed w).read (pmKey k o) = if random then Config.wipefill seed k o w else 0#8 := by
  cases random with
  | false => exact wiped_zero_read seed w _
  | true =>
    have hplane : pmKey k o / 2 ^ 29 = k := by unfold pmKey; omega
    have hoffset : pmKey k o % 2 ^ 29 = o := by unfold pmKey; omega
    change Config.wipefill seed (pmKey k o / 2 ^ 29) (pmKey k o % 2 ^ 29) w = Config.wipefill seed k o w
    rw [hplane, hoffset]

/-- Settles O15: CLEAR leaves what `State.clearCore` does (`exec_clear_wipes`), and as BUSY = 0 the mode is the one that
CONFIG has. -/
theorem clearCompletes : Obligations.ClearCompletes := by
  intro s hseq hs hp
  refine ⟨_, exec_clear_wipes hs hp, ?unwiped, fun k o ho => ?planes,
    rfl, rfl, rfl, rfl, rfl, rfl, rfl, rfl, rfl, rfl, rfl, rfl, rfl, rfl, ?duty⟩
  case unwiped =>
    simp only [State.unwiped, State.complete, State.clearCore, hseq]
  case planes =>
    rw [State.latch_idle hseq]
    exact wiped_read_pmKey ho s.ctl.wipeRandom s.wipeSeed s.wipes
  case duty =>
    rw [State.wipedForReset, State.runningPass_idle rfl]
    rfl

/-- Settles O16: both commands wipe alike, as a wipe looks at nothing of the sequencer but the mode. -/
theorem clearAndCloseCompletes : Obligations.ClearAndCloseCompletes := by
  intro s hseq hs hp
  refine ⟨_, exec_clear_wipes hs hp, ?_, rfl, rfl⟩
  rw [exec_clearAndClose_wipes hs hp, State.latch_idle hseq, State.latch_idle hseq]
  rfl

/-- A second wipe in zero mode finds everything as it would leave it, but for the count of wipes (R119). -/
theorem State.clearCore_clearCore_zero {q q' : Seq} (hq : q.ctl.wipeRandom = false) (hq' : q'.ctl.wipeRandom = false)
    (s : State) :
    (((s.clearCore q).complete .noError .closed).clearCore q').complete .noError .closed =
      { (s.clearCore q).complete .noError .closed with wipes := s.wipes + 1 + 1 } := by
  simp only [State.clearCore, State.complete, wiped, hq, hq', Bool.false_eq_true, if_false]

/-- Settles O18: the unit is CLOSED and its storage is present, so the second CLEAR wipes too, in the same mode. -/
theorem clearIsIdempotent : Obligations.ClearIsIdempotent := by
  intro s t hseq hs hp hmode e
  have ht := Host.Outcome.next.inj (e.symm.trans (exec_clear_wipes hs hp))
  rw [State.latch_idle hseq] at ht
  have hclosed : t.lifecycle ≠ .uninit := ht ▸ nofun
  have hprov : t.planeProv = 0xFF#8 := ht ▸ hp
  have hidle : t.seq = none := ht ▸ rfl
  rw [exec_clear_wipes hclosed hprov, State.latch_idle hidle, ht]
  exact congrArg Host.Outcome.next (State.clearCore_clearCore_zero hmode hmode s)

/-- Both wipes answer as they do on the state with all that they overwrite blanked (R117). -/
theorem exec_wipe_unwiped {i : Instr} {s : State} (hi : i = .clear ∨ i = .clearAndClose) (hs : s.lifecycle ≠ .uninit)
    (hp : s.planeProv = 0xFF#8) : exec i s.unwiped = exec i s := by
  rcases hi with rfl | rfl
  · rw [exec_clear_wipes hs hp, exec_clear_wipes (s := s.unwiped) hs hp]
    rfl
  · rw [exec_clearAndClose_wipes hs hp, exec_clearAndClose_wipes (s := s.unwiped) hs hp]
    rfl

/-- What the checks of a wipe look at is not among what it overwrites. -/
theorem State.checks_of_unwiped {s t : State} (h : t.unwiped = s.unwiped) :
    t.lifecycle = s.lifecycle ∧ t.planeProv = s.planeProv := by
  change t.unwiped.lifecycle = s.unwiped.lifecycle ∧ t.unwiped.planeProv = s.unwiped.planeProv
  rw [h]
  exact ⟨rfl, rfl⟩

/-- Settles O19: the answer is that on the blanked state (`exec_wipe_unwiped`), which the two states have in common. -/
theorem clearForgetsSecrets : Obligations.ClearForgetsSecrets := by
  intro i s t hi hst hs hp
  obtain ⟨hlifecycle, hprov⟩ := State.checks_of_unwiped hst
  obtain ⟨u, hu, -⟩ := exec_wipe_closes hi hs hp
  refine ⟨?_, u, hu⟩
  calc exec i s = exec i s.unwiped := (exec_wipe_unwiped hi hs hp).symm
    _ = exec i t.unwiped := by rw [hst]
    _ = exec i t := exec_wipe_unwiped hi (hlifecycle ▸ hs) (hprov ▸ hp)

end Sys2Proof.Machine
end

section
/-! The lifecycle table (45_lifecycle.md section 1): every cell (R114), and the ways out of CLOSED and FAILED (R124). -/

namespace Sys2Proof.Machine

/-! ### The cells of INIT -/

theorem exec_init_tableCell (s : State) : ∃ t, exec .init s = .next t ∧ tableCell .init s t := by
  unfold tableCell
  cases hs : s.lifecycle with
  | uninit =>
    by_cases hp : s.planeProv = 0xFF#8
    · exact ⟨_, exec_init_prepares hs hp, .inl ⟨⟨rfl, rfl⟩, rfl, rfl⟩⟩
    · exact ⟨_, exec_init_planesMissing hs hp, .inr rfl⟩
  | ready | closed | failed => exact ⟨_, exec_init_invalidState (by simp [hs]), rfl⟩

/-! ### The cells of SPLIT, UNSPLIT and RESEED -/

/-- The table has the errors of the state check (R92, R103, R79). -/
theorem tableCell_of_notReady {i : Instr} {s t : State} {c : ErrCode} (hi : i = .split ∨ i = .unsplit ∨ i = .reseed)
    (hc : s.lifecycle.notReady = some c) (h : errorCell c s t) : tableCell i s t := by
  unfold tableCell
  rcases Lifecycle.notReady_some hc with ⟨hs, rfl⟩ | ⟨hs | hs, rfl⟩
  all_goals
    rw [hs]
    rcases hi with rfl | rfl | rfl <;> exact h

theorem exec_notReady_tableCell {i : Instr} {s : State} {c : ErrCode} (hi : i = .split ∨ i = .unsplit ∨ i = .reseed)
    (hc : s.lifecycle.notReady = some c) : ∃ t, exec i s = .next t ∧ tableCell i s t :=
  ⟨_, exec_notReady hi hc, tableCell_of_notReady hi hc rfl⟩

/-- A pass that runs to its end succeeds in READY (R94, R104). -/
theorem PassEnded.passCell {s t : State} {planes : Nat} (h : PassEnded s planes t) : passCell t := by
  obtain ⟨hlifecycle, hseq, -⟩ := h.fields
  exact .inl ⟨⟨congrArg State.done h.outside, hseq⟩, congrArg State.err h.outside, hlifecycle⟩

/-- A pass that fails ends in FAILED, with one of the three pass errors (R134). -/
theorem PassFailed.passCell {a t : State} {code : ErrCode} {z : PassSize} (h : PassFailed a code z t)
    (hc : code.ofPass) : passCell t := by
  obtain ⟨hlifecycle, hseq, -⟩ := h.fields
  exact .inr ⟨⟨congrArg State.done h.outside, hseq⟩, hlifecycle, h.err.symm ▸ hc⟩

theorem exec_split_passCell {s : State} (hready : s.lifecycle = .ready) :
    ∃ t, exec .split s = .next t ∧ passCell t := by
  obtain ⟨t, e, ⟨c, hc, -⟩ | ⟨-, hfit, -, u, hu, ht⟩ | ⟨-, c, hc, ht⟩⟩ := execSplit_cases s
  · exact absurd hc (State.not_refused_of_ready hready c)
  · exact ⟨t, e, ht ▸ (hu.passEnded (BitVec.isLt _) hfit).passCell⟩
  · exact ⟨t, e, ht.passCell hc⟩

theorem exec_unsplit_passCell {s : State} (hready : s.lifecycle = .ready) :
    ∃ t, exec .unsplit s = .next t ∧ passCell t := by
  obtain ⟨t, e, ⟨c, hc, -⟩ | ⟨-, b, -, hfit, -, u, hu, ht⟩ | ⟨-, c, hc, ht⟩⟩ := execUnsplit_cases s
  · exact absurd hc (State.not_refused_of_ready hready c)
  · exact ⟨t, e, ht ▸ (hu.passEnded (unsplitSize_planes_le _ (BitVec.isLt _)) hfit).passCell⟩
  · exact ⟨t, e, ht.passCell hc⟩

theorem exec_ready_tableCell {i : Instr} {s : State} (hi : i = .split ∨ i = .unsplit ∨ i = .reseed)
    (hready : s.lifecycle = .ready) : ∃ t, exec i s = .next t ∧ tableCell i s t := by
  unfold tableCell
  rw [hready]
  rcases hi with rfl | rfl | rfl
  · exact exec_split_passCell hready
  · exact exec_unsplit_passCell hready
  · exact ⟨_, reseedCompletes s hready, ⟨rfl, rfl⟩, rfl, hready⟩

theorem exec_pass_or_reseed_tableCell {i : Instr} (s : State) (hi : i = .split ∨ i = .unsplit ∨ i = .reseed) :
    ∃ t, exec i s = .next t ∧ tableCell i s t := by
  cases hc : s.lifecycle.notReady with
  | some c => exact exec_notReady_tableCell hi hc
  | none => exact exec_ready_tableCell hi (Lifecycle.notReady_none.1 hc)

/-! ### The cells of CLEAR and CLEAR_AND_CLOSE -/

/-- Once the unit is initialized, its storage is missing in CLOSED only, after a release (R30, R89). -/
theorem State.StorageFollowsState.closed_of_missing {s : State} (h : s.StorageFollowsState)
    (hs : s.lifecycle ≠ .uninit) (hp : s.planeProv ≠ 0xFF#8) : s.lifecycle = .closed := by
  obtain ⟨hprov, -⟩ := h
  cases hl : s.lifecycle with
  | uninit => exact absurd hl hs
  | ready => exact absurd (hprov (.inl hl)) hp
  | closed => rfl
  | failed => exact absurd (hprov (.inr hl)) hp

theorem tableCell_wipe_of_success {i : Instr} {s t : State} (hi : i = .clear ∨ i = .clearAndClose)
    (hs : s.lifecycle ≠ .uninit) (h : successCell .closed t) : tableCell i s t := by
  unfold tableCell
  cases hl : s.lifecycle with
  | uninit => exact absurd hl hs
  | closed => rcases hi with rfl | rfl <;> exact .inl h
  | ready | failed => rcases hi with rfl | rfl <;> exact h

theorem exec_wipe_tableCell {i : Instr} {s : State} (hi : i = .clear ∨ i = .clearAndClose)
    (h : s.StorageFollowsState) : ∃ t, exec i s = .next t ∧ tableCell i s t := by
  by_cases hs : s.lifecycle = .uninit
  · refine ⟨_, exec_wipe_refused hi (State.clearRefusal_of_uninit hs), ?_⟩
    rcases hi with rfl | rfl <;> simp only [tableCell, hs, errorCell]
  · by_cases hp : s.planeProv = 0xFF#8
    · obtain ⟨t, e, hclosed⟩ := exec_wipe_closes hi hs hp
      exact ⟨t, e, tableCell_wipe_of_success hi hs hclosed⟩
    · refine ⟨_, exec_wipe_refused hi (State.clearRefusal_of_released hs hp), ?_⟩
      have hclosed := h.closed_of_missing hs hp
      rcases hi with rfl | rfl <;> simp only [tableCell, hclosed, errorCell, or_true]

/-! ### The table (R114) -/

/-- Settles O13: the cells command by command; a word that encodes no command is answered before the table
(`runWord_cases`). -/
theorem lifecycleTable : Obligations.LifecycleTable := by
  refine ⟨fun i s h => ?cells, fun w s hw => ?illegal⟩
  case cells =>
    cases i with
    | init => exact exec_init_tableCell s
    | split => exact exec_pass_or_reseed_tableCell s (.inl rfl)
    | unsplit => exact exec_pass_or_reseed_tableCell s (.inr (.inl rfl))
    | reseed => exact exec_pass_or_reseed_tableCell s (.inr (.inr rfl))
    | clear => exact exec_wipe_tableCell (.inl rfl) h
    | clearAndClose => exact exec_wipe_tableCell (.inr rfl) h
    | transpose => exact ⟨_, exec_transpose_eq s, ⟨rfl, rfl⟩, rfl, rfl⟩
  case illegal =>
    rcases runWord_cases w s with ⟨i, rfl, -⟩ | ⟨-, hrun⟩
    · exact absurd (decode_encode i) (hw i)
    · exact ⟨_, hrun, rfl⟩

/-! ### Leaving CLOSED and FAILED (R124) -/

/-- The ways in which a command takes the unit from one lifecycle state to the next (R114). -/
inductive LifecycleMove (i : Instr) : Lifecycle → Lifecycle → Prop
  /-- A check error, RESEED, TRANSPOSE and a pass that runs to its end. -/
  | stays (st : Lifecycle) : LifecycleMove i st st
  /-- INIT succeeds (R116). -/
  | prepared (hi : i = .init) : LifecycleMove i .uninit .ready
  /-- A pass error (R134). -/
  | failed (hi : i = .split ∨ i = .unsplit) : LifecycleMove i .ready .failed
  /-- A wipe succeeds (R120, R123). -/
  | closed (hi : i = .clear ∨ i = .clearAndClose) (st : Lifecycle) : LifecycleMove i st .closed

theorem LifecycleMove.of_closed {i : Instr} {st : Lifecycle} (h : LifecycleMove i .closed st) : st = .closed := by
  cases h <;> rfl

theorem LifecycleMove.of_failed {i : Instr} {st : Lifecycle} (h : LifecycleMove i .failed st) :
    st = .failed ∨ (st = .closed ∧ (i = .clear ∨ i = .clearAndClose)) := by
  cases h with
  | stays => exact .inl rfl
  | closed hi => exact .inr ⟨rfl, hi⟩

theorem Executed.lifecycleMove {i : Instr} {s t : State} (h : Executed i s t) :
    LifecycleMove i s.lifecycle t.lifecycle := by
  cases h with
  | refused _ ht => rw [ht]; exact .stays _
  | prepared hi hs _ ht => rw [ht, hs]; exact .prepared hi
  | reseeded _ _ ht => rw [ht]; exact .stays _
  | cleared hi _ _ ht => rw [ht]; exact .closed (.inl hi) _
  | released hi _ _ ht => rw [ht]; exact .closed (.inr hi) _
  | transposed _ ht => rw [ht]; exact .stays _
  | split _ hs _ _ _ ht => rw [ht, hs]; exact .stays .ready
  | unsplit _ hs _ _ _ _ ht => rw [ht, hs]; exact .stays .ready
  | passFailed hi hs _ _ _ _ ht =>
    obtain ⟨hfailed, -⟩ := ht.fields
    rw [hs, hfailed]
    exact .failed hi

/-- Of the events other than reset only a command that runs to its completion moves the lifecycle state. -/
theorem step_lifecycle_cases {s t : State} (e : step s = .next t) :
    t.lifecycle = s.lifecycle ∨
    (∃ i, s.nextWord = some (encode i) ∧ LifecycleMove i s.lifecycle t.lifecycle) ∨
    ∃ rest, s.inputs = .reset :: rest := by
  rcases step_held_cases e with hheld | ⟨r, v, rest, rfl⟩ | ⟨i, hw, hx⟩ | ⟨rest, hi, -⟩
  · exact .inl (State.lifecycle_of_held hheld)
  · exact .inl (State.writeReg_lifecycle { s with inputs := rest } r v)
  · exact .inr (.inl ⟨i, hw, State.lifecycle_of_held s.taken_held ▸ hx.lifecycleMove⟩)
  · exact .inr (.inr ⟨rest, hi⟩)

/-- Reset gives UNINIT (R150). -/
theorem step_reset_lifecycle {s t : State} {rest : List Input} (hi : s.inputs = .reset :: rest)
    (e : step s = .next t) : t.lifecycle = .uninit := by
  rw [step_event hi] at e
  cases e
  rfl

/-- Settles O20: reset apart, only a command moves the lifecycle state (`step_lifecycle_cases`), and none moves it out
of CLOSED, nor out of FAILED but a wipe (`LifecycleMove`). -/
theorem closedAndFailedExits : Obligations.ClosedAndFailedExits := by
  intro s t e
  refine ⟨fun ⟨_, hi⟩ => step_reset_lifecycle hi e, fun hne => ?_⟩
  rcases step_lifecycle_cases e with hsame | ⟨i, hw, hm⟩ | ⟨rest, hi⟩
  · exact ⟨hsame.trans, fun hfailed => .inl (hsame.trans hfailed)⟩
  · refine ⟨fun hclosed => ?closed, fun hfailed => ?failed⟩
    case closed =>
      rw [hclosed] at hm
      exact hm.of_closed
    case failed =>
      rw [hfailed] at hm
      exact hm.of_failed.imp_right fun ⟨hclosed, hi⟩ => ⟨hclosed, i, hi, hw⟩
  · exact absurd hi (hne rest)

end Sys2Proof.Machine
end

section
/-! What a wipe leaves stays (45_lifecycle.md section 3): the two invariants of R121, R124 and of R151, R160. -/

namespace Sys2Proof.Machine

/-! ### CLOSED stays wiped (R121, R124) -/

theorem State.closedIsClean_of_ne {s : State} (h : s.lifecycle ≠ .closed) : s.ClosedIsClean :=
  fun hclosed => absurd hclosed h

/-- A wipe lays a fresh background, of zeros or of the seeded fill (R84, R85). -/
theorem wiped_fill_cases (random : Bool) (seed : Word) (w : Nat) :
    (wiped random seed w).fill = .zero ∨ ∃ seed' w', (wiped random seed w).fill = .random seed' w' := by
  cases random with
  | false => exact .inl rfl
  | true => exact .inr ⟨seed, w, rfl⟩

/-- In CLOSED the host's register writes reach neither keys nor planes nor results (R71, R155). -/
theorem State.ClosedIsClean.writeReg {s : State} (h : s.ClosedIsClean) (r : Reg) (v : Word) :
    (s.writeReg r v).ClosedIsClean := by
  intro hclosed
  rw [State.writeReg_lifecycle] at hclosed
  obtain ⟨-, hlen1, hlen2, hkey1, hkey2⟩ := State.writeReg_frozen (s := s) (by rw [hclosed]; exact nofun) r v
  rw [State.writeReg_frame, hlen1, hlen2, hkey1, hkey2]
  exact h hclosed

theorem State.clearCore_closedIsClean (q : Seq) (s : State) :
    ((s.clearCore q).complete .noError .closed).ClosedIsClean := fun _ =>
  ⟨(s.clearCore_keysWiped q).key1, (s.clearCore_keysWiped q).key2, rfl, rfl, rfl, rfl, rfl, rfl, rfl, rfl, rfl,
    wiped_fill_cases _ _ _⟩

/-- Only a wipe enters CLOSED, and there nothing but another wipe or a release changes what the unit holds. -/
theorem State.closedIsClean_kept : State.Kept State.ClosedIsClean where
  held _ := .rfl
  written r v h := h.writeReg r v
  prepared _ _ _ := State.closedIsClean_of_ne nofun
  reseeded hs _ := State.closedIsClean_of_ne (hs ▸ nofun)
  cleared q _ _ _ := State.clearCore_closedIsClean q _
  released _ h := h
  passEnded _ he _ := by
    obtain ⟨hready, -⟩ := he.fields
    exact State.closedIsClean_of_ne (hready ▸ nofun)
  passFailed _ hf _ := by
    obtain ⟨hfailed, -⟩ := hf.fields
    exact State.closedIsClean_of_ne (hfailed ▸ nofun)
  reset _ := State.closedIsClean_of_ne nofun

/-! ### Where no wipe is owed (R151, R160) -/

theorem State.residueIsMarked_of_residue {s : State} (h : s.residue = true) : s.ResidueIsMarked :=
  fun hclean => absurd (h.symm.trans hclean) nofun

/-- A pass sets the mark, with or without error, and what clears it lists no byte. -/
theorem State.residueIsMarked_kept : State.Kept State.ResidueIsMarked where
  held _ := .rfl
  written r v h := by rw [State.writeReg_frame]; exact h
  prepared _ _ h := h
  reseeded _ h := h
  cleared _ _ _ _ := fun _ => rfl
  released _ h := h
  passEnded _ he _ := State.residueIsMarked_of_residue (congrArg State.residue he.outside)
  passFailed _ hf _ := State.residueIsMarked_of_residue (congrArg State.residue hf.outside)
  reset _ := fun _ => rfl

/-- Settles O57: both are predicates on what the unit holds between commands that every way to change it keeps. -/
theorem closedStaysClean : Obligations.ClosedStaysClean :=
  ⟨fun _ _ => State.closedIsClean_kept.of_step, fun _ _ => State.residueIsMarked_kept.of_step⟩

end Sys2Proof.Machine
end

section
/-! Errors (60_exceptions.md sections 3 and 4): the errors that change nothing but STATUS (R133), what a pass error leaves
(R134), and which error a pass ends in (R137). -/

namespace Sys2Proof.Machine

/-! ### Errors of a check (R133) -/

/-- A command refused at a check changes nothing but STATUS; any other ends without error or in one of the three pass
errors (R133, R134). -/
theorem Executed.err_cases {i : Instr} {s t : State} (h : Executed i s t) :
    t = { s with seq := none, done := true, err := t.err } ∨ t.err = .noError ∨ t.err.ofPass := by
  cases h with
  | refused e ht _ => subst ht; exact .inl rfl
  | prepared _ _ _ ht | reseeded _ _ ht | cleared _ _ _ ht | released _ _ _ ht | transposed _ ht | split _ _ _ _ _ ht
  | unsplit _ _ _ _ _ _ ht => subst ht; exact .inr (.inl rfl)
  | passFailed _ _ w code hc z ht => exact .inr (.inr (ht.err ▸ hc))

/-- The five errors of R133. -/
def ErrCode.ofCheck (e : ErrCode) : Prop :=
  e = .illegalCommand ∨ e = .notInitialized ∨ e = .invalidState ∨ e = .insufficientPlaneCount ∨ e = .wipeFailure

theorem ErrCode.ofCheck.ne_noError {e : ErrCode} (h : e.ofCheck) : e ≠ .noError := by
  rcases h with rfl | rfl | rfl | rfl | rfl <;> decide

theorem ErrCode.ofCheck.not_ofPass {e : ErrCode} (h : e.ofCheck) : ¬ e.ofPass := by
  rcases h with rfl | rfl | rfl | rfl | rfl <;> simp [ErrCode.ofPass]

/-- Settles O22: an illegal word is answered at once, and a command that ends in such an error was refused at a check
(`Executed.err_cases`). -/
theorem checkErrorsChangeOnlyStatus : Obligations.CheckErrorsChangeOnlyStatus := by
  intro w s
  rcases runWord_cases w s with ⟨i, -, hrun⟩ | ⟨-, hrun⟩
  · obtain ⟨t, e, hx⟩ := exec_cases i s
    refine ⟨t, hrun.trans e, fun hcheck => ?_⟩
    rcases hx.err_cases with hstatus | hok | hpass
    · exact hstatus
    · exact absurd hok (ErrCode.ofCheck.ne_noError hcheck)
    · exact absurd hpass (ErrCode.ofCheck.not_ofPass hcheck)
  · exact ⟨_, hrun, fun _ => rfl⟩

/-! ### What a pass error leaves (R134) -/

/-- A SPLIT issued in READY while BUSY = 0 that ends in an error is a failed pass of its sizes. -/
theorem exec_split_failed {s t : State} (hs : s.seq = none) (hr : s.lifecycle = .ready) (e : exec .split s = .next t)
    (herr : t.err ≠ .noError) : PassFailed (s.accept (encode .split)) t.err (splitSize s.inLen.toNat) t := by
  obtain ⟨t', e', hcases⟩ := execSplit_cases s
  obtain rfl : t = t' := Host.Outcome.next.inj (e.symm.trans e')
  rw [State.latch_idle hs] at hcases
  rcases hcases with ⟨c, hc, -⟩ | ⟨-, -, -, u, -, ht⟩ | ⟨-, code, -, hfailed⟩
  · exact absurd hc (State.not_refused_of_ready hr c)
  · exact absurd (congrArg State.err ht) herr
  · exact hfailed.err ▸ hfailed

/-- An UNSPLIT issued in READY while BUSY = 0 that ends in an error is a failed pass of its sizes, which are those of no
remainder when its header is missing. -/
theorem exec_unsplit_failed {s t : State} (hs : s.seq = none) (hr : s.lifecycle = .ready)
    (e : exec .unsplit s = .next t) (herr : t.err ≠ .noError) :
    PassFailed (s.accept (encode .unsplit)) t.err s.unsplitSizes t := by
  obtain ⟨t', e', hcases⟩ := execUnsplit_cases s
  obtain rfl : t = t' := Host.Outcome.next.inj (e.symm.trans e')
  rw [State.deliveredIB_idle hs, State.latch_idle hs] at hcases
  rcases hcases with ⟨c, hc, -⟩ | ⟨-, b, -, -, -, u, -, ht⟩ | ⟨-, code, -, hfailed⟩
  · exact absurd hc (State.not_refused_of_ready hr c)
  · exact absurd (congrArg State.err ht) herr
  · exact hfailed.err ▸ hfailed

/-- Outside what a pass writes, a failed pass changes STATUS, the count of draws and the mark that a wipe is owed
(logs 7 and 28). -/
theorem PassFailed.outside_of_idle {s t : State} {w : Word} {code : ErrCode} {z : PassSize} (hs : s.seq = none)
    (h : PassFailed (s.accept w) code z t) :
    t.outsidePass =
      { s with lifecycle := .failed, done := true, err := code, residue := true, epoch := s.epoch + 1 }.outsidePass := by
  refine h.outside.trans ?_
  rw [← hs]
  rfl

/-- Settles O23: either pass that ends in an error is a failed pass of these sizes (`exec_split_failed`,
`exec_unsplit_failed`), which leaves what `PassFailed` says. -/
theorem passErrorLeaves : Obligations.PassErrorLeaves := by
  intro i s t hs hr e herr z hi
  obtain ⟨w, h⟩ : ∃ w, PassFailed (s.accept w) t.err z t := by
    rcases hi with ⟨rfl, rfl⟩ | ⟨rfl, rfl⟩
    · exact ⟨_, exec_split_failed hs hr e herr⟩
    · exact ⟨_, exec_unsplit_failed hs hr e herr⟩
  obtain ⟨hfailed, -⟩ := h.fields
  obtain ⟨hblk, hipos, hopos, hppos⟩ := h.quiet
  obtain ⟨hforward, hbound⟩ := h.n
  exact ⟨hfailed, hblk, hipos, hopos, hppos, h.keptOB, h.keptPM, h.plen, hforward, hbound, h.outside_of_idle hs⟩

/-! ### The error of a SPLIT (R93, R94, R137) -/

/-- A SPLIT whose pass raises an error ends in it (R134). -/
theorem exec_split_raises {s : State} {code : ErrCode} (hs : s.seq = none) (hr : s.lifecycle = .ready)
    (h : ∃ ev, (s.accept (encode .split)).splitPass s.ctl.progEn (splitSize s.inLen.toNat) s.ib s.drawNoise
      s.drawFiller = .error ⟨code, ev⟩) : ∃ t, exec .split s = .next t ∧ t.err = code := by
  obtain ⟨ev, hraise⟩ := h
  exact ⟨_, execSplit_idle hs hr, by rw [hraise]; rfl⟩

/-- A SPLIT that does not fit raises CAPACITY before it reads a byte (R93). -/
theorem splitPass_capacity {s : State} {z : PassSize} (pe : Bool) (ib : List Byte) (noise : Byte) (filler : Nat → Byte)
    (h : z.tooBig s.params = true) : s.splitPass pe z ib noise filler = .error ⟨.capacity, s.progEv⟩ := by
  rw [State.splitPass, if_pos h]
  rfl

/-- Settles O24: the pass raises CAPACITY first (`splitPass_capacity`), and else the error of its first failing block
(`splitPass_fails`). -/
theorem splitFirstErrorWins : Obligations.SplitFirstErrorWins := by
  intro s hs hr L z
  refine ⟨fun hbig => ?_, fun hplanes hout B hB hrun => ?_⟩
  · exact exec_split_raises hs hr ⟨_, splitPass_capacity _ _ _ _ (PassSize.tooBig_true.2 hbig)⟩
  · obtain ⟨htruncated, hbadToken⟩ := splitPass_fails (s0 := s.accept (encode .split)) s.ctl.progEn s.drawNoise
      s.drawFiller s.inLen.isLt (PassSize.tooBig_false.2 ⟨hplanes, hout⟩) hB hrun
    exact ⟨fun hshort => exec_split_raises hs hr (htruncated hshort),
      fun hread hbad => exec_split_raises hs hr (hbadToken hread hbad)⟩

/-! ### The error of an UNSPLIT (R103, R104, R107, R137) -/

/-- ERRCODE of an UNSPLIT of these sizes once its header has been read: its checks in the order of R104. With a header
remainder and no planes the first token is taken before the gather finds no byte (R107). -/
def State.unsplitError (s : State) (z : PassSize) : ErrCode :=
  if z.tooBig s.params then .capacity
  else if s.ib.length < z.header + 8 * z.planes then .truncatedRead
  else if z.rem ≠ 0 ∧ z.planes = 0 then if tokenValid (s.tokenAt s.n) then .truncatedRead else .badToken
  else if (List.range z.planes).all fun b => tokenValid (s.tokenAt (s.n + b)) then .noError
  else .badToken

section
variable {s : State} {z : PassSize}

theorem State.unsplitError_of_tooBig (h : z.tooBig s.params = true) : s.unsplitError z = .capacity := if_pos h

variable (hfit : z.tooBig s.params = false)
include hfit

theorem State.unsplitError_of_short (h : s.ib.length < z.header + 8 * z.planes) :
    s.unsplitError z = .truncatedRead := by
  rw [State.unsplitError, if_neg (by simp [hfit]), if_pos h]

variable (hread : z.header + 8 * z.planes ≤ s.ib.length)
include hread

theorem State.unsplitError_of_noPlanes (hrem : z.rem ≠ 0) (hnone : z.planes = 0) :
    s.unsplitError z = if tokenValid (s.tokenAt s.n) then .truncatedRead else .badToken := by
  rw [State.unsplitError, if_neg (by simp [hfit]), if_neg (Nat.not_lt.2 hread), if_pos ⟨hrem, hnone⟩]

theorem State.unsplitError_of_tokens (hblock : z.rem ≠ 0 → z.planes ≠ 0) :
    s.unsplitError z =
      if (List.range z.planes).all fun b => tokenValid (s.tokenAt (s.n + b)) then .noError else .badToken := by
  rw [State.unsplitError, if_neg (by simp [hfit]), if_neg (Nat.not_lt.2 hread), if_neg]
  exact fun ⟨hrem, hnone⟩ => hblock hrem hnone

theorem State.unsplitError_of_tokensValid (hblock : z.rem ≠ 0 → z.planes ≠ 0) (hv : s.tokensValid s.n z.planes) :
    s.unsplitError z = .noError := by
  rw [State.unsplitError_of_tokens hfit hread hblock]
  exact if_pos (List.all_eq_true.2 fun b hb => hv b (List.mem_range.1 hb))

theorem State.unsplitError_of_badToken {B : Nat} (hB : B < z.planes)
    (hbad : tokenValid (s.tokenAt (s.n + B)) = false) : s.unsplitError z = .badToken := by
  rw [State.unsplitError_of_tokens hfit hread fun _ => Nat.ne_zero_of_lt hB]
  exact if_neg fun hall => by simp [List.all_eq_true.1 hall B (List.mem_range.2 hB)] at hbad

end

/-- The UNSPLIT pass runs to its end when no check fails, and else raises the error of the first that does. -/
theorem unsplitPass_error {s : State} {T : Nat} (pe : Bool) (hT : T < 2 ^ 32) {b : Byte}
    (hb : unsplitHeaderByte T s.ib = some b) :
    (s.unsplitError (unsplitSize T (headerRem b)) = .noError ∧
      ∃ t, s.unsplitPass pe (unsplitSize T (headerRem b)) s.ib b = .ok t) ∨
    ∃ ev, s.unsplitPass pe (unsplitSize T (headerRem b)) s.ib b =
      .error ⟨s.unsplitError (unsplitSize T (headerRem b)), ev⟩ := by
  obtain ⟨hrem, hheader, -, hout⟩ := unsplitSize_counts T (headerRem b)
  rcases unsplitPass_cases (s0 := s) pe b (unsplitSize_planes_le (headerRem b) hT) (by rw [hrem]; exact headerRem_lt b)
      (by rw [hrem]; exact hout) (by rw [hheader]; exact (unsplitHeaderByte_some hb).1) with
    ⟨hbig, e⟩ | ⟨hfit, hshort, ev, e⟩ | ⟨hfit, hread, hends⟩
  · exact .inr ⟨_, by rw [State.unsplitError_of_tooBig hbig, e]⟩
  · exact .inr ⟨ev, by rw [State.unsplitError_of_short hfit hshort, e]⟩
  rcases hends with ⟨hblock, hv, t, e, -⟩ | ⟨B, hB, -, hbad, ev, e⟩ | ⟨hr, h0, hv, ev, e⟩ | ⟨hr, h0, hv, ev, e⟩
  · exact .inl ⟨State.unsplitError_of_tokensValid hfit hread hblock hv, t, e⟩
  · exact .inr ⟨ev, by rw [State.unsplitError_of_badToken hfit hread hB hbad, e]⟩
  · exact .inr ⟨ev, by rw [State.unsplitError_of_noPlanes hfit hread hr h0, hv, e]; rfl⟩
  · exact .inr ⟨ev, by rw [State.unsplitError_of_noPlanes hfit hread hr h0, hv, e]; rfl⟩

/-- An UNSPLIT issued in READY while BUSY = 0, its header read, ends with this ERRCODE. -/
theorem exec_unsplit_err {s : State} {b : Byte} (hs : s.seq = none) (hr : s.lifecycle = .ready)
    (hb : unsplitHeaderByte s.inLen.toNat s.ib = some b) :
    ∃ t, exec .unsplit s = .next t ∧ t.err = s.unsplitError (unsplitSize s.inLen.toNat (headerRem b)) := by
  refine ⟨_, execUnsplit_idle hs hr hb, ?_⟩
  rcases unsplitPass_error (s := s.accept (encode .unsplit)) s.ctl.progEn s.inLen.isLt hb with ⟨hok, u, e⟩ | ⟨ev, e⟩
  · exact (congrArg (fun r => State.err (State.finishPass _ _ r _)) e).trans hok.symm
  · exact congrArg (fun r => State.err (State.finishPass _ _ r _)) e

/-- Settles O25: without a header the pass does not begin; with one its ERRCODE is `State.unsplitError`, case by case. -/
theorem unsplitFirstErrorWins : Obligations.UnsplitFirstErrorWins := by
  intro s hs hr
  refine ⟨fun hnone => ⟨_, execUnsplit_idle_noHeader hs hr hnone, rfl⟩, ?_⟩
  intro b hb z
  obtain ⟨t, e, herr⟩ := exec_unsplit_err hs hr hb
  have hends : ∀ {code}, s.unsplitError z = code → ∃ t, exec .unsplit s = .next t ∧ t.err = code :=
    fun hcode => ⟨t, e, herr.trans hcode⟩
  refine ⟨fun hbig => hends (State.unsplitError_of_tooBig (PassSize.tooBig_true.2 hbig)), fun hplanes hout => ?_⟩
  have hfit : z.tooBig s.params = false := PassSize.tooBig_false.2 ⟨hplanes, hout⟩
  refine ⟨fun hshort => hends (State.unsplitError_of_short hfit hshort), fun hread => ⟨fun B hB _ hbad => ?_,
    fun hrem hnone => ⟨fun hbad => ?_, fun hvalid => ?_⟩⟩⟩
  · exact hends (State.unsplitError_of_badToken hfit hread hB hbad)
  · exact hends (by rw [State.unsplitError_of_noPlanes hfit hread hrem hnone, hbad]; rfl)
  · exact hends (by rw [State.unsplitError_of_noPlanes hfit hread hrem hnone, hvalid]; rfl)

end Sys2Proof.Machine
end

section
/-! Observation and acknowledgement (60_exceptions.md section 5): IRQ (R140), the STATUS write and the acceptance of a
command (R138, R19). -/

namespace Sys2Proof.Machine

/-! ### IRQ (R140) -/

/-- ERRCODE reads 0 exactly without error (R131). -/
theorem ErrCode.code_bne_zero (e : ErrCode) : (e.code != 0#4) = (e != .noError) := by
  cases e <;> rfl

/-- Settles O44: the flags and enables of `State.irq` are the bits of the STATUS and CONFIG words. -/
theorem interruptLine : Obligations.InterruptLine := by
  refine ⟨fun s => ?_, rfl⟩
  obtain ⟨-, -, hdone, hovr, -, herr, -⟩ :=
    statusFields_of_packed s.err.code s.ovr s.done s.busy s.lifecycle.code s.statusWord rfl
  obtain ⟨-, -, -, hieDone, hieErr⟩ := s.ctl.word_fields
  rw [hdone, hovr, herr, hieDone, hieErr, ErrCode.code_bne_zero]
  rfl

/-! ### Acknowledgement and acceptance (R18 to R20, R138) -/

/-- A flag written as R18 says: a 1 clears it, a 0 leaves it. -/
theorem and_not_eq_clear (flag w : Bool) : (flag && !w) = if w then false else flag := by
  cases w <;> simp

/-- While BUSY = 0 the step of a start event accepts its command, stalled or not (R19, R157). -/
theorem step_start_stalled {s : State} {i : Instr} {b : Bool} {rest : List Input} (hs : s.seq = none)
    (hi : s.inputs = .start (encode i) b :: rest) :
    step s = .next { State.accept (encode i) { s with inputs := rest } with
      seq := some { s.latch (encode i) with stalled := b && s.asksPlatform i } } := by
  have hb : State.busy { s with inputs := rest } = false := (State.busy_false _).2 hs
  rw [step_event hi, State.handle, hb, if_neg (by decide), State.startWord, decode_encode]
  rfl

/-- Settles O45: a STATUS write is `State.acknowledge`, and a start event leaves its command accepted
(`step_start_stalled`). -/
theorem acknowledgeClearsFlags : Obligations.AcknowledgeClearsFlags := by
  refine ⟨fun s v rest hs hi => ?_, fun s i b rest hs hi => ⟨_, step_start_stalled hs hi, rfl, rfl⟩⟩
  rw [step_writeReg (r := .status) hs hi (by decide) (by decide) rfl (by decide), State.writeReg, State.acknowledge,
    and_not_eq_clear, and_not_eq_clear]

end Sys2Proof.Machine
end

section
/-! The reset event (70_reset_and_hazards.md section 1): the values it puts in place, and what it leaves of OB (R150, R151,
R160). -/

namespace Sys2Proof.Machine

/-! ### The reset table (R150) -/

theorem Control.zero_word : Control.zero.word = 0#32 := by decide

theorem Header.zero_word : Header.zero.word = 0#32 := by decide

theorem Progress.zero_word : Progress.zero.word = 0#32 := by decide

/-- STATUS reads 0 in UNINIT with every flag 0 and no error (R16, R20). -/
theorem State.statusWord_zero {s : State} (hstate : s.lifecycle = .uninit) (hseq : s.seq = none) (hdone : s.done = false)
    (hovr : s.ovr = false) (herr : s.err = .noError) : s.statusWord = 0#32 := by
  rw [State.statusWord, hstate, (State.busy_false s).2 hseq, hdone, hovr, herr]
  decide

/-- DBG_DATA reads 0 where no plane is provisioned (R32). -/
theorem State.dbgData_unprovisioned {s : State} (h : s.planeProv = 0#8) : s.dbgData = 0#32 := by
  simp [State.dbgData, h]

/-- The values of reset are those of the table, whatever the memories, the host's streams and the model's own fields
hold. -/
theorem State.resetWith_resetTable (p : Params) (pm ob : Store) (ib : List Byte) (residue : Bool) (rdata : Word)
    (obData : Byte) (pins : List OracleAnswer) (epoch : Nat) (inputs : List Input) :
    State.ResetTable { State.resetWith p with
      pm := pm, ob := ob, ib := ib, residue := residue, rdata := rdata, obData := obData, oraclePins := pins,
      epoch := epoch, inputs := inputs } :=
  ⟨State.statusWord_zero rfl rfl rfl rfl rfl, Control.zero_word, rfl, rfl, rfl, rfl, Header.zero_word, Progress.zero_word,
    rfl, rfl, rfl, rfl, rfl, rfl, rfl, rfl, rfl, rfl, rfl, rfl, rfl, rfl, rfl, rfl, rfl, rfl, rfl,
    State.dbgData_unprovisioned rfl⟩

theorem State.resetEvent_resetTable (s : State) : s.resetEvent.ResetTable := State.resetWith_resetTable ..

/-- Settles O51: nothing but the table's values is in `State.resetWith`. -/
theorem resetStateValues : Obligations.ResetStateValues :=
  State.resetWith_resetTable Config.params ⟨[], .afterReset 0⟩ ⟨[], .ofHost⟩ [] false 0#32 0#8 [] 0 []

/-- Settles O60: right after reset nothing runs, the memories list nothing, the planes are empty, the key buffers hold
KEY_MAX zeros, and the unit is in UNINIT, of which `StorageFollowsState` and `ClosedIsClean` ask nothing. -/
theorem invariantsHoldAtReset : Obligations.InvariantsHoldAtReset := by
  obtain ⟨hequal, hfit⟩ := State.planes_of_empty (s := State.reset) rfl rfl
  exact ⟨⟨Store.wf_nil _, Store.wf_nil _⟩,
    ⟨fun _ hc => absurd hc List.not_mem_nil, fun _ hc => absurd hc List.not_mem_nil⟩,
    ⟨rfl, rfl, rfl, rfl⟩,
    State.storageFollowsState_of_uninit rfl,
    ⟨List.length_replicate, List.length_replicate, Nat.zero_le _, Nat.zero_le _⟩,
    State.closedIsClean_of_ne (by decide),
    State.busyAsAccepted_of_idle rfl,
    hequal, hfit, Nat.zero_le _, fun _ => rfl⟩

/-! ### The reset event and the pass it abandons (R150, R151, R160) -/

/-- A reset while no pass runs leaves OB, and the host's duty to wipe as it stood. -/
theorem State.resetEvent_of_noPass {s : State} (h : s.runningPass = none) :
    (∀ a, s.resetEvent.ob.read a = s.ob.read a) ∧ s.resetEvent.residue = s.residue := by
  refine ⟨fun a => s.resetEvent_keptOB ?_, ?_⟩
  · rw [State.abortedOut, h]
    exact Nat.zero_le a
  · show (s.residue || s.runningPass.isSome) = s.residue
    rw [h]
    exact Bool.or_false _

/-- A reset that abandons a pass leaves OB at and above the pass's output, and the duty to wipe stands. -/
theorem State.resetEvent_of_pass {s : State} {z : PassSize} (h : s.runningPass = some z) :
    (∀ a, z.out ≤ a → s.resetEvent.ob.read a = s.ob.read a) ∧ s.resetEvent.wipedForReset = false := by
  refine ⟨fun a ha => s.resetEvent_keptOB ?_, ?_⟩
  · rw [State.abortedOut, h]
    exact (Nat.min_le_left _ _).trans ha
  · have hmarked : s.resetEvent.residue = true := by
      show (s.residue || s.runningPass.isSome) = true
      rw [h]
      exact Bool.or_true _
    rw [State.wipedForReset, hmarked]
    rfl

/-- A running command that is neither SPLIT nor UNSPLIT is no pass. -/
theorem State.runningPass_of_noPassWord {s : State} {q : Seq} (hq : s.seq = some q)
    (hsplit : decode q.word ≠ .ok .split) (hunsplit : decode q.word ≠ .ok .unsplit) : s.runningPass = none := by
  by_cases hr : s.lifecycle = .ready
  · rw [State.runningPass_ready hq hr]
    split
    next h => exact absurd h hsplit
    next h => exact absurd h hunsplit
    next => rfl
  · exact State.runningPass_notReady hr

/-- A reset that abandons an UNSPLIT leaves OB at and above its output, which its header byte decides (R105, R150). -/
theorem State.resetEvent_of_unsplit {s : State} {q : Seq} (hq : s.seq = some q) (hr : s.lifecycle = .ready)
    (hw : decode q.word = .ok .unsplit) :
    (∀ h, unsplitHeaderByte q.inLen.toNat (s.deliveredIB q) = some h →
      ∀ a, (unsplitSize q.inLen.toNat (headerRem h)).out ≤ a → s.resetEvent.ob.read a = s.ob.read a) ∧
    (unsplitHeaderByte q.inLen.toNat (s.deliveredIB q) = none →
      ∀ a, (unsplitSize q.inLen.toNat 0).out ≤ a → s.resetEvent.ob.read a = s.ob.read a) ∧
    s.resetEvent.wipedForReset = false := by
  have hpass := State.runningPass_ready hq hr
  rw [hw] at hpass
  obtain ⟨hob, hduty⟩ := State.resetEvent_of_pass hpass
  refine ⟨fun b hb => ?_, fun hb => ?_, hduty⟩
  · simpa only [hb] using hob
  · simpa only [hb] using hob

/-- Settles O50: what reset does to OB depends on the pass that runs alone (`State.resetEvent_of_noPass`,
`State.resetEvent_of_pass`), whose sizes are `State.runningPass_ready`. -/
theorem resetEventLeaves : Obligations.ResetEventLeaves := by
  intro s rest hi
  have hstep : step s = .next { s.resetEvent with inputs := rest } := step_event hi
  refine ⟨_, hstep, State.resetEvent_resetTable { s with inputs := rest }, rfl, rfl,
    fun a ha => s.resetEvent_keptOB (s.abortedOut_le.trans ha), fun hnone => ?noPass,
    fun q hq hr => ⟨fun hw => ?split, State.resetEvent_of_unsplit hq hr, fun hsplit hunsplit => ?other⟩⟩
  case noPass => exact State.resetEvent_of_noPass (hnone.elim State.runningPass_idle State.runningPass_notReady)
  case split => exact State.resetEvent_of_pass (by rw [State.runningPass_ready hq hr, hw])
  case other => exact State.resetEvent_of_noPass (State.runningPass_of_noPassWord hq hsplit hunsplit)

end Sys2Proof.Machine
end

section
/-! Hazards (70_reset_and_hazards.md section 2): writes after INIT (R155) and while BUSY = 1 (R139, R152), and a command that
the platform never answers (R157). -/

namespace Sys2Proof.Machine

/-! ### Writes after INIT (R155) -/

/-- The registers that take a write in UNINIT only (R17): PLANE_PROV, the key lengths and the key words. -/
def Reg.initOnly : Reg → Bool
  | .planeProv | .key1Len | .key2Len | .key1 _ | .key2 _ => true
  | _ => false

/-- Outside UNINIT such a register ignores a write. -/
theorem State.writeReg_initOnly {s : State} (h : s.lifecycle ≠ .uninit) {r : Reg} (hr : r.initOnly = true) (v : Word) :
    s.writeReg r v = s := by
  cases r with
  | planeProv | key1Len | key2Len => exact if_neg h
  | key1 i | key2 i => exact if_neg fun hk => h hk.1
  | _ => cases hr

/-- Every offset of the two key windows is a key word (R17). -/
theorem regAt_initOnly_of_keyWindow {off : Nat} (hlow : 0x100 ≤ off) (hhigh : off < 0x300) :
    (regAt off).initOnly = true := by
  rw [regAt_beyond (by omega)]
  split_ifs
  · rfl
  · rfl
  · omega

/-- Settles O40: each of these offsets is a register that takes a write in UNINIT only. -/
theorem keysAndStorageFreezeAtInit : Obligations.KeysAndStorageFreezeAtInit := by
  intro s off v rest hu _ hi hoff
  have hreg : (regAt off).initOnly = true := by
    rcases hoff with rfl | rfl | rfl | ⟨-, hlow, hhigh⟩
    · rfl
    · rfl
    · rfl
    · exact regAt_initOnly_of_keyWindow hlow hhigh
  exact step_writeIgnored hi (by omega) (by omega) (regAt_ne_cmd (by omega))
    (State.writeReg_initOnly (s := { s with inputs := rest }) hu hreg v)

/-! ### Writes while BUSY = 1, and OVR (R139, R152) -/

/-- While BUSY = 1 a register write is `State.busyWrite`, whatever its register. -/
theorem State.hostWrite_busy {s : State} (h : s.seq ≠ none) (off : Nat) (v : Word) :
    s.hostWrite off v = .next (s.busyWrite (regAt off)) :=
  if_pos ((State.busy_iff s).2 h)

/-- STATUS stands at one offset (R17). -/
theorem regAt_eq_status {off : Nat} (h : regAt off = .status) : off = 0x004 := by
  by_cases hoff : 0x040 < off
  · rw [regAt_beyond hoff] at h
    split_ifs at h
  · have hmap : ∀ off < 0x041, regAt off = .status → off = 0x004 := by decide
    exact hmap off (by omega) h

/-- A register write leaves OVR, but for a STATUS write with a 1 in bit 4 (R20). -/
theorem State.writeReg_ovr {s : State} {r : Reg} {v : Word} (h : r = .status → v.getLsbD 4 = false) :
    (s.writeReg r v).ovr = s.ovr := by
  cases r with
  | status => simp only [State.writeReg, State.acknowledge, h rfl, Bool.not_false, Bool.and_true]
  | planeProv | key1Len | key2Len | key1 i | key2 i =>
    simp only [State.writeReg]
    split <;> rfl
  | _ => rfl

/-- OVR lies outside a pass (R62). -/
theorem State.ovr_of_outsidePass {s t : State} (h : t.outsidePass = s.outsidePass) : t.ovr = s.ovr := by
  rw [State.eq_of_outsidePass h]

/-- No command changes OVR (R139). -/
theorem Executed.ovr {i : Instr} {s t : State} (h : Executed i s t) : t.ovr = s.ovr := by
  cases h with
  | split _ _ _ u hu ht => rw [ht]; exact (State.ovr_of_outsidePass hu.outside :)
  | unsplit _ _ b _ u hu ht => rw [ht]; exact (State.ovr_of_outsidePass hu.outside :)
  | passFailed _ _ w code _ z ht => exact (State.ovr_of_outsidePass ht.outside :)
  | _ => subst t; rfl

theorem State.taken_ovr (s : State) : s.taken.ovr = s.ovr := by
  unfold State.taken
  split <;> rfl

/-- Once OVR is 1, a step leaves it 1, unless it is the reset event or a STATUS write with a 1 in bit 4 (R139). -/
theorem step_keeps_ovr {s t : State} (h : s.ovr = true) (e : step s = .next t) :
    t.ovr = true ∨ (∃ rest, s.inputs = .reset :: rest) ∨
      ∃ v rest, s.inputs = .write 32 0x004 v :: rest ∧ v.getLsbD 4 = true := by
  cases step_cases e with
  | still ht => exact .inl (ht ▸ h)
  | command w _ u hu ht =>
    have hu : u.ovr = true := by rw [hu, State.taken_ovr, h]
    rcases ht with ⟨i, -, hx⟩ | ht
    · exact .inl (hx.ovr.trans hu)
    · exact .inl (ht ▸ hu)
  | wrote off v rest hi _ _ ht =>
    by_cases hack : regAt off = .status ∧ v.getLsbD 4 = true
    · obtain ⟨hr, hv⟩ := hack
      exact .inr (.inr ⟨v, rest, regAt_eq_status hr ▸ hi, hv⟩)
    · have hclear : regAt off = .status → v.getLsbD 4 = false := fun hr => eq_false_of_ne_true fun hv => hack ⟨hr, hv⟩
      exact .inl (by rw [ht, State.writeReg_ovr hclear]; exact h)
  | ignored i rest _ _ b ht => exact .inl (by rw [ht]; exact Bool.or_eq_true_iff.2 (.inl h))
  | read off rest _ ht => exact .inl (by rw [ht, State.hostRead_frame]; exact h)
  | readOB a rest _ ht => exact .inl (by rw [ht, State.hostReadOB_frame]; exact h)
  | reset rest hi _ => exact .inr (.inl ⟨rest, hi⟩)
  | accepted _ _ _ _ _ _ _ _ ht | illegal _ _ _ _ _ ht | waited _ _ _ ht | setIB _ _ _ ht | wroteOB _ _ _ _ _ ht =>
    exact .inl (ht ▸ h)

/-- Settles O42: `State.hostWrite_busy` and `step_keeps_ovr`. -/
theorem busyWritesAndOverrun : Obligations.BusyWritesAndOverrun := by
  refine ⟨fun s off v rest hs hi h4 hl => ?_, fun s t => step_keeps_ovr, fun s w => rfl⟩
  rw [step_write hi h4 hl, State.hostWrite_busy (s := { s with inputs := rest }) (Option.isSome_iff_ne_none.1 hs)]
  refine ⟨fun hoff => ?_, fun hoff => ?_⟩
  · rw [State.busyWrite, if_neg (regAt_ne_cmd hoff)]
  · rw [State.busyWrite, if_pos ((regAt_eq_cmd off).2 hoff)]

/-! ### A command that the platform never answers (R73, R157) -/

/-- While a stalled command runs no step runs a command word: it does not complete, and BUSY = 1 lets no other in. -/
theorem State.nextWord_stalled {s : State} {q : Seq} (hq : s.seq = some q) (hst : q.stalled = true) :
    s.nextWord = none := by
  have hb : s.busy = true := (State.busy_iff s).2 (by simp [hq])
  unfold State.nextWord
  split <;> simp [hb, hq, hst]

/-- Settles O6: while the command is stalled no word runs (`State.nextWord_stalled`), BUSY = 1 lets no write in, and a host's
access to its streams adds to the sequencer's records at most. -/
theorem stalledCommandEndsOnlyAtReset : Obligations.StalledCommandEndsOnlyAtReset := by
  intro s t q hq hst e
  have hbusy : s.seq ≠ none := by simp [hq]
  cases step_cases e with
  | command w hw =>
    rw [State.nextWord_stalled hq hst] at hw
    cases hw
  | accepted _ _ _ _ hs | illegal _ _ _ _ hs | wrote _ _ _ _ hs => exact absurd hs hbusy
  | still ht | ignored _ _ _ _ _ ht | waited _ _ _ ht =>
    subst ht
    exact .inr ⟨rfl, rfl, rfl, q, hq, hst, rfl⟩
  | read off rest _ ht =>
    rw [State.hostRead_frame] at ht
    subst ht
    exact .inr ⟨rfl, rfl, rfl, q, hq, hst, rfl⟩
  | readOB a rest _ ht =>
    rw [State.hostReadOB_frame] at ht
    subst ht
    exact .inr ⟨rfl, rfl, rfl, q, hq, hst, rfl⟩
  | setIB bytes rest _ ht =>
    subst ht
    exact .inr ⟨rfl, rfl, rfl, { q with ibOld := s.ib :: q.ibOld }, by simp [State.hostSetIB, hq], hst, rfl⟩
  | wroteOB a v rest _ _ ht =>
    subst ht
    exact .inr ⟨rfl, rfl, rfl, { q with obRaced := a :: q.obRaced }, by simp [State.hostWriteOB, hq], hst, rfl⟩
  | reset rest hi _ => exact .inl ⟨rest, hi⟩

end Sys2Proof.Machine
end

section
/-! Races (70_reset_and_hazards.md section 2): a host that fills IB and writes OB while a SPLIT or an UNSPLIT runs (R153,
R154). -/

namespace Sys2Proof.Machine

/-! ### The input drawn for a pass (R153) -/

/-- `ib` is drawn from the contents `held` that IB has had: its extent lies at a draw between `least` and `most`, those of
the contents, and each of its bytes is a draw among those that its offset held (log 11). -/
structure DrawnFrom (epoch : Nat) (held : List (List Byte)) (ib : List Byte) (least most : Nat) : Prop where
  leastHeld : ∃ v ∈ held, v.length = least
  mostHeld : ∃ v ∈ held, v.length = most
  bounds : ∀ v ∈ held, least ≤ v.length ∧ v.length ≤ most
  extent : ib.length = least + Config.raceExtent epoch % (most - least + 1)
  bytes : ∀ a < ib.length, ib[a]? = (held.filterMap fun v => v[a]?)[
    Config.raceIB epoch a % (held.filterMap fun v => v[a]?).length]?

/-- The draw of an extent lies between the least and the greatest. -/
theorem drawnExtent_le {least most : Nat} (h : least ≤ most) (x : Nat) : least + x % (most - least + 1) ≤ most := by
  have hlt : x % (most - least + 1) < most - least + 1 := Nat.mod_lt x (Nat.succ_pos _)
  omega

/-- Below the greatest extent every offset held some byte. -/
theorem heldBytes_length_pos {held : List (List Byte)} {most a : Nat} (h : ∃ v ∈ held, v.length = most) (ha : a < most) :
    0 < (held.filterMap fun v => v[a]?).length := by
  obtain ⟨v, hv, rfl⟩ := h
  exact List.length_pos_of_mem (List.mem_filterMap.2 ⟨v, hv, List.getElem?_eq_getElem ha⟩)

section
variable {epoch least most : Nat} {held : List (List Byte)} {ib : List Byte}

theorem DrawnFrom.length_le (h : DrawnFrom epoch held ib least most) : least ≤ ib.length ∧ ib.length ≤ most := by
  obtain ⟨v, hv, rfl⟩ := h.leastHeld
  have hle := (h.bounds v hv).2
  rw [h.extent]
  exact ⟨Nat.le_add_right _ _, drawnExtent_le hle _⟩

/-- A byte drawn is one that its offset held. -/
theorem DrawnFrom.byte_held (h : DrawnFrom epoch held ib least most) {a : Nat} (ha : a < ib.length) :
    ∃ v ∈ held, ib[a]? = v[a]? := by
  have hpos := heldBytes_length_pos h.mostHeld (ha.trans_le h.length_le.2)
  have hbyte := h.bytes a ha
  rw [List.getElem?_eq_getElem (Nat.mod_lt _ hpos)] at hbyte
  obtain ⟨v, hv, hva⟩ := List.mem_filterMap.1 (List.getElem_mem (Nat.mod_lt (Config.raceIB epoch a) hpos))
  exact ⟨v, hv, hbyte.trans hva.symm⟩

end

/-- Contents that IB kept throughout are what is drawn from them. -/
theorem DrawnFrom.single (epoch : Nat) (v : List Byte) : DrawnFrom epoch [v] v v.length v.length where
  leastHeld := ⟨v, List.mem_singleton_self v, rfl⟩
  mostHeld := ⟨v, List.mem_singleton_self v, rfl⟩
  bounds w hw := by rw [List.mem_singleton.1 hw]; exact ⟨le_rfl, le_rfl⟩
  extent := by rw [Nat.sub_self, Nat.zero_add, Nat.mod_one, Nat.add_zero]
  bytes a ha := by simp [List.getElem?_eq_getElem ha, Nat.mod_one]

/-- The draws that `State.deliveredIB` takes, between the extents that bound those of the contents. -/
theorem DrawnFrom.draw {epoch least most : Nat} {held : List (List Byte)} (hleast : ∃ v ∈ held, v.length = least)
    (hmost : ∃ v ∈ held, v.length = most) (hbounds : ∀ v ∈ held, least ≤ v.length ∧ v.length ≤ most) :
    DrawnFrom epoch held ((List.range (least + Config.raceExtent epoch % (most - least + 1))).map fun a =>
      (held.filterMap fun v => v[a]?).getD (Config.raceIB epoch a % (held.filterMap fun v => v[a]?).length) 0#8)
      least most where
  leastHeld := hleast
  mostHeld := hmost
  bounds := hbounds
  extent := by rw [List.length_map, List.length_range]
  bytes a ha := by
    rw [List.length_map, List.length_range] at ha
    obtain ⟨v, hv, hlen⟩ := hleast
    have hle : least ≤ most := hlen ▸ (hbounds v hv).2
    have hpos := heldBytes_length_pos hmost (ha.trans_le (drawnExtent_le hle _))
    rw [List.getElem?_map, List.getElem?_range ha, Option.map_some, List.getD_eq_getElem _ _ (Nat.mod_lt _ hpos),
      List.getElem?_eq_getElem (Nat.mod_lt _ hpos)]

/-- An extent listed is that of some contents. -/
theorem exists_of_mem_lengths {v : List Byte} {vs : List (List Byte)} {n : Nat}
    (h : n ∈ v.length :: (v :: vs).map List.length) : ∃ w ∈ v :: vs, w.length = n := by
  rcases List.mem_cons.1 h with h | h
  · exact ⟨v, List.mem_cons_self, h.symm⟩
  · exact List.mem_map.1 h

/-- The least extent of some contents, as `State.deliveredIB` computes it. -/
theorem foldl_min_length (v : List Byte) (vs : List (List Byte)) :
    (∃ w ∈ v :: vs, w.length = (v :: vs).foldl (fun m w => min m w.length) v.length) ∧
    ∀ w ∈ v :: vs, (v :: vs).foldl (fun m w => min m w.length) v.length ≤ w.length := by
  have hmin : (v.length :: (v :: vs).map List.length).min? =
      some ((v :: vs).foldl (fun m w => min m w.length) v.length) := by
    rw [List.min?_cons', List.foldl_map]
  obtain ⟨hmem, hle⟩ := List.min?_eq_some_iff.1 hmin
  exact ⟨exists_of_mem_lengths hmem, fun w hw => hle _ (List.mem_cons_of_mem _ (List.mem_map_of_mem hw))⟩

/-- The greatest extent of some contents, as `State.deliveredIB` computes it. -/
theorem foldl_max_length (v : List Byte) (vs : List (List Byte)) :
    (∃ w ∈ v :: vs, w.length = (v :: vs).foldl (fun m w => max m w.length) v.length) ∧
    ∀ w ∈ v :: vs, w.length ≤ (v :: vs).foldl (fun m w => max m w.length) v.length := by
  have hmax : (v.length :: (v :: vs).map List.length).max? =
      some ((v :: vs).foldl (fun m w => max m w.length) v.length) := by
    rw [List.max?_cons', List.foldl_map]
  obtain ⟨hmem, hle⟩ := List.max?_eq_some_iff.1 hmax
  exact ⟨exists_of_mem_lengths hmem, fun w hw => hle _ (List.mem_cons_of_mem _ (List.mem_map_of_mem hw))⟩

/-- What IB delivers to a running command is drawn from what it has held since acceptance. -/
theorem State.deliveredIB_drawnFrom (q : Seq) (s : State) :
    ∃ least most, DrawnFrom s.epoch (s.ib :: q.ibOld) (s.deliveredIB q) least most := by
  unfold State.deliveredIB
  cases q.ibOld with
  | nil => exact ⟨_, _, DrawnFrom.single s.epoch s.ib⟩
  | cons v vs =>
    obtain ⟨hleast, hleastLe⟩ := foldl_min_length s.ib (v :: vs)
    obtain ⟨hmost, hmostLe⟩ := foldl_max_length s.ib (v :: vs)
    exact ⟨_, _, DrawnFrom.draw hleast hmost fun w hw => ⟨hleastLe w hw, hmostLe w hw⟩⟩

/-! ### The host's events while a pass runs (R153, R154) -/

/-- Running these events took the sequencer from `q` to `q'` and IB to `ib`: what the command latched stands, and the
sequencer keeps what IB held and where OB was written. -/
structure RacedTo (es : List Input) (s : State) (q : Seq) (ib : List Byte) (q' : Seq) : Prop where
  latched : q' = { q with ibOld := q'.ibOld, obRaced := q'.obRaced }
  held : ib :: q'.ibOld = (es.filterMap Input.ibBytes).reverse ++ s.ib :: q.ibOld
  raced : ∀ a, a ∈ q'.obRaced ↔ a ∈ q.obRaced ∨ ∃ v, .writeOB a v ∈ es

/-- While a command runs, events that race it change IB, OB and the sequencer's records alone. -/
theorem run_races {es tail : List Input} {s : State} {q : Seq} (hq : s.seq = some q) (hi : s.inputs = es ++ tail)
    (hes : ∀ e ∈ es, e.races s.params) :
    ∃ ib ob q', RacedTo es s q ib q' ∧ Host.Core.run Sys2Proof.core es.length s =
      .next { s with ib := ib, ob := ob, seq := some q', inputs := tail } := by
  induction es generalizing s q with
  | nil =>
    refine ⟨s.ib, s.ob, q, ⟨rfl, rfl, by simp⟩, ?_⟩
    rw [← hq, ← show s.inputs = tail from hi]
    rfl
  | cons e es ih =>
    have hrest : ∀ e ∈ es, e.races s.params := fun e he => hes e (List.mem_cons_of_mem _ he)
    have hrace : e.races s.params := hes e List.mem_cons_self
    cases e with
    | setIB bytes =>
      obtain ⟨ib, ob, q', hr, hrun⟩ := ih (s := State.hostSetIB bytes { s with inputs := es ++ tail })
        (q := { q with ibOld := s.ib :: q.ibOld }) (congrArg (Option.map _) hq) rfl hrest
      refine ⟨ib, ob, q', ⟨hr.latched, hr.held.trans ?_, fun a => (hr.raced a).trans (by simp)⟩,
        (run_of_step Sys2Proof.core _ (step_setIB hi)).trans hrun⟩
      simp [Input.ibBytes, State.hostSetIB]
    | writeOB a v =>
      obtain ⟨ib, ob, q', hr, hrun⟩ := ih (s := State.hostWriteOB a v { s with inputs := es ++ tail })
        (q := { q with obRaced := a :: q.obRaced }) (congrArg (Option.map _) hq) rfl hrest
      refine ⟨ib, ob, q', ⟨hr.latched, hr.held, fun b => (hr.raced b).trans ?_⟩,
        (run_of_step Sys2Proof.core _ (step_writeOB hi hrace)).trans hrun⟩
      simp [exists_or, or_assoc, or_left_comm]
    | _ => exact hrace.elim

/-! ### The pass of a SPLIT or an UNSPLIT -/

/-- In READY the command `i`, with IN_LEN and CONFIG latched as `inLen` and `ctl` and with `ib` delivered, is the pass
`pass` of sizes `z`. The pass looks at neither IB, the sequencer nor the events, and it ends with a pass error or with
OB as it was from its output's end on. -/
structure ReadyPass (i : Instr) (inLen : Word) (ctl : Control) (ib : List Byte) (z : PassSize)
    (pass : State → Run State) : Prop where
  exec_eq : ∀ {s : State}, s.lifecycle = .ready → (s.latch (encode i)).inLen = inLen → (s.latch (encode i)).ctl = ctl →
    (s.accept (encode i)).deliveredIB (s.latch (encode i)) = ib →
    exec i s = .next (State.finishPass (s.latch (encode i)) z (pass (s.accept (encode i))) (s.accept (encode i)))
  rehost : ∀ jb q es (s : State), pass (s.rehost jb q es) = (pass s).map (State.rehost jb q es)
  ends : ∀ s : State, (∃ t, pass s = .ok t ∧ ∀ a, z.out ≤ a → t.ob.read a = s.ob.read a) ∨
    ∃ e, pass s = .error e ∧ e.code.ofPass

theorem readyPass_split (inLen : Word) (ctl : Control) (ib : List Byte) :
    ReadyPass .split inLen ctl ib (splitSize inLen.toNat) fun s =>
      s.splitPass ctl.progEn (splitSize inLen.toNat) ib s.drawNoise s.drawFiller where
  exec_eq hr hl hc hd := by rw [execSplit_ready hr, hl, hc, hd]
  rehost jb q es s := State.splitPass_rehost jb q es _ _ _ _ _ s
  ends s := by
    rcases splitPass_cases (s0 := s) ctl.progEn ib s.drawNoise s.drawFiller inLen.isLt with
      ⟨-, he⟩ | ⟨-, -, t, ht, hdone⟩ | ⟨-, B, -, -, ⟨-, ev, he⟩ | ⟨-, -, ev, he⟩⟩
    · exact .inr ⟨_, he, .inr (.inr rfl)⟩
    · exact .inl ⟨t, ht, hdone.keptOB⟩
    · exact .inr ⟨_, he, .inl rfl⟩
    · exact .inr ⟨_, he, .inr (.inl rfl)⟩

/-- An UNSPLIT whose header IB does not deliver is a pass that raises at once (R104). -/
theorem readyPass_unsplit_noHeader {inLen : Word} {ib : List Byte} (hh : unsplitHeaderByte inLen.toNat ib = none)
    (ctl : Control) :
    ReadyPass .unsplit inLen ctl ib (unsplitSize inLen.toNat 0) fun s => s.raise .truncatedRead where
  exec_eq {s} hr hl _ hd := by
    have hnone : unsplitHeaderByte (s.latch (encode .unsplit)).inLen.toNat
        ((s.accept (encode .unsplit)).deliveredIB (s.latch (encode .unsplit))) = none := by rw [hl, hd, hh]
    rw [execUnsplit_noHeader hr hnone, hl]
    rfl
  rehost _ _ _ _ := rfl
  ends s := .inr ⟨_, rfl, .inl rfl⟩

theorem readyPass_unsplit_header {inLen : Word} {ib : List Byte} {b : Byte}
    (hh : unsplitHeaderByte inLen.toNat ib = some b) (ctl : Control) :
    ReadyPass .unsplit inLen ctl ib (unsplitSize inLen.toNat (headerRem b)) fun s =>
      s.unsplitPass ctl.progEn (unsplitSize inLen.toNat (headerRem b)) ib b where
  exec_eq {s} hr hl hc hd := by
    have hsome : unsplitHeaderByte (s.latch (encode .unsplit)).inLen.toNat
        ((s.accept (encode .unsplit)).deliveredIB (s.latch (encode .unsplit))) = some b := by rw [hl, hd, hh]
    rw [execUnsplit_header hr hsome, hl, hc, hd]
  rehost jb q es s := State.unsplitPass_rehost jb q es _ _ _ _ s
  ends s := by
    obtain ⟨hrem, hhd, -, hout⟩ := unsplitSize_counts inLen.toNat (headerRem b)
    rcases unsplitPass_cases (s0 := s) ctl.progEn (ib := ib) b (unsplitSize_planes_le (headerRem b) inLen.isLt)
      (by rw [hrem]; exact headerRem_lt b) (by rw [hrem]; exact hout)
      (by rw [hhd]; exact (unsplitHeaderByte_some hh).1) with
      ⟨-, he⟩ | ⟨-, -, ev, he⟩ | ⟨-, -, ⟨-, -, t, ht, hdone⟩ | ⟨B, -, -, -, ev, he⟩ | ⟨-, -, -, ev, he⟩ | ⟨-, -, -, ev, he⟩⟩
    · exact .inr ⟨_, he, .inr (.inr rfl)⟩
    · exact .inr ⟨_, he, .inl rfl⟩
    · exact .inl ⟨t, ht, hdone.keptOB⟩
    · exact .inr ⟨_, he, .inr (.inl rfl)⟩
    · exact .inr ⟨_, he, .inr (.inl rfl)⟩
    · exact .inr ⟨_, he, .inl rfl⟩

theorem exists_readyPass {i : Instr} (hi : i = .split ∨ i = .unsplit) (inLen : Word) (ctl : Control) (ib : List Byte) :
    ∃ z pass, ReadyPass i inLen ctl ib z pass := by
  rcases hi with rfl | rfl
  · exact ⟨_, _, readyPass_split inLen ctl ib⟩
  · cases hh : unsplitHeaderByte inLen.toNat ib with
    | none => exact ⟨_, _, readyPass_unsplit_noHeader hh ctl⟩
    | some b => exact ⟨_, _, readyPass_unsplit_header hh ctl⟩

/-! ### The end of a pass that the host raced (R154) -/

/-- The end of a raced pass is that of the pass alone, but for OB, IB and the events to come. -/
theorem State.finishPass_raced (q q' : Seq) (z : PassSize) (r : Run State) (a : State) (jb : List Byte)
    (es : List Input) :
    State.finishPass q' z (r.map (State.rehost jb (some q') es)) (a.rehost jb (some q') es) =
      { State.finishPass q z r a with
        ob := (State.finishPass q' z (r.map (State.rehost jb (some q') es)) (a.rehost jb (some q') es)).ob
        ib := jb
        inputs := es } := by
  cases r <;> rfl

/-- A byte of OB at the end of a raced pass `t`, against the pass alone `u`: the host's (`before`) or the pass's, the
pass's where the host did not write, and the draw's choice where it did and the pass ran to its end. -/
structure SettledByte (q : Seq) (epoch : Nat) (before : Store) (t u : State) (b : Nat) : Prop where
  quiet : b ∉ q.obRaced → t.ob.read b = u.ob.read b
  either : t.ob.read b = before.read b ∨ t.ob.read b = u.ob.read b
  drawn : b ∈ q.obRaced → u.err = .noError →
    t.ob.read b = if Config.raceOB epoch b = true then before.read b else u.ob.read b

theorem ReadyPass.settledByte {i : Instr} {inLen : Word} {ctl : Control} {ib : List Byte} {z : PassSize}
    {pass : State → Run State} (h : ReadyPass i inLen ctl ib z pass) {q q' : Seq} (hq : q.obRaced = []) (a : State)
    (jb : List Byte) (es : List Input) (b : Nat) :
    SettledByte q' a.epoch a.ob
      (State.finishPass q' z ((pass a).map (State.rehost jb (some q') es)) (a.rehost jb (some q') es))
      (State.finishPass q z (pass a) a) b := by
  rcases h.ends a with ⟨t, ht, hkept⟩ | ⟨e, he, hcode⟩
  · have hu : (State.finishPass q z (pass a) a).ob = t.ob := by rw [ht]; exact settleOB_quiet hq _ _ _ _
    have hb : (State.finishPass q' z ((pass a).map (State.rehost jb (some q') es)) (a.rehost jb (some q') es)).ob.read b =
        if b ∈ q'.obRaced ∧ b < z.out ∧ Config.raceOB a.epoch b = true then a.ob.read b else t.ob.read b := by
      rw [ht]; exact settleOB_exact q' a.epoch z.out a.ob t.ob b
    constructor
    · intro hquiet
      rw [hb, hu, if_neg (hquiet ·.1)]
    · rw [hb, hu]
      split
      · exact .inl rfl
      · exact .inr rfl
    · intro hraced _
      rw [hb, hu]
      by_cases hout : b < z.out
      · simp only [hraced, hout, true_and]
      · rw [if_neg (hout ·.2.1), hkept b (Nat.le_of_not_lt hout), ite_self]
  · rw [he]
    exact ⟨fun _ => rfl, .inr rfl, fun _ hnone => absurd hnone hcode.ne_noError⟩

/-! ### The races -/

/-- A running command is the one that its sequencer holds (R36). -/
theorem State.latch_running {s : State} {q : Seq} (h : s.seq = some q) (w : Word) : s.latch w = q := by
  unfold State.latch; rw [h]

/-- A SPLIT or an UNSPLIT that completes in `a`, where its acceptance in `s` left it but for IB, the sequencer's records
and the events to come, and to which IB delivers `s.ib`, ends as the command alone does in `s`, but for the OB bytes that
raced. -/
theorem exec_raced {i : Instr} (hi : i = .split ∨ i = .unsplit) {s a : State} {q : Seq} {jb : List Byte}
    {es : List Input} (hs : s.seq = none) (hr : s.lifecycle = .ready) (hq : a.seq = some q) (hlen : q.inLen = s.inLen)
    (hctl : q.ctl = s.ctl) (hib : a.deliveredIB q = s.ib)
    (ha : a.accept (encode i) = (s.accept (encode i)).rehost jb (some q) es) :
    ∃ t u, exec i a = .next t ∧ exec i s = .next u ∧ t = { u with ob := t.ob, ib := jb, inputs := es } ∧
      ∀ b, SettledByte q s.epoch s.ob t u b := by
  obtain ⟨z, pass, hpass⟩ := exists_readyPass hi s.inLen s.ctl s.ib
  have hidle := State.latch_idle hs (encode i)
  have hrunning := State.latch_running hq (encode i)
  have hready : a.lifecycle = .ready := (congrArg State.lifecycle ha).trans hr
  refine ⟨_, _, hpass.exec_eq hready (by rw [hrunning, hlen]) (by rw [hrunning, hctl]) (by rw [hrunning]; exact hib),
    hpass.exec_eq hr (by rw [hidle]) (by rw [hidle]) (State.deliveredIB_idle hs _), ?_⟩
  rw [hrunning, ha, hpass.rehost]
  exact ⟨State.finishPass_raced .., hpass.settledByte (by rw [hidle]) (s.accept (encode i)) jb es⟩

/-- IB has held what a command's sequencer keeps and what IB holds now. -/
theorem RacedTo.heldIB_eq {es : List Input} {s : State} {q q' : Seq} {ib : List Byte} (h : RacedTo es s q ib q')
    (hq : q.ibOld = []) : heldIB s.ib es = ib :: q'.ibOld := by
  rw [h.held, hq, heldIB, List.reverse_cons]

/-- Settles O49: the events leave the unit as accepted (`run_races`), and the completion is `exec_raced`, whose input is
drawn from what IB held (`State.deliveredIB_drawnFrom`). -/
theorem racesAreDraws : Obligations.RacesAreDraws := by
  intro i s es rest hpass hs hr hes hi
  have haccepted := congrArg some (State.latch_idle hs (encode i))
  obtain ⟨mib, mob, q, hraced, hrun⟩ :=
    run_races (s := State.accept (encode i) { s with inputs := es ++ .complete :: rest }) haccepted rfl hes
  have hword : q.word = encode i := congrArg Seq.word hraced.latched
  have hgoes : q.stalled = false := congrArg Seq.stalled hraced.latched
  have hheld : heldIB s.ib es = mib :: q.ibOld := hraced.heldIB_eq rfl
  have hwrites : ∀ a, a ∈ q.obRaced ↔ ∃ v, .writeOB a v ∈ es := fun a => (hraced.raced a).trans (by simp)
  obtain ⟨least, most, hdrawn⟩ := State.deliveredIB_drawnFrom q { s with ib := mib }
  obtain ⟨t, u, ht, hu, hsame, hsettled⟩ := exec_raced hpass
    (s := { s with ib := State.deliveredIB q { s with ib := mib }, ob := mob })
    (a := State.accept (encode i) { s with ib := mib, ob := mob, seq := some q, inputs := rest })
    hs hr rfl (congrArg Seq.inLen hraced.latched) (congrArg Seq.ctl hraced.latched) rfl rfl
  refine ⟨_, t, u, _, least, most, (run_of_step Sys2Proof.core _ (step_start hs hi)).trans hrun, rfl,
    (step_complete rfl hgoes rfl).trans ?_, hu, hsame, ?_⟩
  · rw [hword, State.runWord_encode]
    exact ht
  · rw [hheld]
    refine ⟨hdrawn.leastHeld, hdrawn.mostHeld, hdrawn.bounds, hdrawn.length_le.1, hdrawn.length_le.2, hdrawn.extent,
      fun a ha => ⟨hdrawn.byte_held ha, hdrawn.bytes a ha⟩, fun a hquiet => ?_, fun a v hwrite => ?_⟩
    · exact (hsettled a).quiet fun hmem => ((hwrites a).1 hmem).elim hquiet
    · exact ⟨(hsettled a).either, (hsettled a).drawn ((hwrites a).2 ⟨v, hwrite⟩)⟩

end Sys2Proof.Machine
end
